-- ==== Sys2Proof/Word.lean ====
section
/-! DEFINITION. The plain data the block handles: bytes, times, 64-byte frames and commands, and the
constants of spec/00_scope.md R6 that the source fixes. -/

namespace Sys2Proof

/-- A byte (R9). Sequence numbers, ack numbers and peer ids are bytes. -/
abbrev Byte := BitVec 8

/-- A time value: `TIME_BITS` = 64 bits, unsigned (R6, R43). -/
abbrev Time := BitVec 64

/-- A frame: a string of exactly `FRAME_LEN` = 64 bytes, byte 0 transmitted first (R10, R92). -/
abbrev Frame := Vector Byte 64

/-- The zero frame: the reset value of a frame store (R48, R54). -/
def Frame.zero : Frame := Vector.replicate 64 0

/-- One entry of `cmdq`: `(srcId, dstId, text)`, the text without its terminating NUL (R58, R133). -/
structure Command where
  src  : Byte
  dst  : Byte
  text : List Byte
  deriving DecidableEq, Repr

/-- `W`, the window size (R6). The slot arrays are vectors of this length. -/
abbrev windowSize : Nat := 8

/-- `SEQ_MOD`, the size of the sequence space (R6). -/
abbrev seqMod : Nat := 256

/-- `PAYLOAD_LEN`, the payload capacity `P` of a frame (R6; conflict C1). -/
abbrev payloadLen : Nat := 57

/-- R7: the window is at most half the sequence space. -/
theorem half_window : 2 * windowSize ≤ seqMod := by decide

end Sys2Proof
end

