-- ==== Sys2Proof/Machine/Operands.lean ====
section
/-! DEFINITION. Operand assembly: the fields of a frame (spec/30_encoding.md R120, R121, R127) and the
conversions between frames and byte strings. -/

namespace Sys2Proof

/-- R122: the segmentation role of a data frame. -/
inductive Role | middle | head | tail | unsegmented
  deriving DecidableEq, Repr

/-- R122: "`00`=middle, `01`=head, `10`=tail, `11`=unsegmented". -/
def Role.ofBits (b : BitVec 2) : Role :=
  if b = 0b00#2 then .middle else if b = 0b01#2 then .head else if b = 0b10#2 then .tail else .unsegmented

/-- R122, the other way. -/
def Role.bits : Role → BitVec 2
  | .middle => 0b00#2
  | .head => 0b01#2
  | .tail => 0b10#2
  | .unsegmented => 0b11#2

/-- The `flag` byte of a data frame the block builds: kind 0 and reserved bits 0 (R124, R125). -/
def Role.flag (r : Role) : Byte := r.bits.zeroExtend 8

/-! R127, field by field. -/

def Frame.src (f : Frame) : Byte := f[0]
def Frame.dst (f : Frame) : Byte := f[1]
def Frame.seq (f : Frame) : Byte := f[2]
def Frame.ack (f : Frame) : Byte := f[3]
def Frame.flag (f : Frame) : Byte := f[4]
def Frame.role (f : Frame) : Role := Role.ofBits (f.flag.extractLsb' 0 2)
/-- R123: true for an ack frame, false for a data frame. -/
def Frame.kind (f : Frame) : Bool := f.flag.getLsbD 2
/-- R124: the reserved bits, ignored on receipt. -/
def Frame.rsv (f : Frame) : BitVec 5 := f.flag.extractLsb' 3 5
/-- Bytes 5..61. -/
def Frame.payload (f : Frame) : List Byte := (f.toList.drop 5).take 57
/-- Bytes 62..63, big-endian (R93). -/
def Frame.fcs (f : Frame) : BitVec 16 := (f[62].zeroExtend 16 <<< 8) ||| f[63].zeroExtend 16

/-- R263 `f[2] <- v`. -/
def Frame.setSeq (f : Frame) (v : Byte) : Frame := f.set 2 v

/-- R183 `f[62] <- c[15:8] ; f[63] <- c[7:0]`, big-endian (R93). -/
def Frame.setFcs (f : Frame) (c : BitVec 16) : Frame :=
  (f.set 62 (c.extractLsb' 8 8)).set 63 (c.extractLsb' 0 8)

/-- The first 64 bytes of a byte string as a frame, and the rest; `none` where there are fewer (R130). -/
def Frame.take? (bs : List Byte) : Option (Frame × List Byte) :=
  if h : 64 ≤ bs.length then some (⟨(bs.take 64).toArray, by simp [h]⟩, bs.drop 64) else none

end Sys2Proof
end

