-- ==== Sys2Proof/Machine/Codec.lean ====
section
/-! DEFINITION. The CRC-16 validator and the frame codec, spec/41_codec.md. `init` is `CRC_INIT` (R181).
The CRC parameters are the spec's own choice, from general knowledge (D3): notes/assumptions/20.md. -/

namespace Sys2Proof.Machine
open Sys2Proof

/-- R180: one shift of the register. -/
def crcBit (r : BitVec 16) : BitVec 16 :=
  if r.getLsbD 15 then (r <<< 1) ^^^ 0x1021#16 else r <<< 1

/-- R180: one byte enters, most significant bit first. -/
def crcByte (r : BitVec 16) (b : Byte) : BitVec 16 :=
  crcBit (crcBit (crcBit (crcBit (crcBit (crcBit (crcBit (crcBit (r ^^^ (b.zeroExtend 16 <<< 8)))))))))

/-- R180: the CRC-16 of a byte string. -/
def crc16 (init : BitVec 16) (s : List Byte) : BitVec 16 := s.foldl crcByte init

/-- R190: `T[b]`, the CRC of the one byte `b` with register start 0. -/
def crcTable (b : Byte) : BitVec 16 := crcByte 0 b

/-- R190: one byte enters through the table. -/
def crcByteByTable (r : BitVec 16) (b : Byte) : BitVec 16 := (r <<< 8) ^^^ crcTable (r.extractLsb' 8 8 ^^^ b)

/-- R190: the table-driven CRC. -/
def crc16ByTable (init : BitVec 16) (s : List Byte) : BitVec 16 := s.foldl crcByteByTable init

/-- R182 COMPUTE_FCS: the CRC over bytes 0..61. -/
def computeFCS (init : BitVec 16) (f : Frame) : BitVec 16 := crc16 init (f.toList.take 62)

/-- R183. -/
def stampFCS (init : BitVec 16) (f : Frame) : Frame := f.setFcs (computeFCS init f)

/-- R184 IS_CORRUPTED: the CRC over all 64 bytes is non-zero. -/
def isCorrupted (init : BitVec 16) (f : Frame) : Bool := crc16 init f.toList != 0

/-- R187: build a frame from field values; the rest of the payload and the fcs bytes are 0. -/
def marshal (src dst seq ack flag : Byte) (chunk : List Byte) : Frame :=
  Vector.ofFn fun i : Fin 64 =>
    match i.val with
    | 0 => src
    | 1 => dst
    | 2 => seq
    | 3 => ack
    | 4 => flag
    | k + 5 => if k < 57 then chunk.getD k 0 else 0

end Sys2Proof.Machine
end

