-- ==== Sys2Proof/Machine/SeqSpace.lean ====
section
/-! DEFINITION. The modulo-256 sequence-space comparator, spec/40_seqspace.md. -/

namespace Sys2Proof.Machine
open Sys2Proof

/-- R160: `(n - base + 256) mod 256`, the subtraction with the borrow discarded. -/
def slotIndex (n base : Byte) : Byte := n - base

/-- R161: the slot index is one of `0..7`. -/
def inWindow (n base : Byte) : Bool := (slotIndex n base).toNat < 8

/-- R162: the sequence number slot `i` stands for. -/
def seqAt (base : Byte) (i : Nat) : Byte := base + BitVec.ofNat 8 i

/-- R163: the base advanced by a run of `k`. -/
def advance (base : Byte) (k : Nat) : Byte := base + BitVec.ofNat 8 k

/-- R164: `n` is one of the `W` numbers just below `base`. -/
def justBehind (n base : Byte) : Bool := 248 ≤ (slotIndex n base).toNat

end Sys2Proof.Machine
end

