-- ==== Sys2Proof/Config.lean ====
section
/-! DEFINITION. The parameters of spec/00_scope.md R6 and the free values of
spec/60_exceptions.md R420. -/

namespace Sys2Proof

/-- The parameters a model takes as an argument (R6, R62). State holds one, read-only:
no operation changes it, RESET included (R451). -/
structure Config where
  /-- `SELF_ID` -/
  selfId       : Byte
  /-- `PEER_COUNT` -/
  peerCount    : Nat
  /-- `CRC_INIT` (R181) -/
  crcInit      : BitVec 16
  /-- `RTO`, in ticks -/
  rto          : Nat
  /-- `POLL_INTERVAL`, in ticks -/
  pollInterval : Nat
  /-- `RXQ_DEPTH`, in frames -/
  rxqDepth     : Nat
  /-- `CMDQ_DEPTH`, in commands -/
  cmdqDepth    : Nat
  /-- `PENDING_DEPTH`, in frames per sender window -/
  pendingDepth : Nat
  /-- `MAX_TEXT_LEN`, in bytes per command text -/
  maxTextLen   : Nat
  /-- `MAX_MSG_LEN`, in bytes per reassembled message -/
  maxMsgLen    : Nat
  deriving DecidableEq, Repr

/-- The ranges of R6, which a configuration satisfies before the entity leaves reset (R453). -/
abbrev Config.Valid (c : Config) : Prop :=
  1 ≤ c.peerCount ∧ c.peerCount ≤ 256 ∧ c.selfId.toNat < c.peerCount ∧ 1 ≤ c.rto ∧
  1 ≤ c.pollInterval ∧ 1 ≤ c.rxqDepth ∧ 1 ≤ c.cmdqDepth ∧ 1 ≤ c.pendingDepth ∧
  payloadLen ≤ c.maxMsgLen

/-- `BATCH_DEPTH = RXQ_DEPTH + 2 * W * PEER_COUNT` (R8). -/
def Config.batchDepth (c : Config) : Nat := c.rxqDepth + 2 * windowSize * c.peerCount

/-- The configuration of `State.reset`. `CRC_INIT` is the spec's default (R181). `PEER_COUNT`, `RTO` and
`POLL_INTERVAL` are those of spec/95_test_vectors.md, the rest is DESIGN CHOICE
(notes/assumptions/1.md). Unsafe: no statement may rest on these numbers. -/
def Config.default : Config where
  selfId       := 0
  peerCount    := 4
  crcInit      := 0xFFFF
  rto          := 100
  pollInterval := 50
  rxqDepth     := 16
  cmdqDepth    := 16
  pendingDepth := 64
  maxTextLen   := 1023
  maxMsgLen    := 1024

/-! Free values (R420; spec/93_implementation_defined.md gives "State other than `phase`, `fatal_code` and
the logs after a fatal raise" the treatment `any value`). They have no body, so nothing can be proved about what they are. The argument is a path: the
counter `freeCtr` of State, then which element is meant. notes/assumptions/8.md. -/

opaque Config.freeByte     : List Nat → Byte
opaque Config.freeBool     : List Nat → Bool
opaque Config.freeTime     : List Nat → Time
opaque Config.freeNat      : List Nat → Nat
opaque Config.freeFrame    : List Nat → Frame
opaque Config.freeBytes    : List Nat → List Byte
opaque Config.freeFrames   : List Nat → List Frame
opaque Config.freeCommands : List Nat → List Command

end Sys2Proof
end

