-- ==== Sys2Proof/Syntax.lean ====
section
/-! DEFINITION. The operations of the block: one constructor per row of spec/opcode_table.json
(spec/30_encoding.md R140), and the events by which the agents of spec/10_state.md R40 move. -/

namespace Sys2Proof

/-- The two formats of spec/opcode_table.json: frame kinds are decoded from a 64-byte frame (R128),
operations have a 5-bit code (R140). -/
inductive Format | frame | op
  deriving DecidableEq, Repr

/-- One constructor per row of spec/opcode_table.json. `p` is a peer id, `f` a frame. -/
inductive Instr
  /-- F.0 DATA_MIDDLE: a received data frame with `flag[2:0] = 000` -/
  | dataMiddle (f : Frame)
  /-- F.1 DATA_HEAD: a received data frame with `flag[2:0] = 001` -/
  | dataHead (f : Frame)
  /-- F.2 DATA_TAIL: a received data frame with `flag[2:0] = 010` -/
  | dataTail (f : Frame)
  /-- F.3 DATA_UNSEG: a received data frame with `flag[2:0] = 011` -/
  | dataUnseg (f : Frame)
  /-- F.4 ACK: a received ack frame, `flag[2] = 1` -/
  | ack (f : Frame)
  /-- 0x01 RX_PUSH: the channel agent pushes a frame -/
  | rxPush (f : Frame)
  /-- 0x02 CMD_PUSH: the command agent pushes a command -/
  | cmdPush (c : Command)
  /-- 0x03 SAMPLE -/
  | sample
  /-- 0x04 ARBITRATE -/
  | arbitrate
  /-- 0x05 WAIT -/
  | wait
  /-- 0x06 DRAIN -/
  | drain
  /-- 0x07 ROUTE_FRAME -/
  | routeFrame (f : Frame)
  /-- 0x08 PROCESS_CMD -/
  | processCmd (c : Command)
  /-- 0x09 SEGMENT -/
  | segment (dst : Byte) (text : List Byte)
  /-- 0x0A ENQUEUE -/
  | enqueue (p : Byte) (f : Frame)
  /-- 0x0B ADMIT -/
  | admitFrames (p : Byte)
  /-- 0x0C ON_ACK, with `a` the ack number -/
  | onAck (p a : Byte)
  /-- 0x0D SLIDE_TX -/
  | slideTx (p : Byte)
  /-- 0x0E CHECK_TIMEOUTS -/
  | checkTimeouts (p : Byte)
  /-- 0x0F PLACE -/
  | place (p : Byte) (f : Frame)
  /-- 0x10 GEN_ACK, with `n` the acknowledged sequence number -/
  | genAck (p n : Byte)
  /-- 0x11 DELIVERY_SCAN -/
  | deliveryScan (p : Byte)
  /-- 0x12 REASSEMBLE -/
  | reassemble (p : Byte) (f : Frame)
  /-- 0x13 COMPUTE_FCS -/
  | computeFcs (f : Frame)
  /-- 0x14 IS_CORRUPTED -/
  | isCorrupted (f : Frame)
  /-- 0x15 TRANSMIT -/
  | transmit
  /-- 0x16 RESET -/
  | reset
  /-- 0x17 SLOT_INDEX -/
  | slotIndex (n base : Byte)
  deriving DecidableEq, Repr

/-- What moves next: the agents of R40, and the fetch of one operation by its bytes
(notes/assumptions/2.md). -/
inductive Event
  /-- the worker takes its next step (R350) -/
  | worker
  /-- the time source drives `now_in` to `t` (R136) -/
  | now (t : Time)
  /-- the channel agent is, or is not, ready to accept an offer on `TX` (R134) -/
  | txReady (b : Bool)
  /-- an operation arrives as bytes and is decoded and executed -/
  | fetch (fmt : Format) (bytes : List Byte)
  deriving DecidableEq, Repr

end Sys2Proof
end

