-- ==== Sys2Proof/WellFormed.lean ====
section
/-! DEFINITION. Which instructions have an encoding: a frame kind needs a frame that decodes to it
(spec/30_encoding.md R128); every operand of an operation has one at every value. -/

namespace Sys2Proof
open Sys2Proof.Machine

/-- The frame is valid (R184) and its `flag[2:0]` selects the data role `r` (R128). -/
def Frame.isData (init : BitVec 16) (r : Role) (f : Frame) : Bool :=
  !isCorrupted init f && !f.kind && f.role == r

/-- The frame is valid (R184) and its `flag[2]` says ack frame (R128). -/
def Frame.isAck (init : BitVec 16) (f : Frame) : Bool := !isCorrupted init f && f.kind

/-- Well-formed under the channel's `CRC_INIT`. -/
def Instr.wellFormed (init : BitVec 16) : Instr → Bool
  | .dataMiddle f => f.isData init .middle
  | .dataHead f => f.isData init .head
  | .dataTail f => f.isData init .tail
  | .dataUnseg f => f.isData init .unsegmented
  | .ack f => f.isAck init
  | .rxPush _ => true
  | .cmdPush _ => true
  | .sample => true
  | .arbitrate => true
  | .wait => true
  | .drain => true
  | .routeFrame _ => true
  | .processCmd _ => true
  | .segment _ _ => true
  | .enqueue _ _ => true
  | .admitFrames _ => true
  | .onAck _ _ => true
  | .slideTx _ => true
  | .checkTimeouts _ => true
  | .place _ _ => true
  | .genAck _ _ => true
  | .deliveryScan _ => true
  | .reassemble _ _ => true
  | .computeFcs _ => true
  | .isCorrupted _ => true
  | .transmit => true
  | .reset => true
  | .slotIndex _ _ => true

end Sys2Proof
end

