-- ==== Sys2Proof/Decode.lean ====
section
/-! DEFINITION. The frame decoder of spec/30_encoding.md R128, the decoder of the operation codes of
R140, and an encoder for both. The layout of an operation's operands after its code byte is the model's
own (notes/assumptions/3.md), since the codes are "not visible on any port". -/

namespace Sys2Proof
open Sys2Proof.Machine

/-- Why bytes decode to no instruction. -/
inductive Reject
  /-- a frame whose CRC residue is not 0: R128's outcome CORRUPT -/
  | corruptFrame
  /-- a frame port carries all 64 bytes (R130) and these are fewer -/
  | shortFrame
  /-- no bytes at all -/
  | empty
  /-- the code byte is no code of R140 ("Codes 0x00 and 0x18 to 0x1F are unused"), or has a bit above the 5 -/
  | unusedCode (b : Byte)
  /-- the operand bytes of the code are missing, or a text marker is neither 0 nor 1 -/
  | badOperands (b : Byte)
  deriving DecidableEq, Repr

/-- The answer of a decoder: an instruction and the bytes after it, or a reason. What becomes of the bytes after
it is `step`'s choice (notes/assumptions/32.md). -/
inductive Decoded
  | instr (i : Instr) (rest : List Byte)
  | reject (r : Reject)
  deriving DecidableEq, Repr

/-- R128: the block's only decoder, total on all frames. -/
def decodeFrame (init : BitVec 16) (f : Frame) (rest : List Byte) : Decoded :=
  if isCorrupted init f then .reject .corruptFrame
  else if f.kind then .instr (.ack f) rest
  else match f.role with
    | .middle => .instr (.dataMiddle f) rest
    | .head => .instr (.dataHead f) rest
    | .tail => .instr (.dataTail f) rest
    | .unsegmented => .instr (.dataUnseg f) rest

/-- A text operand: each byte is preceded by a byte 1, and a byte 0 ends it. -/
def takeText : List Byte → Option (List Byte × List Byte)
  | [] => none
  | [m] => if m = 0 then some ([], []) else none
  | m :: b :: rest =>
    if m = 0 then some ([], b :: rest)
    else if m = 1 then
      match takeText rest with
      | some (text, rest') => some (b :: text, rest')
      | none => none
    else none

/-- A one-byte operand, then the rest. -/
def operand1 (code : Byte) (k : Byte → Instr) : List Byte → Decoded
  | p :: rest => .instr (k p) rest
  | [] => .reject (.badOperands code)

/-- Two one-byte operands, then the rest. -/
def operand2 (code : Byte) (k : Byte → Byte → Instr) : List Byte → Decoded
  | p :: q :: rest => .instr (k p q) rest
  | _ => .reject (.badOperands code)

/-- A frame operand, then the rest. -/
def operandFrame (code : Byte) (k : Frame → Instr) (bs : List Byte) : Decoded :=
  match Frame.take? bs with
  | some (f, rest) => .instr (k f) rest
  | none => .reject (.badOperands code)

/-- A peer id and a frame, then the rest. -/
def operandPeerFrame (code : Byte) (k : Byte → Frame → Instr) : List Byte → Decoded
  | p :: bs => operandFrame code (k p) bs
  | [] => .reject (.badOperands code)

/-- A destination and a text, then the rest. -/
def operandText (code : Byte) (k : Byte → List Byte → Instr) : List Byte → Decoded
  | d :: bs =>
    match takeText bs with
    | some (text, rest) => .instr (k d text) rest
    | none => .reject (.badOperands code)
  | [] => .reject (.badOperands code)

/-- A command `(srcId, dstId, text)`, then the rest. -/
def operandCommand (code : Byte) (k : Command → Instr) : List Byte → Decoded
  | a :: bs => operandText code (fun d text => k ⟨a, d, text⟩) bs
  | [] => .reject (.badOperands code)

/-- The operation codes of R140. -/
def decodeOp : List Byte → Decoded
  | [] => .reject .empty
  | c :: bs =>
    match c.toNat with
    | 0x01 => operandFrame c .rxPush bs
    | 0x02 => operandCommand c .cmdPush bs
    | 0x03 => .instr .sample bs
    | 0x04 => .instr .arbitrate bs
    | 0x05 => .instr .wait bs
    | 0x06 => .instr .drain bs
    | 0x07 => operandFrame c .routeFrame bs
    | 0x08 => operandCommand c .processCmd bs
    | 0x09 => operandText c .segment bs
    | 0x0A => operandPeerFrame c .enqueue bs
    | 0x0B => operand1 c .admitFrames bs
    | 0x0C => operand2 c .onAck bs
    | 0x0D => operand1 c .slideTx bs
    | 0x0E => operand1 c .checkTimeouts bs
    | 0x0F => operandPeerFrame c .place bs
    | 0x10 => operand2 c .genAck bs
    | 0x11 => operand1 c .deliveryScan bs
    | 0x12 => operandPeerFrame c .reassemble bs
    | 0x13 => operandFrame c .computeFcs bs
    | 0x14 => operandFrame c .isCorrupted bs
    | 0x15 => .instr .transmit bs
    | 0x16 => .instr .reset bs
    | 0x17 => operand2 c .slotIndex bs
    | _ => .reject (.unusedCode c)

/-- The decoder: total on any bytes of either format. -/
def decode (init : BitVec 16) (fmt : Format) (bs : List Byte) : Decoded :=
  match fmt with
  | .op => decodeOp bs
  | .frame =>
    match Frame.take? bs with
    | some (f, rest) => decodeFrame init f rest
    | none => .reject .shortFrame

/-! ## Encoding -/

/-- Which format of spec/opcode_table.json an instruction has. -/
def Instr.format : Instr → Format
  | .dataMiddle _ | .dataHead _ | .dataTail _ | .dataUnseg _ | .ack _ => .frame
  | .rxPush _ | .cmdPush _ | .sample | .arbitrate | .wait | .drain | .routeFrame _ | .processCmd _
  | .segment _ _ | .enqueue _ _ | .admitFrames _ | .onAck _ _ | .slideTx _ | .checkTimeouts _ | .place _ _
  | .genAck _ _ | .deliveryScan _ | .reassemble _ _ | .computeFcs _ | .isCorrupted _ | .transmit
  | .reset | .slotIndex _ _ => .op

/-- A text operand's bytes. -/
def textBytes : List Byte → List Byte
  | [] => [0]
  | b :: text => 1 :: b :: textBytes text

/-- The bytes of an instruction: the frame itself, or the code of R140 and its operands. -/
def encode : Instr → List Byte
  | .dataMiddle f => f.toList
  | .dataHead f => f.toList
  | .dataTail f => f.toList
  | .dataUnseg f => f.toList
  | .ack f => f.toList
  | .rxPush f => 0x01 :: f.toList
  | .cmdPush c => 0x02 :: c.src :: c.dst :: textBytes c.text
  | .sample => [0x03]
  | .arbitrate => [0x04]
  | .wait => [0x05]
  | .drain => [0x06]
  | .routeFrame f => 0x07 :: f.toList
  | .processCmd c => 0x08 :: c.src :: c.dst :: textBytes c.text
  | .segment dst text => 0x09 :: dst :: textBytes text
  | .enqueue p f => 0x0A :: p :: f.toList
  | .admitFrames p => [0x0B, p]
  | .onAck p a => [0x0C, p, a]
  | .slideTx p => [0x0D, p]
  | .checkTimeouts p => [0x0E, p]
  | .place p f => 0x0F :: p :: f.toList
  | .genAck p n => [0x10, p, n]
  | .deliveryScan p => [0x11, p]
  | .reassemble p f => 0x12 :: p :: f.toList
  | .computeFcs f => 0x13 :: f.toList
  | .isCorrupted f => 0x14 :: f.toList
  | .transmit => [0x15]
  | .reset => [0x16]
  | .slotIndex n base => [0x17, n, base]

/-! ## The words of spec/opcode_table.json -/

/-- The bytes of `w`, least significant first, `n` of them. -/
def lowBytes : Nat → Nat → List Byte
  | 0, _ => []
  | n + 1, w => BitVec.ofNat 8 w :: lowBytes n (w / 256)

/-- The longest operation with empty text: code, peer and frame. -/
def longestOp : Nat := 66

/-- Which format a table word has. A frame row's word is the `flag` byte, an operation row's the code,
and both take one byte, so the words 1 to 4 stand for two rows each. The model reads a word of R140's
codes as the operation and every other word as a `flag` byte; a word of 3 bits is a `flag[2:0]` and one
of 64 bytes a whole frame (notes/assumptions/4.md). -/
def tableFormat (nbits w : Nat) : Format :=
  if nbits = 3 ∨ nbits = 512 then .frame
  else if nbits = 5 then .op
  else if 0x01 ≤ w ∧ w ≤ 0x17 then .op else .frame

/-- The bytes a table word stands for: the code and zero operands, or a frame with that `flag` byte,
every other field 0 and its fcs stamped ("a 64-byte frame whose CRC16 residue over bytes 0..63 is 0"). -/
def tableBytes (init : BitVec 16) (nbits w : Nat) : List Byte :=
  match tableFormat nbits w with
  | .op => lowBytes longestOp w
  | .frame =>
    if nbits = 512 then lowBytes 64 w
    else (stampFCS init (marshal 0 0 0 0 (BitVec.ofNat 8 w) [])).toList

/-- The instruction the decoder reads from a word of spec/opcode_table.json, under the default
`CRC_INIT` (R181). -/
def decodeTableWord (nbits w : Nat) : Option Instr :=
  match decode 0xFFFF (tableFormat nbits w) (tableBytes 0xFFFF nbits w) with
  | .instr i _ => some i
  | .reject _ => none

end Sys2Proof
end

