-- ==== Sys2Proof/Machine/State.lean ====
section
/-! DEFINITION. The state of one entity, spec/10_state.md, as plain data, with its value after reset
(spec/70_reset_and_hazards.md R450), and the reasons a step can stop. -/

namespace Sys2Proof.Machine
open Sys2Proof

/-- R42: the loop sequencer's phase register; it takes the place of a program counter. -/
inductive Phase | sample | arbitrate | wait | drain | timeouts | transmit | fatal
  deriving DecidableEq, Repr

/-- R421: the fatal codes; `none` is code 0, "no fatal condition". `syncFailure` is never raised. -/
inductive FatalCode
  | none | rxqOverflow | cmdqOverflow | pendingOverflow | reasmOverflow | timeOverflow | syncFailure
  deriving DecidableEq, Repr

/-- R401: the drop codes. -/
inductive DropCode
  | corrupt | misdirected | badSrc | ackOutOfWindow | dataOutOfWindow | dataDuplicate | cmdBadDst
  | reasmOrphan
  deriving DecidableEq, Repr

/-- One report on the `TRACE` port, `(code, peer, num)` (R137). -/
structure Trace where
  code : DropCode
  peer : Byte
  num  : Byte
  deriving DecidableEq, Repr

/-- One output on the `DELIVER` port, `(peerId, message)` (R135). -/
structure Delivery where
  peer    : Byte
  message : List Byte
  deriving DecidableEq, Repr

/-- `S[p]`, the sender window for peer `p` (R46 to R52). -/
structure SenderWindow where
  /-- R46: the sequence number of slot 0 -/
  left      : Byte
  /-- R47: the index of the first unused slot, `0..8` -/
  firstFree : Nat
  /-- R48 -/
  buffer    : Vector Frame 8
  /-- R49 -/
  acked     : Vector Bool 8
  /-- R50 -/
  expiry    : Vector Time 8
  /-- R52: frames not yet admitted, the head first -/
  pending   : List Frame
  deriving DecidableEq, Repr

/-- `R[p]`, the receiver window for peer `p` (R53 to R55). -/
structure ReceiverWindow where
  /-- R53: the next sequence number expected -/
  left    : Byte
  /-- R54 -/
  buffer  : Vector Frame 8
  /-- R55 -/
  present : Vector Bool 8
  deriving DecidableEq, Repr

/-- `A[p]`, the reassembler for peer `p` (R56). -/
structure Reassembler where
  /-- a HEAD has been delivered and its TAIL has not -/
  active : Bool
  /-- the payload bytes accumulated so far -/
  acc    : List Byte
  deriving DecidableEq, Repr

/-- What the last value-returning operation answered. The MODEL's own (notes/assumptions/7.md): the
spec's operations SLOT_INDEX, COMPUTE_FCS, IS_CORRUPTED and SEGMENT write no state of the block. -/
inductive Answer
  | none
  | slot (idx : Byte)
  | fcs (c : BitVec 16)
  | corrupted (b : Bool)
  | frames (fs : List Frame)
  deriving DecidableEq, Repr

/-- The state of one entity, with its configuration, its inputs and its observation logs. -/
structure State where
  /-- R62: the configuration, read-only -/
  cfg       : Config
  /-- R42 -/
  phase     : Phase
  /-- R43: `t_now` -/
  tNow      : Time
  /-- R44 -/
  deadline  : Time
  /-- R45 -/
  fatalCode : FatalCode
  /-- R46 to R52: `S[0..PEER_COUNT)` (R63) -/
  snd       : List SenderWindow
  /-- R53 to R55: `R[0..PEER_COUNT)` (R63) -/
  rcv       : List ReceiverWindow
  /-- R56: `A[0..PEER_COUNT)` (R63) -/
  asm       : List Reassembler
  /-- R57: the inbound frames, the head first -/
  rxq       : List Frame
  /-- R58: the commands, the head first -/
  cmdq      : List Command
  /-- R59: the outgoing batch, in the order produced -/
  batch     : List Frame
  /-- R60: every frame accepted on `TX` -/
  txlog     : List Frame
  /-- R60: every `DELIVER` -/
  dlog      : List Delivery
  /-- R60: every `TRACE` report -/
  trlog     : List Trace
  /-- R136: the input `now_in` -/
  nowIn     : Time
  /-- R134: the channel agent accepts an offer on `TX` -/
  txReady   : Bool
  /-- the MODEL's own: what moves next (notes/assumptions/2.md) -/
  agenda    : List Event
  /-- the MODEL's own: the last answer (notes/assumptions/7.md) -/
  ret       : Answer
  /-- the MODEL's own: the counter of free values (notes/assumptions/8.md) -/
  freeCtr   : Nat
  deriving DecidableEq, Repr

/-- Why the model stops with a fault. -/
inductive Fault
  /-- Raised by an internal operation fetched alone (ENQUEUE, ADMIT, ON_ACK, SLIDE_TX, CHECK_TIMEOUTS,
  PLACE, DELIVERY_SCAN, REASSEMBLE) whose peer operand is not below `PEER_COUNT`: no such window exists
  (R63). Safe: the hardware never does it (notes/assumptions/5.md). -/
  | noSuchPeer (p : Byte)
  deriving DecidableEq, Repr

/-- Why the model refuses. -/
inductive Refusal
  /-- Raised by an arm of `exec` whose instruction has no meaning yet. Safe. No arm does. -/
  | notModelled (mnemonic : String)
  /-- Raised by CMD_PUSH for a text longer than `MAX_TEXT_LEN`: "The block's behaviour for it is not
  defined. A model may reject the push." (93_implementation_defined.md; notes/assumptions/12.md). Safe. -/
  | textTooLong
  /-- Raised by a `now` event that would set `now_in` back: "A backward step is `refuse` (a time-source
  duty)" (93_implementation_defined.md; notes/assumptions/11.md). Safe. -/
  | timeBackwards
  /-- Raised by the fetch of bytes that encode no operation (R140: unused codes "A model has no use for
  them"; notes/assumptions/3.md). Safe. -/
  | undecodable (r : Reject)
  deriving DecidableEq, Repr

/-- R46 to R52: the reset values of a sender window. -/
def SenderWindow.reset : SenderWindow where
  left      := 0
  firstFree := 0
  buffer    := Vector.replicate 8 Frame.zero
  acked     := Vector.replicate 8 false
  expiry    := Vector.replicate 8 0
  pending   := []

/-- R53 to R55: the reset values of a receiver window. -/
def ReceiverWindow.reset : ReceiverWindow where
  left    := 0
  buffer  := Vector.replicate 8 Frame.zero
  present := Vector.replicate 8 false

/-- R56: the reset values of a reassembler. -/
def Reassembler.reset : Reassembler where
  active := false
  acc    := []

/-- R450: every state element at its reset value, under a configuration. The inputs and the model's own
fields are at the values of notes/assumptions/2.md, 7.md, 8.md and 10.md. -/
def State.resetFor (cfg : Config) : State where
  cfg       := cfg
  phase     := .sample
  tNow      := 0
  deadline  := 0
  fatalCode := .none
  snd       := List.replicate cfg.peerCount SenderWindow.reset
  rcv       := List.replicate cfg.peerCount ReceiverWindow.reset
  asm       := List.replicate cfg.peerCount Reassembler.reset
  rxq       := []
  cmdq      := []
  batch     := []
  txlog     := []
  dlog      := []
  trlog     := []
  nowIn     := 0
  txReady   := true
  agenda    := []
  ret       := .none
  freeCtr   := 0

/-- The machine right after reset, under `Config.default` (notes/assumptions/1.md). -/
def State.reset : State := State.resetFor Config.default

end Sys2Proof.Machine
end

