-- ==== Sys2Proof/Machine/Flags.lean ====
section
/-! DEFINITION. The single-bit state of spec/10_state.md R61 and everything computed from it: `armed`
(R51), the ack run of a sender window (R267), the run of a receiver window (R315), and the arrays after
a slide (R268, R316). -/

namespace Sys2Proof.Machine
open Sys2Proof

/-- How many leading elements are true. -/
def leadingTrue : List Bool → Nat
  | true :: bs => leadingTrue bs + 1
  | false :: _ => 0
  | [] => 0

/-- R51: slot `i` is buffered and un-acked. -/
def SenderWindow.armed (w : SenderWindow) (i : Fin 8) : Bool := i.val < w.firstFree && !w.acked[i]

/-- R267: "the largest k in [0, S[p].firstFree] with acked[j] == true for all j < k". -/
def SenderWindow.ackRun (w : SenderWindow) : Nat := leadingTrue (w.acked.toList.take w.firstFree)

/-- R315: the length of the contiguous run of present slots at the base. -/
def ReceiverWindow.run (w : ReceiverWindow) : Nat := leadingTrue w.present.toList

/-- R268, R316: an array shifted down by `k` slots, the vacated trailing slots holding `cleared`. All
reads are of the values before the shift. -/
def shifted {α : Type} (v : Vector α 8) (k : Nat) (cleared : α) : Vector α 8 :=
  Vector.ofFn fun j : Fin 8 => if h : j.val + k < 8 then v[j.val + k] else cleared

/-- R66, R46: is `idx` a slot, and which. -/
def slotOf (idx : Byte) : Option (Fin 8) := if h : idx.toNat < 8 then some ⟨idx.toNat, h⟩ else none

end Sys2Proof.Machine
end

