-- ==== Sys2Proof/Machine/Ops.lean ====
section
/-! DEFINITION. The named operations over the state (spec/00_scope.md R11), the raising of a fatal
condition (spec/60_exceptions.md R420) and the only way out of it, reset (R422, R450). -/

namespace Sys2Proof.Machine
open Sys2Proof

/-! ## Reading and writing the windows -/

/-- `S[p]`. -/
def State.sender (s : State) (p : Byte) : SenderWindow := s.snd.getD p.toNat SenderWindow.reset

/-- `R[p]`. -/
def State.receiver (s : State) (p : Byte) : ReceiverWindow := s.rcv.getD p.toNat ReceiverWindow.reset

/-- `A[p]`. -/
def State.reasm (s : State) (p : Byte) : Reassembler := s.asm.getD p.toNat Reassembler.reset

/-- `S[p] <- w`. -/
def State.setSender (s : State) (p : Byte) (w : SenderWindow) : State :=
  { s with snd := s.snd.set p.toNat w }

/-- `R[p] <- w`. -/
def State.setReceiver (s : State) (p : Byte) (w : ReceiverWindow) : State :=
  { s with rcv := s.rcv.set p.toNat w }

/-- `A[p] <- a`. -/
def State.setReasm (s : State) (p : Byte) (a : Reassembler) : State :=
  { s with asm := s.asm.set p.toNat a }

/-! ## Outputs -/

/-- R11 `drop(code, p, n)`: one `TRACE` report and no other effect (R400). -/
def State.drop (s : State) (code : DropCode) (p n : Byte) : State :=
  { s with trlog := s.trlog ++ [⟨code, p, n⟩] }

/-- R11 `emit DELIVER(p, m)`. -/
def State.deliver (s : State) (p : Byte) (m : List Byte) : State :=
  { s with dlog := s.dlog ++ [⟨p, m⟩] }

/-- R11 `batch.append`, for each frame in order. R59 gives `batch` the capacity `BATCH_DEPTH`, R8 says that
it cannot overflow, and no rule says what an append to a full one does. DESIGN CHOICE, safe: where operations
fetched alone go past that depth, the list grows (notes/assumptions/29.md). -/
def State.append (s : State) (fs : List Frame) : State := { s with batch := s.batch ++ fs }

/-- R11 `phase <- ph`. -/
def State.goto (s : State) (ph : Phase) : State := { s with phase := ph }

/-- The model's own: record what an operation answered (notes/assumptions/7.md). -/
def State.answer (s : State) (a : Answer) : State := { s with ret := a }

/-! ## Time -/

/-- R367: the sum computed exactly; `none` where it is `2^64` or more. -/
def addTime (t : Time) (d : Nat) : Option Time :=
  if t.toNat + d < 2 ^ 64 then some (BitVec.ofNat 64 (t.toNat + d)) else none

/-! ## Running part of a step -/

/-- Part of an atomic step: it goes on in a state, or it stopped at a `raise Fatal(c)` in a state. -/
inductive Run
  | ok (s : State)
  | fatal (c : FatalCode) (s : State)

/-- Go on with `k` unless a fatal condition was raised (R420: "The step that raised it stops at the
raise"). -/
def Run.andThen (r : Run) (k : State → Run) : Run :=
  match r with
  | .ok s => k s
  | .fatal c s => .fatal c s

/-- Run `body` for each element in order. -/
def forEach {α : Type} (body : α → State → Run) : List α → State → Run
  | [], s => .ok s
  | x :: xs, s => (body x s).andThen (forEach body xs)

/-- The peer ids `0 .. PEER_COUNT-1`, in order. -/
def peersOf (c : Config) : List Byte := (List.range c.peerCount).map (BitVec.ofNat 8)

/-! ## The fatal state

R420: `phase <- FATAL`, `fatal_code <- code`; the logs stay; "Any other state the raising step had
already changed holds an unspecified value, and a model must not depend on it".
spec/93_implementation_defined.md: "State other than `phase`, `fatal_code` and the logs after a fatal raise"
is `any value`. So each other element becomes a free value within its physical bound, whether the raising
step had changed it or not (notes/assumptions/8.md). `path` says which element is meant. -/

/-- `S[p]` after a raise. -/
def SenderWindow.unspecified (cfg : Config) (path : List Nat) : SenderWindow where
  left      := Config.freeByte (0 :: path)
  firstFree := Config.freeNat (1 :: path) % 16
  buffer    := Vector.ofFn fun i : Fin 8 => Config.freeFrame (2 :: i.val :: path)
  acked     := Vector.ofFn fun i : Fin 8 => Config.freeBool (3 :: i.val :: path)
  expiry    := Vector.ofFn fun i : Fin 8 => Config.freeTime (4 :: i.val :: path)
  pending   := (Config.freeFrames (5 :: path)).take cfg.pendingDepth

/-- `R[p]` after a raise. -/
def ReceiverWindow.unspecified (path : List Nat) : ReceiverWindow where
  left    := Config.freeByte (6 :: path)
  buffer  := Vector.ofFn fun i : Fin 8 => Config.freeFrame (7 :: i.val :: path)
  present := Vector.ofFn fun i : Fin 8 => Config.freeBool (8 :: i.val :: path)

/-- `A[p]` after a raise. -/
def Reassembler.unspecified (cfg : Config) (path : List Nat) : Reassembler where
  active := Config.freeBool (9 :: path)
  acc    := (Config.freeBytes (10 :: path)).take cfg.maxMsgLen

/-- `s` with every element of the block but `phase`, `fatal_code` and the logs unspecified. The
configuration, the inputs and the model's own fields are no elements of the block. -/
def State.unspecified (s : State) : State :=
  { s with
    snd := s.snd.mapIdx fun p _ => SenderWindow.unspecified s.cfg [p, s.freeCtr]
    rcv := s.rcv.mapIdx fun p _ => ReceiverWindow.unspecified [p, s.freeCtr]
    asm := s.asm.mapIdx fun p _ => Reassembler.unspecified s.cfg [p, s.freeCtr]
    rxq := (Config.freeFrames [11, s.freeCtr]).take s.cfg.rxqDepth
    cmdq := (Config.freeCommands [12, s.freeCtr]).take s.cfg.cmdqDepth
    batch := (Config.freeFrames [13, s.freeCtr]).take s.cfg.batchDepth
    tNow := Config.freeTime [14, s.freeCtr]
    deadline := Config.freeTime [15, s.freeCtr]
    freeCtr := s.freeCtr + 1 }

/-- R420 `raise Fatal(c)` in state `s`: the one way into `FATAL`. -/
def raiseFatal (c : FatalCode) (s : State) : State :=
  { s.unspecified with phase := .fatal, fatalCode := c }

/-- The end of an atomic step. -/
def Run.commit : Run → Host.Outcome State Fault Refusal
  | .ok s => .next s
  | .fatal c s => .next (raiseFatal c s)

/-- R450, R451: every element at its reset value, the logs empty; the configuration is unchanged, and so
are the inputs and the model's agenda and counter (notes/assumptions/14.md). The one way out of `FATAL`
(R422). -/
def State.afterReset (s : State) : State :=
  { State.resetFor s.cfg with
    nowIn := s.nowIn, txReady := s.txReady, agenda := s.agenda, freeCtr := s.freeCtr }

/-! ## When an operation is enabled -/

/-- R350: "A step of the worker is enabled only in the phase its rule names". Elsewhere nothing happens
(notes/assumptions/6.md). -/
def inPhase (ph : Phase) (s : State) (k : Host.Outcome State Fault Refusal) :
    Host.Outcome State Fault Refusal :=
  if s.phase = ph then k else .next s

/-- R368: nothing is enabled in `FATAL`; a push there "is ignored and has no effect" (R363, R364). -/
def unlessFatal (s : State) (k : Host.Outcome State Fault Refusal) : Host.Outcome State Fault Refusal :=
  if s.phase = .fatal then .next s else k

/-- R63: windows exist for the peers below `PEER_COUNT` (notes/assumptions/5.md), the one of `SELF_ID` among
them. R63: that one is "never written by any operation"; no step of the hardware performs an operation on it.
DESIGN CHOICE, safe: one fetched alone with that peer runs on it (notes/assumptions/28.md). -/
def withPeer (p : Byte) (s : State) (k : Host.Outcome State Fault Refusal) :
    Host.Outcome State Fault Refusal :=
  if p.toNat < s.cfg.peerCount then k else .fault (.noSuchPeer p)

/-! ## Ports -/

/-- R134: what the block offers on `TX`: the head of `batch` in `TRANSMIT`, nothing in any other phase. -/
def State.txOffer (s : State) : Option Frame := if s.phase = .transmit then s.batch.head? else none

/-- R138: the output bit `fatal`. -/
def State.fatalOut (s : State) : Bool := s.phase == .fatal

/-- R421: the 4-bit fatal codes. -/
def FatalCode.bits : FatalCode → BitVec 4
  | .none => 0
  | .rxqOverflow => 1
  | .cmdqOverflow => 2
  | .pendingOverflow => 3
  | .reasmOverflow => 4
  | .timeOverflow => 5
  | .syncFailure => 6

/-- R401: the 4-bit drop codes. -/
def DropCode.bits : DropCode → BitVec 4
  | .corrupt => 1
  | .misdirected => 2
  | .badSrc => 3
  | .ackOutOfWindow => 4
  | .dataOutOfWindow => 5
  | .dataDuplicate => 6
  | .cmdBadDst => 7
  | .reasmOrphan => 8

/-- R42: the 3-bit encoding of `phase` (not observable). -/
def Phase.bits : Phase → BitVec 3
  | .sample => 0
  | .arbitrate => 1
  | .wait => 2
  | .drain => 3
  | .timeouts => 4
  | .transmit => 5
  | .fatal => 7

end Sys2Proof.Machine
end

