-- ==== Sys2Proof/Machine/Functions.lean ====
section
/-! DEFINITION. The meanings of the operations that answer a value and write no state of the block:
SLOT_INDEX (spec/40_seqspace.md R160), COMPUTE_FCS (spec/41_codec.md R182), IS_CORRUPTED (R184). -/

namespace Sys2Proof.Machine
open Sys2Proof

/-- SLOT_INDEX (R160). -/
def execSlotIndex (n base : Byte) (s : State) : Host.Outcome State Fault Refusal :=
  unlessFatal s (.next (s.answer (.slot (slotIndex n base))))

/-- COMPUTE_FCS (R182). -/
def execComputeFcs (f : Frame) (s : State) : Host.Outcome State Fault Refusal :=
  unlessFatal s (.next (s.answer (.fcs (computeFCS s.cfg.crcInit f))))

/-- IS_CORRUPTED (R184). -/
def execIsCorrupted (f : Frame) (s : State) : Host.Outcome State Fault Refusal :=
  unlessFatal s (.next (s.answer (.corrupted (isCorrupted s.cfg.crcInit f))))

end Sys2Proof.Machine
end

