-- ==== Sys2Proof/Machine/Segmentation.lean ====
section
/-! DEFINITION. Segmentation and reassembly, spec/42_segmentation.md, and the meanings of SEGMENT and
REASSEMBLE. -/

namespace Sys2Proof.Machine
open Sys2Proof

/-! ## Segmentation -/

/-- R220: the terminating NUL is part of the message. -/
def messageOf (text : List Byte) : List Byte := text ++ [0]

/-- R221: the frame count for a message of `L` bytes. -/
def frameCount (L : Nat) : Nat := if L ≤ 57 then 1 else (L + 56) / 57

/-- R223: chunk `j`. -/
def chunk (m : List Byte) (j : Nat) : List Byte := (m.drop (j * 57)).take 57

/-- R222, R223: the role of frame `j` of `k`. -/
def chunkRole (k j : Nat) : Role :=
  if k = 1 then .unsegmented else if j = 0 then .head else if j + 1 = k then .tail else .middle

/-- R220 to R224: the frames of a command; `seq` and `fcs` stay 0 until admission. -/
def segment (cfg : Config) (dst : Byte) (text : List Byte) : List Frame :=
  let m := messageOf text
  let k := frameCount m.length
  (List.range k).map fun j => marshal cfg.selfId dst 0 0 (chunkRole k j).flag (chunk m j)

/-! ## Reassembly -/

/-- R230: up to and including the first NUL, or everything where there is none. -/
def tailPart : List Byte → List Byte
  | [] => []
  | b :: bs => if b = 0 then [0] else b :: tailPart bs

/-- R226 to R229: the reassembler of peer `p` takes one delivered frame. -/
def reassemble (p : Byte) (f : Frame) (s : State) : Run :=
  let a := s.reasm p
  match f.role with
  | .unsegmented =>
    let s := if a.active then (s.drop .reasmOrphan p f.seq).setReasm p ⟨false, []⟩ else s
    .ok (s.deliver p (tailPart f.payload))
  | .head =>
    let s := if a.active then s.drop .reasmOrphan p f.seq else s
    .ok (s.setReasm p ⟨true, f.payload⟩)
  | .middle =>
    if !a.active then .ok (s.drop .reasmOrphan p f.seq)
    else if s.cfg.maxMsgLen < a.acc.length + 57 then .fatal .reasmOverflow s
    else .ok (s.setReasm p ⟨true, a.acc ++ f.payload⟩)
  | .tail =>
    if !a.active then .ok (s.drop .reasmOrphan p f.seq)
    else if s.cfg.maxMsgLen < a.acc.length + (tailPart f.payload).length then .fatal .reasmOverflow s
    else .ok ((s.deliver p (a.acc ++ tailPart f.payload)).setReasm p ⟨false, []⟩)

/-! ## Meanings -/

/-- SEGMENT (R221): "State written: none by itself"; the frames are the answer. DESIGN CHOICE, unsafe:
a text longer than `MAX_TEXT_LEN`, for which R220 gives no frames, is cut by the same rule
(notes/assumptions/27.md). DESIGN CHOICE, safe: so are the frames for a destination that PROCESS_CMD
would drop (notes/assumptions/31.md). -/
def execSegment (dst : Byte) (text : List Byte) (s : State) : Host.Outcome State Fault Refusal :=
  unlessFatal s (.next (s.answer (.frames (segment s.cfg dst text))))

/-- REASSEMBLE (R226 to R230), inside `DRAIN`. DESIGN CHOICE, unsafe: fetched alone with a frame that PLACE
would not have stored for `p`, it runs as for one (notes/assumptions/30.md). -/
def execReassemble (p : Byte) (f : Frame) (s : State) : Host.Outcome State Fault Refusal :=
  inPhase .drain s (withPeer p s ((reassemble p f s).commit))

end Sys2Proof.Machine
end

