-- ==== Sys2Proof/Machine/Receiver.lean ====
section
/-! DEFINITION. The selective-repeat receiver window, spec/44_receiver.md, and the meanings of PLACE,
GEN_ACK and DELIVERY_SCAN. -/

namespace Sys2Proof.Machine
open Sys2Proof

/-- R313 `mkAck(p, n)`. -/
def mkAck (cfg : Config) (p n : Byte) : Frame := stampFCS cfg.crcInit (marshal cfg.selfId p 0 n 0x04 [])

/-- R312: an ack is due for a frame in the window or just behind it. -/
def ackDue (n base : Byte) : Bool := inWindow n base || justBehind n base

/-- R316: slide by a run of `k`. -/
def ReceiverWindow.slideBy (w : ReceiverWindow) (k : Nat) : ReceiverWindow where
  left    := advance w.left k
  buffer  := shifted w.buffer k Frame.zero
  present := shifted w.present k false

/-- R315: the frames of the run, in slot order. -/
def ReceiverWindow.deliverable (w : ReceiverWindow) : List Frame := w.buffer.toList.take w.run

/-- R315, R316 DELIVERY_SCAN: reassemble the run in order, then slide past it. -/
def deliveryScan (p : Byte) (s : State) : Run :=
  let w := s.receiver p
  (forEach (reassemble p) w.deliverable s).andThen fun s =>
    .ok (if 0 < w.run then s.setReceiver p (w.slideBy w.run) else s)

/-- R311: store a frame in slot `i`. -/
def ReceiverWindow.store (w : ReceiverWindow) (i : Fin 8) (f : Frame) : ReceiverWindow :=
  { w with buffer := w.buffer.set i.val f, present := w.present.set i.val true }

/-- R310 to R312 PLACE: the ack where it is due, then the window test, the duplicate test and the store. -/
def place (p : Byte) (f : Frame) (s : State) : Run :=
  let w := s.receiver p
  let s := if ackDue f.seq w.left then s.append [mkAck s.cfg p f.seq] else s
  match slotOf (slotIndex f.seq w.left) with
  | none => .ok (s.drop .dataOutOfWindow p f.seq)
  | some i =>
    if w.present[i] then .ok (s.drop .dataDuplicate p f.seq)
    else deliveryScan p (s.setReceiver p (w.store i f))

/-! ## Meanings -/

/-- PLACE (R310), inside `DRAIN`. DESIGN CHOICE, unsafe: fetched alone with a frame that is not a valid data
frame of `p` addressed to this entity, it runs as for one (notes/assumptions/30.md). -/
def execPlace (p : Byte) (f : Frame) (s : State) : Host.Outcome State Fault Refusal :=
  inPhase .drain s (withPeer p s ((place p f s).commit))

/-- GEN_ACK (R313), inside `DRAIN`: the ack frame "is appended to `batch` at once". It reads no
window. DESIGN CHOICE, safe: fetched alone for an id that is no other peer's, not below `PEER_COUNT`
(notes/assumptions/31.md) or `SELF_ID` (notes/assumptions/28.md), it appends an ack to that id. -/
def execGenAck (p n : Byte) (s : State) : Host.Outcome State Fault Refusal :=
  inPhase .drain s (.next (s.append [mkAck s.cfg p n]))

/-- DELIVERY_SCAN (R315), inside `DRAIN`. -/
def execDeliveryScan (p : Byte) (s : State) : Host.Outcome State Fault Refusal :=
  inPhase .drain s (withPeer p s ((deliveryScan p s).commit))

end Sys2Proof.Machine
end

