-- ==== Sys2Proof/Machine/Sender.lean ====
section
/-! DEFINITION. The selective-repeat sender window, spec/43_sender.md, and the meanings of ENQUEUE, ADMIT,
ON_ACK, SLIDE_TX and CHECK_TIMEOUTS. `T` is `t_now` (notes/assumptions/16.md). -/

namespace Sys2Proof.Machine
open Sys2Proof

/-! ## Enqueue and admission -/

/-- R261, R262. DESIGN CHOICE, unsafe: a frame that is not one from segmentation, such as one whose `seq` or
`fcs` is not 0 (R52), is held as given (notes/assumptions/30.md). -/
def enqueue (p : Byte) (f : Frame) (s : State) : Run :=
  let w := s.sender p
  if s.cfg.pendingDepth ≤ w.pending.length then .fatal .pendingOverflow s
  else .ok (s.setSender p { w with pending := w.pending ++ [f] })

/-- R263, R264: the frame `f` as it is admitted: its `seq` assigned and its fcs stamped. -/
def SenderWindow.stamped (init : BitVec 16) (w : SenderWindow) (f : Frame) : Frame :=
  stampFCS init (f.setSeq (seqAt w.left w.firstFree))

/-- What one call of `admit` does to a window, which frames it sends, and whether it stopped at
`T + RTO` overflowing. -/
structure Admission where
  window   : SenderWindow
  sent     : List Frame
  overflow : Bool
  deriving DecidableEq, Repr

/-- R263, the loop, over the frames still pending. `e` is `T + RTO`, `none` where that overflows (R367). -/
def admitLoop (init : BitVec 16) (e : Option Time) : List Frame → SenderWindow → Admission
  | [], w => ⟨w, [], false⟩
  | f :: rest, w =>
    if h : w.firstFree < 8 then
      let g := w.stamped init f
      let w' := { w with
        pending := rest
        buffer := w.buffer.set w.firstFree g h
        acked := w.acked.set w.firstFree false h }
      match e with
      | none => ⟨w', [], true⟩
      | some t =>
        let r := admitLoop init e rest
          { w' with expiry := w.expiry.set w.firstFree t h, firstFree := w.firstFree + 1 }
        { r with sent := g :: r.sent }
    else ⟨w, [], false⟩

/-- R263 ADMIT. -/
def admitPending (p : Byte) (s : State) : Run :=
  let w := s.sender p
  let a := admitLoop s.cfg.crcInit (addTime s.tNow s.cfg.rto) w.pending w
  let s' := (s.setSender p a.window).append a.sent
  if a.overflow then .fatal .timeOverflow s' else .ok s'

/-! ## The ack accumulator -/

/-- R268: slide by `k` slots. -/
def SenderWindow.slideBy (w : SenderWindow) (k : Nat) : SenderWindow :=
  { w with
    left := advance w.left k
    buffer := shifted w.buffer k Frame.zero
    acked := shifted w.acked k false
    expiry := shifted w.expiry k 0
    firstFree := w.firstFree - k }

/-- R267, R268: slide by the run of acked slots at the base; nothing where that is 0. -/
def SenderWindow.slide (w : SenderWindow) : SenderWindow :=
  if w.ackRun = 0 then w else w.slideBy w.ackRun

/-- R266: record an ack for slot `i`. -/
def SenderWindow.record (w : SenderWindow) (i : Fin 8) : SenderWindow :=
  { w with acked := w.acked.set i.val true }

/-- R265 to R268 ON_ACK. -/
def onAck (p a : Byte) (s : State) : Run :=
  let w := s.sender p
  match slotOf (slotIndex a w.left) with
  | none => .ok (s.drop .ackOutOfWindow p a)
  | some i => .ok (s.setSender p (w.record i).slide)

/-- R267, R268 SLIDE_TX (notes/assumptions/15.md). -/
def slideTx (p : Byte) (s : State) : Run := .ok (s.setSender p (s.sender p).slide)

/-! ## Timers -/

/-- R270: slot `i` is un-acked and its expiry has passed at `t`. -/
def SenderWindow.fires (w : SenderWindow) (t : Time) (i : Fin 8) : Bool :=
  w.armed i && decide (w.expiry[i] ≤ t)

/-- R270: the slots that fire, in increasing order. -/
def SenderWindow.firing (w : SenderWindow) (t : Time) : List (Fin 8) := (List.finRange 8).filter (w.fires t)

/-- R270: the frames to send again, the same bytes. -/
def SenderWindow.expired (w : SenderWindow) (t : Time) : List Frame := (w.firing t).map fun i => w.buffer[i]

/-- R270: the expiries after the check, `e` being `T + RTO`. -/
def SenderWindow.rearmed (w : SenderWindow) (t e : Time) : SenderWindow :=
  { w with expiry := Vector.ofFn fun i : Fin 8 => if w.fires t i then e else w.expiry[i] }

/-- R270 CHECK_TIMEOUTS. Where `T + RTO` overflows, the first slot that fires has had its frame appended
when the step stops (R367). -/
def checkTimeouts (p : Byte) (s : State) : Run :=
  let w := s.sender p
  match addTime s.tNow s.cfg.rto with
  | some e => .ok ((s.setSender p (w.rearmed s.tNow e)).append (w.expired s.tNow))
  | none =>
    match w.expired s.tNow with
    | [] => .ok s
    | f :: _ => .fatal .timeOverflow (s.append [f])

/-! ## Meanings -/

/-- ENQUEUE (R261), inside `DRAIN`. -/
def execEnqueue (p : Byte) (f : Frame) (s : State) : Host.Outcome State Fault Refusal :=
  inPhase .drain s (withPeer p s ((enqueue p f s).commit))

/-- ADMIT (R263), inside `DRAIN`. -/
def execAdmit (p : Byte) (s : State) : Host.Outcome State Fault Refusal :=
  inPhase .drain s (withPeer p s ((admitPending p s).commit))

/-- ON_ACK (R265 to R267), inside `DRAIN`. -/
def execOnAck (p a : Byte) (s : State) : Host.Outcome State Fault Refusal :=
  inPhase .drain s (withPeer p s ((onAck p a s).commit))

/-- SLIDE_TX (R268), inside `DRAIN`. -/
def execSlideTx (p : Byte) (s : State) : Host.Outcome State Fault Refusal :=
  inPhase .drain s (withPeer p s ((slideTx p s).commit))

/-- CHECK_TIMEOUTS (R270), inside `TIMEOUTS`. -/
def execCheckTimeouts (p : Byte) (s : State) : Host.Outcome State Fault Refusal :=
  inPhase .timeouts s (withPeer p s ((checkTimeouts p s).commit))

end Sys2Proof.Machine
end

