-- ==== Sys2Proof/Machine/Router.lean ====
section
/-! DEFINITION. The validator and inbound router and the command processor, spec/45_orchestration.md R356
to R358, and the meanings of the five frame kinds, ROUTE_FRAME and PROCESS_CMD. -/

namespace Sys2Proof.Machine
open Sys2Proof

/-- R356: the address tests on a valid frame, in order: `dst`, then `src` (R403, R404, R426). -/
def addressFault (cfg : Config) (f : Frame) : Option DropCode :=
  if f.dst ≠ cfg.selfId then some .misdirected
  else if cfg.peerCount ≤ f.src.toNat ∨ f.src = cfg.selfId then some .badSrc
  else none

/-- R356 for a valid data frame. -/
def acceptData (f : Frame) (s : State) : Run :=
  match addressFault s.cfg f with
  | some c => .ok (s.drop c f.src f.seq)
  | none => place f.src f s

/-- R356 for a valid ack frame. -/
def acceptAck (f : Frame) (s : State) : Run :=
  match addressFault s.cfg f with
  | some c => .ok (s.drop c f.src f.seq)
  | none => onAck f.src f.ack s

/-- R356 ROUTE_FRAME: the CRC test comes first. -/
def routeFrame (f : Frame) (s : State) : Run :=
  if isCorrupted s.cfg.crcInit f then .ok (s.drop .corrupt 0 0)
  else if f.kind then acceptAck f s
  else acceptData f s

/-- R358: a destination with no window, or the entity itself. -/
def badDst (cfg : Config) (dst : Byte) : Bool := cfg.peerCount ≤ dst.toNat || dst == cfg.selfId

/-- R357 PROCESS_CMD: `srcId` is not read. -/
def processCmd (c : Command) (s : State) : Run :=
  if badDst s.cfg c.dst then .ok (s.drop .cmdBadDst c.dst 0)
  else forEach (enqueue c.dst) (segment s.cfg c.dst c.text) s

/-! ## Meanings -/

/-- DATA_MIDDLE (R310 after R356), inside `DRAIN` (notes/assumptions/17.md). -/
def execDataMiddle (f : Frame) (s : State) : Host.Outcome State Fault Refusal :=
  inPhase .drain s ((acceptData f s).commit)

/-- DATA_HEAD (R310 after R356), inside `DRAIN`. -/
def execDataHead (f : Frame) (s : State) : Host.Outcome State Fault Refusal :=
  inPhase .drain s ((acceptData f s).commit)

/-- DATA_TAIL (R310 after R356), inside `DRAIN`. -/
def execDataTail (f : Frame) (s : State) : Host.Outcome State Fault Refusal :=
  inPhase .drain s ((acceptData f s).commit)

/-- DATA_UNSEG (R310 after R356), inside `DRAIN`. -/
def execDataUnseg (f : Frame) (s : State) : Host.Outcome State Fault Refusal :=
  inPhase .drain s ((acceptData f s).commit)

/-- ACK (R265 after R356), inside `DRAIN`. -/
def execAck (f : Frame) (s : State) : Host.Outcome State Fault Refusal :=
  inPhase .drain s ((acceptAck f s).commit)

/-- ROUTE_FRAME (R356), inside `DRAIN`. -/
def execRouteFrame (f : Frame) (s : State) : Host.Outcome State Fault Refusal :=
  inPhase .drain s ((routeFrame f s).commit)

/-- PROCESS_CMD (R357), inside `DRAIN`. DESIGN CHOICE, unsafe: fetched alone with a text longer than
`MAX_TEXT_LEN`, whose behaviour the spec does not define, it runs by the same rule
(notes/assumptions/27.md). -/
def execProcessCmd (c : Command) (s : State) : Host.Outcome State Fault Refusal :=
  inPhase .drain s ((processCmd c s).commit)

end Sys2Proof.Machine
end

