-- ==== Sys2Proof/Machine/Loop.lean ====
section
/-! DEFINITION. The timer arbiter and orchestration loop, spec/45_orchestration.md: the meanings of the
loop steps, of the pushes and of RESET, the worker's step, and the moves of the other agents. -/

namespace Sys2Proof.Machine
open Sys2Proof

/-! ## The worker's loop -/

/-- SAMPLE (R351): step 1. -/
def execSample (s : State) : Host.Outcome State Fault Refusal :=
  inPhase .sample s (.next ({ s with tNow := s.nowIn }.goto .arbitrate))

/-- R352: the expiries of the armed slots of a window. -/
def SenderWindow.deadlines (w : SenderWindow) : List Time :=
  ((List.finRange 8).filter w.armed).map fun i => w.expiry[i]

/-- R352: the expiries of all armed slots of all sender windows. -/
def State.deadlines (s : State) : List Time := s.snd.flatMap SenderWindow.deadlines

/-- R352: the least of some times; a tie has no effect (R353). -/
def earliest : List Time → Option Time
  | [] => none
  | t :: ts =>
    match earliest ts with
    | none => some t
    | some m => some (if t ≤ m then t else m)

/-- R352: the next wake deadline; `none` where `t_now + POLL_INTERVAL` overflows (R367). -/
def State.nextDeadline (s : State) : Option Time :=
  match earliest s.deadlines with
  | some t => some t
  | none => addTime s.tNow s.cfg.pollInterval

/-- R352. -/
def arbitrate (s : State) : Run :=
  match s.nextDeadline with
  | some t => .ok ({ s with deadline := t }.goto .wait)
  | none => .fatal .timeOverflow s

/-- ARBITRATE (R352): step 2. -/
def execArbitrate (s : State) : Host.Outcome State Fault Refusal :=
  inPhase .arbitrate s ((arbitrate s).commit)

/-- R354: the exit test, on the current `now_in`. -/
def State.mayLeaveWait (s : State) : Bool := !s.rxq.isEmpty || !s.cmdq.isEmpty || decide (s.deadline ≤ s.nowIn)

/-- WAIT (R354): step 3. While it is not enabled the worker holds. -/
def execWait (s : State) : Host.Outcome State Fault Refusal :=
  inPhase .wait s (.next (if s.mayLeaveWait then s.goto .drain else s))

/-- R355: `while rxq != []: routeFrame(pop(rxq))`. -/
def drainFrames : List Frame → State → Run
  | [], s => .ok s
  | f :: rest, s => (routeFrame f { s with rxq := rest }).andThen (drainFrames rest)

/-- R355: `while cmdq != []: processCmd(pop(cmdq))`. -/
def drainCmds : List Command → State → Run
  | [], s => .ok s
  | c :: rest, s => (processCmd c { s with cmdq := rest }).andThen (drainCmds rest)

/-- R355. -/
def drain (s : State) : Run :=
  (drainFrames s.rxq s).andThen fun s =>
  (drainCmds s.cmdq s).andThen fun s =>
  (forEach admitPending (peersOf s.cfg) s).andThen fun s =>
  .ok (s.goto .timeouts)

/-- DRAIN (R355): steps 4 and 5, one atomic step. -/
def execDrain (s : State) : Host.Outcome State Fault Refusal :=
  inPhase .drain s ((drain s).commit)

/-- R360. -/
def timeouts (s : State) : Run :=
  (forEach checkTimeouts (peersOf s.cfg) s).andThen fun s => .ok (s.goto .transmit)

/-- The TIMEOUTS loop step (R360): step 6. It has no row of its own in the opcode table
(notes/assumptions/24.md). -/
def timeoutsStep (s : State) : Host.Outcome State Fault Refusal :=
  inPhase .timeouts s ((timeouts s).commit)

/-- R361, R362: one offer accepted, or the worker holds, or the loop repeats. -/
def transmit (s : State) : State :=
  match s.batch with
  | [] => s.goto .sample
  | f :: rest => if s.txReady then { s with batch := rest, txlog := s.txlog ++ [f] } else s

/-- TRANSMIT (R361): step 7. -/
def execTransmit (s : State) : Host.Outcome State Fault Refusal :=
  inPhase .transmit s (.next (transmit s))

/-- R350: the worker's next step is the one of its phase; in `FATAL` there is none (R368). -/
def workerStep (s : State) : Host.Outcome State Fault Refusal :=
  match s.phase with
  | .sample => execSample s
  | .arbitrate => execArbitrate s
  | .wait => execWait s
  | .drain => execDrain s
  | .timeouts => timeoutsStep s
  | .transmit => execTransmit s
  | .fatal => .next s

/-! ## The pushes and RESET -/

/-- R363. A queue at its depth is full (notes/assumptions/21.md). -/
def rxPush (f : Frame) (s : State) : Run :=
  if s.cfg.rxqDepth ≤ s.rxq.length then .fatal .rxqOverflow s else .ok { s with rxq := s.rxq ++ [f] }

/-- R364. -/
def cmdPush (c : Command) (s : State) : Run :=
  if s.cfg.cmdqDepth ≤ s.cmdq.length then .fatal .cmdqOverflow s else .ok { s with cmdq := s.cmdq ++ [c] }

/-- RX_PUSH (R363): a step of the channel agent. -/
def execRxPush (f : Frame) (s : State) : Host.Outcome State Fault Refusal :=
  unlessFatal s ((rxPush f s).commit)

/-- CMD_PUSH (R364): a step of the command agent. A text longer than `MAX_TEXT_LEN` is refused
(notes/assumptions/12.md). -/
def execCmdPush (c : Command) (s : State) : Host.Outcome State Fault Refusal :=
  unlessFatal s (if s.cfg.maxTextLen < c.text.length then .refused .textTooLong else (cmdPush c s).commit)

/-- RESET (R450, R451): in any phase. -/
def execReset (s : State) : Host.Outcome State Fault Refusal := .next s.afterReset

/-! ## The other agents -/

/-- R136: the time source drives `now_in` to `t`; it must not go back (notes/assumptions/11.md). -/
def driveNow (t : Time) (s : State) : Host.Outcome State Fault Refusal :=
  if t < s.nowIn then .refused .timeBackwards else .next { s with nowIn := t }

/-- R134: the channel agent's readiness. -/
def driveTxReady (b : Bool) (s : State) : Host.Outcome State Fault Refusal := .next { s with txReady := b }

/-- R356 on a fetched frame that fails the CRC test; every other rejected fetch is refused by name. -/
def rejectFetch (r : Reject) (s : State) : Host.Outcome State Fault Refusal :=
  match r with
  | .corruptFrame => inPhase .drain s (.next (s.drop .corrupt 0 0))
  | r => .refused (.undecodable r)

/-- The phase in which an operation is enabled, `ph` where it is enabled in any (R350;
notes/assumptions/5.md). -/
def phaseFor (ph : Phase) : Instr → Phase
  | .dataMiddle _ | .dataHead _ | .dataTail _ | .dataUnseg _ | .ack _ => .drain
  | .rxPush _ | .cmdPush _ => ph
  | .sample => .sample
  | .arbitrate => .arbitrate
  | .wait => .wait
  | .drain => .drain
  | .routeFrame _ | .processCmd _ => .drain
  | .segment _ _ => ph
  | .enqueue _ _ | .admitFrames _ | .onAck _ _ | .slideTx _ => .drain
  | .checkTimeouts _ => .timeouts
  | .place _ _ | .genAck _ _ | .deliveryScan _ | .reassemble _ _ => .drain
  | .computeFcs _ | .isCorrupted _ => ph
  | .transmit => .transmit
  | .reset => ph
  | .slotIndex _ _ => ph

end Sys2Proof.Machine
end

