-- ==== Sys2Proof/Machine/Dispatch.lean ====
section
/-! DEFINITION. The dispatch: one arm per row of spec/opcode_table.json. -/

namespace Sys2Proof.Machine
open Sys2Proof

/-- One operation executed. -/
def exec (i : Instr) (s : State) : Host.Outcome State Fault Refusal :=
  match i with
  | .dataMiddle f => Sys2Proof.Machine.execDataMiddle f s
  | .dataHead f => Sys2Proof.Machine.execDataHead f s
  | .dataTail f => Sys2Proof.Machine.execDataTail f s
  | .dataUnseg f => Sys2Proof.Machine.execDataUnseg f s
  | .ack f => Sys2Proof.Machine.execAck f s
  | .rxPush f => Sys2Proof.Machine.execRxPush f s
  | .cmdPush c => Sys2Proof.Machine.execCmdPush c s
  | .sample => Sys2Proof.Machine.execSample s
  | .arbitrate => Sys2Proof.Machine.execArbitrate s
  | .wait => Sys2Proof.Machine.execWait s
  | .drain => Sys2Proof.Machine.execDrain s
  | .routeFrame f => Sys2Proof.Machine.execRouteFrame f s
  | .processCmd c => Sys2Proof.Machine.execProcessCmd c s
  | .segment dst text => Sys2Proof.Machine.execSegment dst text s
  | .enqueue p f => Sys2Proof.Machine.execEnqueue p f s
  | .admitFrames p => Sys2Proof.Machine.execAdmit p s
  | .onAck p a => Sys2Proof.Machine.execOnAck p a s
  | .slideTx p => Sys2Proof.Machine.execSlideTx p s
  | .checkTimeouts p => Sys2Proof.Machine.execCheckTimeouts p s
  | .place p f => Sys2Proof.Machine.execPlace p f s
  | .genAck p n => Sys2Proof.Machine.execGenAck p n s
  | .deliveryScan p => Sys2Proof.Machine.execDeliveryScan p s
  | .reassemble p f => Sys2Proof.Machine.execReassemble p f s
  | .computeFcs f => Sys2Proof.Machine.execComputeFcs f s
  | .isCorrupted f => Sys2Proof.Machine.execIsCorrupted f s
  | .transmit => Sys2Proof.Machine.execTransmit s
  | .reset => Sys2Proof.Machine.execReset s
  | .slotIndex n base => Sys2Proof.Machine.execSlotIndex n base s

end Sys2Proof.Machine
end

