-- ==== Sys2Proof/Machine/Step.lean ====
section
/-! DEFINITION. One step of the machine: the event at the head of the agenda, or the worker's next step
where the agenda is empty (notes/assumptions/2.md). -/

namespace Sys2Proof.Machine
open Sys2Proof

/-- One step. DESIGN CHOICE, safe: the bytes of a fetch that stand after the 64th of a frame (R130), or after an
operation's operands, are discarded, and what stands before them is executed or rejected as without them
(notes/assumptions/32.md). -/
def step (s : State) : Host.Outcome State Fault Refusal :=
  match s.agenda with
  | [] => workerStep s
  | .worker :: rest => workerStep { s with agenda := rest }
  | .now t :: rest => driveNow t { s with agenda := rest }
  | .txReady b :: rest => driveTxReady b { s with agenda := rest }
  | .fetch fmt bytes :: rest =>
    match decode s.cfg.crcInit fmt bytes with
    | .instr i _ => exec i { s with agenda := rest }
    | .reject r => rejectFetch r { s with agenda := rest }

/-- `s` with the operation of a word of spec/opcode_table.json next to be fetched, in the phase in which
it is enabled (notes/assumptions/18.md). -/
def State.withFetchWord (s : State) (nbits w : Nat) : State :=
  { s with
    agenda := .fetch (tableFormat nbits w) (tableBytes s.cfg.crcInit nbits w) :: s.agenda
    phase :=
      match decode s.cfg.crcInit (tableFormat nbits w) (tableBytes s.cfg.crcInit nbits w) with
      | .instr i _ => phaseFor s.phase i
      | .reject _ => s.phase }

end Sys2Proof.Machine
end

