-- ==== Sys2Proof/Safety.lean ====
section
/-! DEFINITION. What claims are stated in: a live entity, the window invariants of spec/10_state.md R64
and R65, the bounds of the stores, an agenda of port events only, and the end of a run. -/

namespace Sys2Proof.Machine
open Sys2Proof

/-- R423: "every claim takes `phase != FATAL` (no fault recorded) as a premise". -/
abbrev State.Live (s : State) : Prop := s.phase ≠ .fatal

/-- R63: one window of each kind for every peer below `PEER_COUNT`. -/
abbrev State.Sized (s : State) : Prop :=
  s.snd.length = s.cfg.peerCount ∧ s.rcv.length = s.cfg.peerCount ∧ s.asm.length = s.cfg.peerCount

/-- R64: `0 <= firstFree <= W`; each buffered frame has the sequence number of its slot and a valid fcs;
slot 0 is not acked while it is in use; and R52, the bound of `pending`. -/
abbrev SenderWindow.Inv (cfg : Config) (w : SenderWindow) : Prop :=
  w.firstFree ≤ 8 ∧
  (∀ i : Fin 8, i.val < w.firstFree →
    w.buffer[i].seq = seqAt w.left i.val ∧ isCorrupted cfg.crcInit w.buffer[i] = false) ∧
  (w.firstFree = 0 ∨ w.acked[0] = false) ∧
  w.pending.length ≤ cfg.pendingDepth

/-- R65: slot 0 is empty, and each frame held has the sequence number of its slot (R314). -/
abbrev ReceiverWindow.Inv (w : ReceiverWindow) : Prop :=
  w.present[0] = false ∧
  ∀ i : Fin 8, w.present[i] = true → w.buffer[i].seq = seqAt w.left i.val

/-- R56: the bound of `acc`, and nothing accumulated while no message is in progress. -/
abbrev Reassembler.Inv (cfg : Config) (a : Reassembler) : Prop :=
  a.acc.length ≤ cfg.maxMsgLen ∧ (a.active = false → a.acc = [])

/-- The invariant of the machine: the configuration is one of R6 and the windows exist (R63); `fatal_code` is 0 exactly outside `FATAL`
(R45); and while the entity is live, R64, R65, R52, R56 hold of every window and R57, R58 of the queues. -/
abbrev State.Inv (s : State) : Prop :=
  s.cfg.Valid ∧
  s.Sized ∧
  (s.fatalCode = .none ↔ s.Live) ∧
  (s.Live →
    (∀ w ∈ s.snd, w.Inv s.cfg) ∧
    (∀ w ∈ s.rcv, w.Inv) ∧
    (∀ a ∈ s.asm, a.Inv s.cfg) ∧
    s.rxq.length ≤ s.cfg.rxqDepth ∧
    s.cmdq.length ≤ s.cfg.cmdqDepth ∧
    ∀ c ∈ s.cmdq, c.text.length ≤ s.cfg.maxTextLen)

/-- R267: `k` is "the largest k in [0, S[p].firstFree] with acked[j] == true for all j < k". -/
abbrev SenderWindow.IsAckRun (w : SenderWindow) (k : Nat) : Prop :=
  k ≤ w.firstFree ∧ k ≤ 8 ∧ (∀ i : Fin 8, i.val < k → w.acked[i] = true) ∧
  (∀ i : Fin 8, i.val = k → k < w.firstFree → w.acked[i] = false)

/-- R268: `v` is `w` slid by `k`: the base advanced, every array shifted down by `k` with the vacated
slots cleared, `firstFree` lowered by `k`, `pending` as it was. -/
abbrev SenderWindow.SlidBy (w v : SenderWindow) (k : Nat) : Prop :=
  v.left = w.left + BitVec.ofNat 8 k ∧ v.firstFree = w.firstFree - k ∧ v.pending = w.pending ∧
  (∀ j : Fin 8, ∀ h : j.val + k < 8,
    v.buffer[j] = w.buffer[j.val + k] ∧ v.acked[j] = w.acked[j.val + k] ∧ v.expiry[j] = w.expiry[j.val + k]) ∧
  (∀ j : Fin 8, 8 ≤ j.val + k → v.buffer[j] = Frame.zero ∧ v.acked[j] = false ∧ v.expiry[j] = 0)

/-- R315: `k` is the length of the run of present slots at the base. -/
abbrev ReceiverWindow.IsRun (w : ReceiverWindow) (k : Nat) : Prop :=
  k ≤ 8 ∧ (∀ i : Fin 8, i.val < k → w.present[i] = true) ∧ (∀ i : Fin 8, i.val = k → w.present[i] = false)

/-- R316: `v` is `w` slid by `k`. -/
abbrev ReceiverWindow.SlidBy (w v : ReceiverWindow) (k : Nat) : Prop :=
  v.left = w.left + BitVec.ofNat 8 k ∧
  (∀ j : Fin 8, ∀ h : j.val + k < 8,
    v.buffer[j] = w.buffer[j.val + k] ∧ v.present[j] = w.present[j.val + k]) ∧
  (∀ j : Fin 8, 8 ≤ j.val + k → v.buffer[j] = Frame.zero ∧ v.present[j] = false)

/-- The operations the hardware performs only as part of a `DRAIN` or `TIMEOUTS` step and that write
state of the block (R140, R355, R360). The model can also fetch them alone (notes/assumptions/5.md). -/
def isInternal : Instr → Bool
  | .dataMiddle _ | .dataHead _ | .dataTail _ | .dataUnseg _ | .ack _ => true
  | .rxPush _ | .cmdPush _ | .sample | .arbitrate | .wait | .drain => false
  | .routeFrame _ | .processCmd _ => true
  | .segment _ _ => false
  | .enqueue _ _ | .admitFrames _ | .onAck _ _ | .slideTx _ | .checkTimeouts _ => true
  | .place _ _ | .genAck _ _ | .deliveryScan _ | .reassemble _ _ => true
  | .computeFcs _ | .isCorrupted _ | .transmit | .reset | .slotIndex _ _ => false

/-- The event is a move of an agent of R40, or a fetch of an operation that is not internal. -/
def isPortEvent (init : BitVec 16) : Event → Bool
  | .worker => true
  | .now _ => true
  | .txReady _ => true
  | .fetch fmt bytes =>
    match decode init fmt bytes with
    | .instr i _ => !isInternal i
    | .reject _ => false

/-- Nothing but port events is to come: the runs the hardware has (R40, R350). -/
abbrev State.PortDriven (s : State) : Prop :=
  ∀ e ∈ s.agenda, isPortEvent s.cfg.crcInit e = true

/-- How many frames `batch` may hold in a phase (R8): none before `DRAIN`, then one ack per inbound frame
and `W` admitted frames per peer, then `W` retransmitted frames per peer more. -/
def batchLimit (cfg : Config) : Phase → Nat
  | .sample | .arbitrate | .wait | .drain => 0
  | .timeouts => cfg.rxqDepth + windowSize * cfg.peerCount
  | .transmit | .fatal => cfg.batchDepth

/-- Operations executed in order, for as long as each answers a next state. -/
def execAll : List Instr → State → Host.Outcome State Fault Refusal
  | [], s => .next s
  | i :: is, s =>
    match exec i s with
    | .next t => execAll is t
    | stop => stop

/-- R365 (1): the acks for frames routed in order from `s`: one for each valid data frame of another peer
with a window, addressed to this entity (R356), whose number is in the window or just behind it at the
moment the frame is routed (R312). -/
def acksDue : List Frame → State → List Frame
  | [], _ => []
  | f :: fs, s =>
    let due := !isCorrupted s.cfg.crcInit f && !f.kind && f.dst == s.cfg.selfId &&
      decide (f.src.toNat < s.cfg.peerCount) && f.src != s.cfg.selfId && ackDue f.seq (s.receiver f.src).left
    let later := match exec (.routeFrame f) s with
      | .next t => acksDue fs t
      | _ => []
    if due then mkAck s.cfg f.src f.seq :: later else later

/-- R365 (2): the frames ADMIT takes from a window: the head of `pending`, as many as there are free
slots, in order, each stamped with the sequence number of the slot it goes to (R263). -/
def SenderWindow.admitted (init : BitVec 16) (w : SenderWindow) : List Frame :=
  (w.pending.take (8 - w.firstFree)).mapIdx fun j f =>
    stampFCS init (f.set 2 (w.left + BitVec.ofNat 8 (w.firstFree + j)))

/-- R461: "the worker holds in `WAIT` with both queues empty, `batch` empty and no armed slot". -/
abbrev State.Quiescent (s : State) : Prop :=
  s.phase = .wait ∧ s.rxq = [] ∧ s.cmdq = [] ∧ s.batch = [] ∧
  (∀ w ∈ s.snd, ∀ i : Fin 8, w.armed i = false) ∧ s.nowIn < s.deadline

end Sys2Proof.Machine
end

