-- ==== Sys2Proof/Certificates/Slice0/Obligations.lean ====
section
/-! DEFINITION. The statements for the provers. Each docstring names the rule of spec/ it formalises. A
statement about an operation the hardware performs only inside a step holds of that operation fetched alone
with any operand its hypotheses allow; for operands no step of the hardware gives it, that is the model's
choice (notes/assumptions/28.md, 30.md, 31.md). -/

open Sys2Proof Sys2Proof.Machine

/-! ## Encodings -/

/-- R128, R140: words written out from the spec decode to the operation they stand for: the codes of
R140, the data frame FCS-1 and the ack frame FCS-2 of spec/95_test_vectors.md; unused codes are refused. -/
def Obligations.SpecWordsDecode : Prop :=
  decode 0xFFFF .op [0x0C, 0x01, 0x05] = .instr (.onAck 1 5) [] ∧
  decode 0xFFFF .op [0x17, 0x02, 0xFE] = .instr (.slotIndex 2 254) [] ∧
  decode 0xFFFF .op [0x05] = .instr .wait [] ∧
  decode 0xFFFF .op [0x16] = .instr .reset [] ∧
  decode 0xFFFF .op [0x00] = .reject (.unusedCode 0x00) ∧
  decode 0xFFFF .op [0x18] = .reject (.unusedCode 0x18) ∧
  (∃ f : Frame, f.toList = [0x00, 0x01, 0x00, 0x00, 0x03, 0x68, 0x69] ++ List.replicate 55 0 ++ [0x40, 0x8F] ∧
    decode 0xFFFF .frame f.toList = .instr (.dataUnseg f) []) ∧
  (∃ f : Frame, f.toList = [0x01, 0x00, 0x00, 0x00, 0x04] ++ List.replicate 57 0 ++ [0xCF, 0x1D] ∧
    decode 0xFFFF .frame f.toList = .instr (.ack f) [])

/-- Decoding the encoding of a well-formed instruction gives it back, with every operand at every value
and whatever bytes follow. The operand layout of the operations is the model's own
(notes/assumptions/3.md). -/
def Obligations.EncodeThenDecode : Prop :=
  ∀ (init : BitVec 16) (i : Instr) (rest : List Byte), i.wellFormed init = true →
    decode init i.format (encode i ++ rest) = .instr i rest

/-- What decodes is the encoding of a well-formed instruction of the format asked for, followed by the
bytes left over: no two byte strings stand for one instruction. -/
def Obligations.DecodeThenEncode : Prop :=
  ∀ (init : BitVec 16) (fmt : Format) (bs rest : List Byte) (i : Instr),
    decode init fmt bs = .instr i rest →
    i.wellFormed init = true ∧ i.format = fmt ∧ bs = encode i ++ rest

/-- R128: a frame is CORRUPT, or an ACK, or DATA of the role of `flag[1:0]`, by `flag[2:0]` alone. -/
def Obligations.FrameKindByFlagBits : Prop :=
  ∀ (init : BitVec 16) (f : Frame) (rest : List Byte),
    (crc16 init f.toList ≠ 0 → decodeFrame init f rest = .reject .corruptFrame) ∧
    (crc16 init f.toList = 0 →
      (f[4] &&& 7#8 = 0 → decodeFrame init f rest = .instr (.dataMiddle f) rest) ∧
      (f[4] &&& 7#8 = 1 → decodeFrame init f rest = .instr (.dataHead f) rest) ∧
      (f[4] &&& 7#8 = 2 → decodeFrame init f rest = .instr (.dataTail f) rest) ∧
      (f[4] &&& 7#8 = 3 → decodeFrame init f rest = .instr (.dataUnseg f) rest) ∧
      (f[4] &&& 4#8 = 4 → decodeFrame init f rest = .instr (.ack f) rest))

/-! ## CRC and codec -/

/-- R185: "For every 64-byte `f`, `isCorrupted(stampFCS(f)) == false`", for every `CRC_INIT`. -/
def Obligations.StampedFramesAreValid : Prop :=
  ∀ (init : BitVec 16) (f : Frame), isCorrupted init (stampFCS init f) = false

/-- R186: a stamped frame with any single one of its 512 bits flipped is corrupted. -/
def Obligations.SingleBitErrorsAreDetected : Prop :=
  ∀ (init : BitVec 16) (f : Frame) (k : Fin 64) (j : Fin 8),
    let g := stampFCS init f
    isCorrupted init (g.set k.val (g[k] ^^^ (1#8 <<< j.val))) = true

/-- R190: the table holds the CRC, with register start 0, of each single byte, its two named entries are
as given, and the table-driven CRC gives the same value as the bit-serial one. -/
def Obligations.TableDrivenCrcAgrees : Prop :=
  (∀ b : Byte, crcTable b = crc16 0 [b]) ∧ crcTable 0x01 = 0x1021 ∧ crcTable 0x80 = 0x9188 ∧
  ∀ (init : BitVec 16) (s : List Byte), crc16ByTable init s = crc16 init s

/-- R189: the all-zero frame under both start values, and what it decodes to where it is valid; and the
check values and corner case of spec/41_codec.md section 1. -/
def Obligations.CrcKnownValues : Prop :=
  isCorrupted 0xFFFF Frame.zero = true ∧ isCorrupted 0x0000 Frame.zero = false ∧
  decode 0x0000 .frame (List.replicate 64 0) = .instr (.dataMiddle Frame.zero) [] ∧
  Frame.zero.src = 0 ∧ Frame.zero.dst = 0 ∧ Frame.zero.seq = 0 ∧
  crc16 0xFFFF [0x31, 0x32, 0x33, 0x34, 0x35, 0x36, 0x37, 0x38, 0x39] = 0x29B1 ∧
  crc16 0x0000 [0x31, 0x32, 0x33, 0x34, 0x35, 0x36, 0x37, 0x38, 0x39] = 0x31C3 ∧
  crc16 0xFFFF [0x00] = 0xE1F0 ∧ ∀ init, crc16 init [] = init

/-- R187: the fields of a marshalled frame, its payload the chunk and zero bytes, its fcs bytes 0. -/
def Obligations.MarshalledFields : Prop :=
  ∀ (src dst seq ack flag : Byte) (ch : List Byte), ch.length ≤ 57 →
    let f := marshal src dst seq ack flag ch
    f.src = src ∧ f.dst = dst ∧ f.seq = seq ∧ f.ack = ack ∧ f.flag = flag ∧
    f.payload = ch ++ List.replicate (57 - ch.length) 0 ∧ f.fcs = 0

/-- R182, R184: COMPUTE_FCS answers the CRC of bytes 0..61 and IS_CORRUPTED whether the CRC of all 64
bytes is non-zero; neither writes anything of the block (the answer is held in the model's own `ret`). -/
def Obligations.CodecOperationsAnswer : Prop :=
  ∀ (f : Frame) (s : State), s.Live →
    exec (.computeFcs f) s = .next { s with ret := .fcs (crc16 s.cfg.crcInit (f.toList.take 62)) } ∧
    exec (.isCorrupted f) s = .next { s with ret := .corrupted (decide (crc16 s.cfg.crcInit f.toList ≠ 0)) }

/-! ## Sequence space -/

/-- R160: SLOT_INDEX answers `(n - base + 256) mod 256` and writes nothing of the block. -/
def Obligations.SlotIndexAnswers : Prop :=
  ∀ (n base : Byte) (s : State), s.Live →
    ∃ idx : Byte, idx.toNat = (n.toNat + 256 - base.toNat) % 256 ∧
      exec (.slotIndex n base) s = .next { s with ret := .slot idx }

/-- R161 to R164: the window test, the number of a slot and its round trip, the base advanced, and that
"just behind" excludes "in the window". -/
def Obligations.SequenceSpaceLaws : Prop :=
  ∀ (n base : Byte) (i : Nat),
    (inWindow n base = true ↔ (slotIndex n base).toNat < 8) ∧
    (justBehind n base = true ↔ 248 ≤ (slotIndex n base).toNat) ∧
    ¬ (inWindow n base = true ∧ justBehind n base = true) ∧
    (seqAt base i).toNat = (base.toNat + i) % 256 ∧
    (advance base i).toNat = (base.toNat + i) % 256 ∧
    seqAt base (slotIndex n base).toNat = n ∧
    (i < 256 → (slotIndex (seqAt base i) base).toNat = i)

/-! ## Segmentation and reassembly -/

/-- R220 to R224: SEGMENT answers `k = ceil((|text| + 1) / 57)` frames, the `j`-th with chunk `j` of
`text ++ [0]` and its role, and writes nothing of the block. That it does so for a text longer than
`MAX_TEXT_LEN` (notes/assumptions/27.md) and for a destination that is no other peer's
(notes/assumptions/31.md) is the model's choice. -/
def Obligations.SegmentAnswersFrames : Prop :=
  ∀ (dst : Byte) (text : List Byte) (s : State), s.Live →
    ∃ fs : List Frame, exec (.segment dst text) s = .next { s with ret := .frames fs } ∧
      1 ≤ fs.length ∧ 57 * (fs.length - 1) < text.length + 1 ∧ text.length + 1 ≤ 57 * fs.length ∧
      ∀ j, (hj : j < fs.length) →
        fs[j].src = s.cfg.selfId ∧ fs[j].dst = dst ∧ fs[j].seq = 0 ∧ fs[j].ack = 0 ∧ fs[j].fcs = 0 ∧
        fs[j].kind = false ∧ fs[j].rsv = 0 ∧
        fs[j].role = (if fs.length = 1 then .unsegmented else if j = 0 then .head
          else if j = fs.length - 1 then .tail else .middle) ∧
        fs[j].payload = (((text ++ [0]).drop (57 * j)).take 57) ++
          List.replicate (57 - (((text ++ [0]).drop (57 * j)).take 57).length) 0

/-- R231: reassembling the frames of a text without NUL delivers exactly the text and its NUL, leaves no
message in progress, abandons one that was with one report (R226, R227), and changes nothing else. -/
def Obligations.SegmentationRoundTrip : Prop :=
  ∀ (cfg : Config) (dst p : Byte) (text : List Byte) (s : State),
    (0 : Byte) ∉ text → text.length + 1 ≤ s.cfg.maxMsgLen → p.toNat < s.asm.length →
    ((s.reasm p).active = false → (s.reasm p).acc = []) →
    forEach (reassemble p) (segment cfg dst text) s = .ok { s with
      asm := s.asm.set p.toNat ⟨false, []⟩
      trlog := if (s.reasm p).active then s.trlog ++ [⟨.reasmOrphan, p, 0⟩] else s.trlog
      dlog := s.dlog ++ [⟨p, text ++ [0]⟩] }

/-- R226, R227: REASSEMBLE of an UNSEGMENTED frame delivers it, of a HEAD frame starts a message; either
abandons a message in progress with one report. -/
def Obligations.ReassembleUnsegmentedOrHead : Prop :=
  ∀ (p : Byte) (f : Frame) (s : State), s.phase = .drain → p.toNat < s.cfg.peerCount →
    (f.role = .unsegmented →
      exec (.reassemble p f) s = .next { s with
        asm := if (s.reasm p).active then s.asm.set p.toNat ⟨false, []⟩ else s.asm
        trlog := if (s.reasm p).active then s.trlog ++ [⟨.reasmOrphan, p, f.seq⟩] else s.trlog
        dlog := s.dlog ++ [⟨p, tailPart f.payload⟩] }) ∧
    (f.role = .head →
      exec (.reassemble p f) s = .next { s with
        asm := s.asm.set p.toNat ⟨true, f.payload⟩
        trlog := if (s.reasm p).active then s.trlog ++ [⟨.reasmOrphan, p, f.seq⟩] else s.trlog })

/-- R228, R229: REASSEMBLE of a MIDDLE frame adds its 57 bytes, of a TAIL frame delivers the message;
without a message in progress either is dropped; past `MAX_MSG_LEN` either raises REASM_OVERFLOW
and the logs stay (R420). -/
def Obligations.ReassembleMiddleOrTail : Prop :=
  ∀ (p : Byte) (f : Frame) (s : State), s.phase = .drain → p.toNat < s.cfg.peerCount →
    (f.role = .middle ∨ f.role = .tail) →
    ((s.reasm p).active = false →
      exec (.reassemble p f) s = .next { s with trlog := s.trlog ++ [⟨.reasmOrphan, p, f.seq⟩] }) ∧
    ((s.reasm p).active = true → f.role = .middle → (s.reasm p).acc.length + 57 ≤ s.cfg.maxMsgLen →
      exec (.reassemble p f) s =
        .next { s with asm := s.asm.set p.toNat ⟨true, (s.reasm p).acc ++ f.payload⟩ }) ∧
    ((s.reasm p).active = true → f.role = .tail →
      (s.reasm p).acc.length + (tailPart f.payload).length ≤ s.cfg.maxMsgLen →
      exec (.reassemble p f) s = .next { s with
        asm := s.asm.set p.toNat ⟨false, []⟩
        dlog := s.dlog ++ [⟨p, (s.reasm p).acc ++ tailPart f.payload⟩] }) ∧
    ((s.reasm p).active = true →
      s.cfg.maxMsgLen < (s.reasm p).acc.length +
        (if f.role = .middle then 57 else (tailPart f.payload).length) →
      ∃ t : State, exec (.reassemble p f) s = .next t ∧ t.phase = .fatal ∧ t.fatalCode = .reasmOverflow ∧
        t.txlog = s.txlog ∧ t.dlog = s.dlog ∧ t.trlog = s.trlog)

/-- R230: up to and including the first NUL, or all of it where there is none. -/
def Obligations.TailPartEndsAtFirstNul : Prop :=
  ∀ pl : List Byte, ((0 : Byte) ∉ pl → tailPart pl = pl) ∧
    ∀ a b : List Byte, pl = a ++ 0 :: b → (0 : Byte) ∉ a → tailPart pl = a ++ [0]

/-! ## Sender window -/

/-- R261, R262: ENQUEUE appends to `pending`, or raises PENDING_OVERFLOW where it is full, and the
logs stay (R420). That a frame not made by segmentation is appended as given is the model's choice
(notes/assumptions/30.md). -/
def Obligations.EnqueueAppendsOrOverflows : Prop :=
  ∀ (p : Byte) (f : Frame) (s : State), s.phase = .drain → p.toNat < s.cfg.peerCount →
    ((s.sender p).pending.length < s.cfg.pendingDepth →
      exec (.enqueue p f) s = .next { s with
        snd := s.snd.set p.toNat { s.sender p with pending := (s.sender p).pending ++ [f] } }) ∧
    ((s.sender p).pending.length = s.cfg.pendingDepth →
      ∃ t : State, exec (.enqueue p f) s = .next t ∧ t.phase = .fatal ∧ t.fatalCode = .pendingOverflow ∧
        t.txlog = s.txlog ∧ t.dlog = s.dlog ∧ t.trlog = s.trlog)

/-- R263, R264, R274: ADMIT moves `n = min (8 - firstFree) |pending|` frames, in order, each stamped with
the sequence number of its slot, into the free slots and the batch; the slot is un-acked and its expiry
is `t_now + RTO`; every other slot and everything else stays. -/
def Obligations.AdmitFillsFreeSlots : Prop :=
  ∀ (p : Byte) (s : State), s.phase = .drain → p.toNat < s.cfg.peerCount →
    (s.sender p).firstFree ≤ 8 → s.tNow.toNat + s.cfg.rto < 2 ^ 64 →
    let w := s.sender p
    let n := min (8 - w.firstFree) w.pending.length
    ∃ (v : SenderWindow) (sent : List Frame),
      exec (.admitFrames p) s = .next { s with snd := s.snd.set p.toNat v, batch := s.batch ++ sent } ∧
      v.left = w.left ∧ v.firstFree = w.firstFree + n ∧ v.pending = w.pending.drop n ∧ sent.length = n ∧
      (∀ i : Fin 8, i.val < w.firstFree ∨ w.firstFree + n ≤ i.val →
        v.buffer[i] = w.buffer[i] ∧ v.acked[i] = w.acked[i] ∧ v.expiry[i] = w.expiry[i]) ∧
      (∀ i : Fin 8, ∀ (h1 : w.firstFree ≤ i.val) (h2 : i.val - w.firstFree < sent.length)
        (h3 : i.val - w.firstFree < w.pending.length),
        sent[i.val - w.firstFree] = v.buffer[i] ∧
        v.buffer[i] =
          stampFCS s.cfg.crcInit (w.pending[i.val - w.firstFree].set 2 (w.left + BitVec.ofNat 8 i.val)) ∧
        v.acked[i] = false ∧ v.expiry[i].toNat = s.tNow.toNat + s.cfg.rto)

/-- R265: an ack outside the window is dropped with one report and no other effect. -/
def Obligations.OnAckOutsideWindowIsDropped : Prop :=
  ∀ (p a : Byte) (s : State), s.phase = .drain → p.toNat < s.cfg.peerCount →
    8 ≤ (a.toNat + 256 - (s.sender p).left.toNat) % 256 →
    exec (.onAck p a) s = .next { s with trlog := s.trlog ++ [⟨.ackOutOfWindow, p, a⟩] }

/-- R266 to R268: an ack in the window is recorded, and the window slides by the run of acked slots at its
base; only `S[p]` changes. -/
def Obligations.OnAckRecordsAndSlides : Prop :=
  ∀ (p a : Byte) (i : Fin 8) (s : State), s.phase = .drain → p.toNat < s.cfg.peerCount →
    (a.toNat + 256 - (s.sender p).left.toNat) % 256 = i.val →
    ∃ (k : Nat) (v : SenderWindow),
      exec (.onAck p a) s = .next { s with snd := s.snd.set p.toNat v } ∧
      { s.sender p with acked := (s.sender p).acked.set i.val true }.IsAckRun k ∧
      { s.sender p with acked := (s.sender p).acked.set i.val true }.SlidBy v k

/-- R267, R268: SLIDE_TX slides `S[p]` by the run of acked slots at its base (that the operation takes the
run of R267 is notes/assumptions/15.md). -/
def Obligations.SlideTxSlidesByAckRun : Prop :=
  ∀ (p : Byte) (s : State), s.phase = .drain → p.toNat < s.cfg.peerCount →
    ∃ (k : Nat) (v : SenderWindow),
      exec (.slideTx p) s = .next { s with snd := s.snd.set p.toNat v } ∧
      (s.sender p).IsAckRun k ∧ (s.sender p).SlidBy v k

/-- R269: a second ON_ACK with the same number slides nothing further and raises nothing: at most one more
report. -/
def Obligations.OnAckIsIdempotent : Prop :=
  ∀ (p a : Byte) (s : State), s.phase = .drain → p.toNat < s.cfg.peerCount → s.Sized →
    ∃ s1 s2 : State, exec (.onAck p a) s = .next s1 ∧ exec (.onAck p a) s1 = .next s2 ∧
      s2 = { s1 with trlog := s2.trlog }

/-- R273: an ack for a slot of the window that holds no frame sets its bit, slides nothing, and arms or
disarms no slot. -/
def Obligations.AckBeyondFirstFreeIsInvisible : Prop :=
  ∀ (p a : Byte) (i : Fin 8) (s : State), s.phase = .drain → p.toNat < s.cfg.peerCount →
    (a.toNat + 256 - (s.sender p).left.toNat) % 256 = i.val → (s.sender p).firstFree ≤ i.val →
    ((s.sender p).firstFree = 0 ∨ (s.sender p).acked[0] = false) →
    exec (.onAck p a) s = .next { s with
      snd := s.snd.set p.toNat { s.sender p with acked := (s.sender p).acked.set i.val true } } ∧
    ∀ j : Fin 8, { s.sender p with acked := (s.sender p).acked.set i.val true }.armed j = (s.sender p).armed j

/-- R270: CHECK_TIMEOUTS appends, in slot order, the frame of every slot below `firstFree` that is
un-acked with `expiry <= t_now`, the same 64 bytes, and sets its expiry to `t_now + RTO`; every other slot
and everything else stays. -/
def Obligations.CheckTimeoutsSendsExpiredSlots : Prop :=
  ∀ (p : Byte) (s : State), s.phase = .timeouts → p.toNat < s.cfg.peerCount →
    s.tNow.toNat + s.cfg.rto < 2 ^ 64 →
    let w := s.sender p
    let due : Fin 8 → Bool := fun i =>
      decide (i.val < w.firstFree ∧ w.acked[i] = false ∧ w.expiry[i].toNat ≤ s.tNow.toNat)
    ∃ e : Vector Time 8,
      exec (.checkTimeouts p) s = .next { s with
        snd := s.snd.set p.toNat { w with expiry := e }
        batch := s.batch ++ ((List.finRange 8).filter due).map fun i => w.buffer[i] } ∧
      ∀ i : Fin 8, (due i = true → e[i].toNat = s.tNow.toNat + s.cfg.rto) ∧
        (due i = false → e[i] = w.expiry[i])

/-- R272: a slot that fires is sent exactly once by the call, with a strictly greater expiry. -/
def Obligations.RetransmissionRenewsExpiry : Prop :=
  ∀ (p : Byte) (i : Fin 8) (s : State), s.phase = .timeouts → p.toNat < s.cfg.peerCount → s.Sized →
    1 ≤ s.cfg.rto → s.tNow.toNat + s.cfg.rto < 2 ^ 64 →
    (s.sender p).armed i = true → (s.sender p).expiry[i].toNat ≤ s.tNow.toNat →
    ((s.sender p).firing s.tNow).count i = 1 ∧
    ∃ t : State, exec (.checkTimeouts p) s = .next t ∧ (s.sender p).buffer[i] ∈ t.batch ∧
      t.batch.length = s.batch.length + ((s.sender p).firing s.tNow).length ∧
      (s.sender p).expiry[i].toNat < ((t.sender p).expiry[i]).toNat

/-- R367: a sum `t_now + RTO` or `t_now + POLL_INTERVAL` of `2^64` or more raises TIME_OVERFLOW in ADMIT,
CHECK_TIMEOUTS and ARBITRATE; the logs stay (R420). -/
def Obligations.TimeOverflowIsFatal : Prop :=
  ∀ (p : Byte) (s : State), p.toNat < s.cfg.peerCount →
    (s.phase = .drain → 2 ^ 64 ≤ s.tNow.toNat + s.cfg.rto → (s.sender p).firstFree < 8 →
      (s.sender p).pending ≠ [] →
      ∃ t : State, exec (.admitFrames p) s = .next t ∧ t.phase = .fatal ∧ t.fatalCode = .timeOverflow ∧
        t.txlog = s.txlog ∧ t.dlog = s.dlog ∧ t.trlog = s.trlog) ∧
    (s.phase = .timeouts → 2 ^ 64 ≤ s.tNow.toNat + s.cfg.rto →
      (∃ i : Fin 8, (s.sender p).armed i = true ∧ (s.sender p).expiry[i].toNat ≤ s.tNow.toNat) →
      ∃ t : State, exec (.checkTimeouts p) s = .next t ∧ t.phase = .fatal ∧ t.fatalCode = .timeOverflow ∧
        t.txlog = s.txlog ∧ t.dlog = s.dlog ∧ t.trlog = s.trlog) ∧
    (s.phase = .arbitrate → 2 ^ 64 ≤ s.tNow.toNat + s.cfg.pollInterval →
      (∀ w ∈ s.snd, ∀ i : Fin 8, w.armed i = false) →
      ∃ t : State, exec .arbitrate s = .next t ∧ t.phase = .fatal ∧ t.fatalCode = .timeOverflow ∧
        t.txlog = s.txlog ∧ t.dlog = s.dlog ∧ t.trlog = s.trlog)

/-! ## Receiver window -/

/-- R310, and R312 outside the window: a data frame outside the window is dropped with one report and
acked only if it is just behind; nothing else changes. -/
def Obligations.PlaceOutsideWindowIsDropped : Prop :=
  ∀ (p : Byte) (f : Frame) (s : State), s.phase = .drain → p.toNat < s.cfg.peerCount →
    let idx := (f.seq.toNat + 256 - (s.receiver p).left.toNat) % 256
    (8 ≤ idx → idx < 248 →
      exec (.place p f) s = .next { s with trlog := s.trlog ++ [⟨.dataOutOfWindow, p, f.seq⟩] }) ∧
    (248 ≤ idx →
      exec (.place p f) s = .next { s with
        batch := s.batch ++ [mkAck s.cfg p f.seq]
        trlog := s.trlog ++ [⟨.dataOutOfWindow, p, f.seq⟩] })

/-- R311, and R312 in the window: every frame in the window is acked; a duplicate of a frame held is
dropped, the first copy kept; a new frame is stored whole, and then PLACE does what DELIVERY_SCAN does from
there: the same next state, or the same fatal condition with the same logs. -/
def Obligations.PlaceInWindowStoresThenScans : Prop :=
  ∀ (p : Byte) (f : Frame) (i : Fin 8) (s : State), s.phase = .drain → p.toNat < s.cfg.peerCount →
    (f.seq.toNat + 256 - (s.receiver p).left.toNat) % 256 = i.val →
    ((s.receiver p).present[i] = true →
      exec (.place p f) s = .next { s with
        batch := s.batch ++ [mkAck s.cfg p f.seq]
        trlog := s.trlog ++ [⟨.dataDuplicate, p, f.seq⟩] }) ∧
    ((s.receiver p).present[i] = false →
      let stored : State := { s with
        batch := s.batch ++ [mkAck s.cfg p f.seq]
        rcv := s.rcv.set p.toNat { s.receiver p with
          buffer := (s.receiver p).buffer.set i.val f
          present := (s.receiver p).present.set i.val true } }
      ∃ t u : State, exec (.place p f) s = .next t ∧ exec (.deliveryScan p) stored = .next u ∧
        (u.Live → t = u) ∧
        (u.phase = .fatal → t.phase = .fatal ∧ t.fatalCode = u.fatalCode ∧
          t.txlog = u.txlog ∧ t.dlog = u.dlog ∧ t.trlog = u.trlog))

/-- R315, R316: DELIVERY_SCAN gives the run of present slots at the base to reassembly in increasing index
order and slides past it; where reassembly raises a fatal condition, so does the scan, with the logs as
they were at the raise; and where no message can outgrow `MAX_MSG_LEN`, it does not. -/
def Obligations.DeliveryScanReleasesRun : Prop :=
  ∀ (p : Byte) (s : State), s.phase = .drain → p.toNat < s.cfg.peerCount → s.Sized →
    ∃ (k : Nat) (v : ReceiverWindow), (s.receiver p).IsRun k ∧ (s.receiver p).SlidBy v k ∧
      let delivery := forEach (reassemble p) ((s.receiver p).buffer.toList.take k) s
      (∀ u, delivery = .ok u → exec (.deliveryScan p) s = .next { u with rcv := s.rcv.set p.toNat v }) ∧
      (∀ c u, delivery = .fatal c u → ∃ t, exec (.deliveryScan p) s = .next t ∧ t.phase = .fatal ∧
        t.fatalCode = c ∧ t.txlog = u.txlog ∧ t.dlog = u.dlog ∧ t.trlog = u.trlog) ∧
      ((s.reasm p).acc.length + 8 * 57 ≤ s.cfg.maxMsgLen →
        ∃ u, delivery = .ok u ∧ u.rcv = s.rcv ∧ u.snd = s.snd ∧ u.batch = s.batch ∧ u.phase = .drain)

/-- R318, for one scan of a window that satisfies R65 and holds UNSEGMENTED frames: the messages delivered
are those of the slots from 0 to the end of the run, in that order, and these slots hold the sequence
numbers `left, left+1, …`, with no gap and no duplicate; `left` moves past them. -/
def Obligations.DeliveredRunIsConsecutive : Prop :=
  ∀ (p : Byte) (s : State), s.phase = .drain → p.toNat < s.cfg.peerCount → s.Sized →
    (∀ i : Fin 8, (s.receiver p).present[i] = true →
      (s.receiver p).buffer[i].seq = (s.receiver p).left + BitVec.ofNat 8 i.val ∧
      (s.receiver p).buffer[i].role = .unsegmented) →
    ∃ (k : Nat) (t : State), (s.receiver p).IsRun k ∧ exec (.deliveryScan p) s = .next t ∧
      let fs := (s.receiver p).buffer.toList.take k
      fs.length = k ∧
      (∀ j, (hj : j < fs.length) → fs[j].seq = (s.receiver p).left + BitVec.ofNat 8 j) ∧
      t.dlog = s.dlog ++ fs.map (fun f => ⟨p, tailPart f.payload⟩) ∧
      (t.receiver p).left = (s.receiver p).left + BitVec.ofNat 8 k ∧
      (t.receiver p).present[0] = false

/-- R313, R126: GEN_ACK appends to the batch one valid ack frame that names `n`. That it does so for an id
that is no other peer's is the model's choice (notes/assumptions/28.md, 31.md). -/
def Obligations.GenAckBuildsAckFrame : Prop :=
  ∀ (p n : Byte) (s : State), s.phase = .drain →
    ∃ g : Frame, exec (.genAck p n) s = .next { s with batch := s.batch ++ [g] } ∧
      g.src = s.cfg.selfId ∧ g.dst = p ∧ g.seq = 0 ∧ g.ack = n ∧ g.flag = 0x04 ∧
      g.payload = List.replicate 57 0 ∧ isCorrupted s.cfg.crcInit g = false

/-! ## Router and commands -/

/-- R356, R402, R403, R404: the CRC test first, then `dst`, then `src`, each drop one report and nothing
else; a frame that passes goes to ON_ACK or to PLACE by `flag[2]`. -/
def Obligations.RouteFrameTestsThenDispatches : Prop :=
  ∀ (f : Frame) (s : State), s.phase = .drain →
    (isCorrupted s.cfg.crcInit f = true →
      exec (.routeFrame f) s = .next { s with trlog := s.trlog ++ [⟨.corrupt, 0, 0⟩] }) ∧
    (isCorrupted s.cfg.crcInit f = false →
      (f.dst ≠ s.cfg.selfId →
        exec (.routeFrame f) s = .next { s with trlog := s.trlog ++ [⟨.misdirected, f.src, f.seq⟩] }) ∧
      (f.dst = s.cfg.selfId → (s.cfg.peerCount ≤ f.src.toNat ∨ f.src = s.cfg.selfId) →
        exec (.routeFrame f) s = .next { s with trlog := s.trlog ++ [⟨.badSrc, f.src, f.seq⟩] }) ∧
      (f.dst = s.cfg.selfId → f.src.toNat < s.cfg.peerCount → f.src ≠ s.cfg.selfId →
        (f[4].getLsbD 2 = true → exec (.routeFrame f) s = exec (.onAck f.src f.ack) s) ∧
        (f[4].getLsbD 2 = false → exec (.routeFrame f) s = exec (.place f.src f) s)))

/-- R128 and R356: what a valid frame decodes to does what ROUTE_FRAME does with the frame. -/
def Obligations.FrameKindsRunAsRouted : Prop :=
  ∀ (f : Frame) (i : Instr) (rest more : List Byte) (s : State),
    decodeFrame s.cfg.crcInit f rest = .instr i more → exec i s = exec (.routeFrame f) s

/-- R310 to R312 for the four data frame kinds, ROUTE_FRAME and PLACE: a new frame of a peer in the window
ahead of a gap at its base is acked and held, and nothing else changes. -/
def Obligations.DataFramesAreHeldAndAcked : Prop :=
  ∀ (f : Frame) (i : Instr) (k : Fin 8) (s : State), s.phase = .drain →
    f.dst = s.cfg.selfId → f.src.toNat < s.cfg.peerCount → f.src ≠ s.cfg.selfId →
    (i = .dataMiddle f ∨ i = .dataHead f ∨ i = .dataTail f ∨ i = .dataUnseg f ∨ i = .place f.src f ∨
      i = .routeFrame f ∧ isCorrupted s.cfg.crcInit f = false ∧ f.kind = false) →
    (f.seq.toNat + 256 - (s.receiver f.src).left.toNat) % 256 = k.val → 0 < k.val →
    (s.receiver f.src).present[k] = false → (s.receiver f.src).present[0] = false →
    f.src.toNat < s.rcv.length →
    exec i s = .next { s with
      batch := s.batch ++ [mkAck s.cfg f.src f.seq]
      rcv := s.rcv.set f.src.toNat { s.receiver f.src with
        buffer := (s.receiver f.src).buffer.set k.val f
        present := (s.receiver f.src).present.set k.val true } }

/-- R265 to R268 for the frame kind ACK and ROUTE_FRAME: an ack of a peer for the oldest frame, with the
next one un-acked, slides that peer's sender window by one and changes nothing else. -/
def Obligations.AckFramesReachTheSender : Prop :=
  ∀ (f : Frame) (i : Instr) (s : State), s.phase = .drain →
    f.dst = s.cfg.selfId → f.src.toNat < s.cfg.peerCount → f.src ≠ s.cfg.selfId →
    (i = .ack f ∨ i = .routeFrame f ∧ isCorrupted s.cfg.crcInit f = false ∧ f.kind = true) →
    f.ack = (s.sender f.src).left → 0 < (s.sender f.src).firstFree → (s.sender f.src).acked[1] = false →
    ∃ v : SenderWindow, exec i s = .next { s with snd := s.snd.set f.src.toNat v } ∧
      { s.sender f.src with acked := (s.sender f.src).acked.set 0 true }.SlidBy v 1

/-- R358: a command for an id with no window, or for this entity, is dropped with one report. -/
def Obligations.ProcessCmdBadDestinationIsDropped : Prop :=
  ∀ (c : Command) (s : State), s.phase = .drain →
    (s.cfg.peerCount ≤ c.dst.toNat ∨ c.dst = s.cfg.selfId) →
    exec (.processCmd c) s = .next { s with trlog := s.trlog ++ [⟨.cmdBadDst, c.dst, 0⟩] }

/-- R357, R225: PROCESS_CMD appends the frames of the command, in order, to the destination's `pending`;
where they do not fit it raises PENDING_OVERFLOW and the logs stay. That it does so for a text longer than
`MAX_TEXT_LEN` too is the model's choice (notes/assumptions/27.md). -/
def Obligations.ProcessCmdEnqueuesSegments : Prop :=
  ∀ (c : Command) (s : State), s.phase = .drain → c.dst.toNat < s.cfg.peerCount →
    c.dst ≠ s.cfg.selfId → c.dst.toNat < s.snd.length →
    let w := s.sender c.dst
    let fs := segment s.cfg c.dst c.text
    (w.pending.length + fs.length ≤ s.cfg.pendingDepth →
      exec (.processCmd c) s =
        .next { s with snd := s.snd.set c.dst.toNat { w with pending := w.pending ++ fs } }) ∧
    (s.cfg.pendingDepth < w.pending.length + fs.length →
      ∃ t : State, exec (.processCmd c) s = .next t ∧ t.phase = .fatal ∧
        t.fatalCode = .pendingOverflow ∧ t.txlog = s.txlog ∧ t.dlog = s.dlog ∧ t.trlog = s.trlog)

/-! ## Pushes -/

/-- R363, R132: RX_PUSH appends to `rxq`, raises RXQ_OVERFLOW where it is full, with the logs as
they were (R420), and is ignored in `FATAL`. -/
def Obligations.RxPushAppendsOrOverflows : Prop :=
  ∀ (f : Frame) (s : State),
    (s.phase = .fatal → exec (.rxPush f) s = .next s) ∧
    (s.Live → s.rxq.length < s.cfg.rxqDepth →
      exec (.rxPush f) s = .next { s with rxq := s.rxq ++ [f] }) ∧
    (s.Live → s.rxq.length = s.cfg.rxqDepth →
      ∃ t : State, exec (.rxPush f) s = .next t ∧ t.phase = .fatal ∧ t.fatalCode = .rxqOverflow ∧
        t.txlog = s.txlog ∧ t.dlog = s.dlog ∧ t.trlog = s.trlog)

/-- R364, R133: CMD_PUSH of a text of at most `MAX_TEXT_LEN` bytes appends to `cmdq`, raises CMDQ_OVERFLOW
where it is full, with the logs as they were (R420), and is ignored in `FATAL`. -/
def Obligations.CmdPushAppendsOrOverflows : Prop :=
  ∀ (c : Command) (s : State),
    (s.phase = .fatal → exec (.cmdPush c) s = .next s) ∧
    (s.Live → c.text.length ≤ s.cfg.maxTextLen → s.cmdq.length < s.cfg.cmdqDepth →
      exec (.cmdPush c) s = .next { s with cmdq := s.cmdq ++ [c] }) ∧
    (s.Live → c.text.length ≤ s.cfg.maxTextLen → s.cmdq.length = s.cfg.cmdqDepth →
      ∃ t : State, exec (.cmdPush c) s = .next t ∧ t.phase = .fatal ∧ t.fatalCode = .cmdqOverflow ∧
        t.txlog = s.txlog ∧ t.dlog = s.dlog ∧ t.trlog = s.trlog)

/-- spec/93_implementation_defined.md: "A model may reject the push" of a text longer than `MAX_TEXT_LEN`;
this model refuses it by name (notes/assumptions/12.md). -/
def Obligations.CmdPushOfLongTextIsRefused : Prop :=
  ∀ (c : Command) (s : State), s.Live → s.cfg.maxTextLen < c.text.length →
    exec (.cmdPush c) s = .refused .textTooLong

/-! ## The loop -/

/-- R351: SAMPLE takes `now_in` into `t_now` and moves to ARBITRATE. -/
def Obligations.SampleTakesTheTime : Prop :=
  ∀ s : State, s.phase = .sample → exec .sample s = .next { s with tNow := s.nowIn, phase := .arbitrate }

/-- R352, R353: ARBITRATE sets the deadline to the least expiry of all armed slots of all sender windows,
or to `t_now + POLL_INTERVAL` where none is armed, and moves to WAIT. -/
def Obligations.ArbitrateTakesEarliestDeadline : Prop :=
  ∀ s : State, s.phase = .arbitrate →
    ((∃ w ∈ s.snd, ∃ i : Fin 8, w.armed i = true) →
      ∃ d : Time, exec .arbitrate s = .next { s with deadline := d, phase := .wait } ∧
        (∃ w ∈ s.snd, ∃ i : Fin 8, w.armed i = true ∧ w.expiry[i] = d) ∧
        ∀ w ∈ s.snd, ∀ i : Fin 8, w.armed i = true → d.toNat ≤ w.expiry[i].toNat) ∧
    ((∀ w ∈ s.snd, ∀ i : Fin 8, w.armed i = false) → s.tNow.toNat + s.cfg.pollInterval < 2 ^ 64 →
      exec .arbitrate s = .next { s with
        deadline := BitVec.ofNat 64 (s.tNow.toNat + s.cfg.pollInterval), phase := .wait })

/-- R354: WAIT moves to DRAIN where a queue is non-empty or `now_in >= deadline`, and holds otherwise. -/
def Obligations.WaitLeavesOrHolds : Prop :=
  ∀ s : State, s.phase = .wait →
    ((s.rxq ≠ [] ∨ s.cmdq ≠ [] ∨ s.deadline.toNat ≤ s.nowIn.toNat) →
      exec .wait s = .next { s with phase := .drain }) ∧
    (s.rxq = [] → s.cmdq = [] → s.nowIn.toNat < s.deadline.toNat → exec .wait s = .next s)

/-- R355, R359: DRAIN ends as ROUTE_FRAME on each frame of `rxq` in order, then PROCESS_CMD on each command
of `cmdq` in order, then ADMIT for each peer from 0 on, end when executed one after the other with both
queues emptied: in the same state but for the move to TIMEOUTS, or in `FATAL` with the same code and logs.
It stays live where every command fits in every `pending`, no message can outgrow `MAX_MSG_LEN` and no time
sum overflows. -/
def Obligations.DrainProcessesBothQueues : Prop :=
  ∀ s : State, s.phase = .drain →
    ∃ t u : State, exec .drain s = .next t ∧
      execAll (s.rxq.map .routeFrame ++ s.cmdq.map .processCmd ++ (peersOf s.cfg).map .admitFrames)
        { s with rxq := [], cmdq := [] } = .next u ∧
      (u.Live → t = { u with phase := .timeouts } ∧ t.rxq = [] ∧ t.cmdq = [] ∧ t.tNow = s.tNow ∧
        t.deadline = s.deadline ∧ t.txlog = s.txlog ∧ t.fatalCode = s.fatalCode ∧
        s.dlog <+: t.dlog ∧ s.trlog <+: t.trlog ∧ s.batch <+: t.batch) ∧
      (u.phase = .fatal → t.phase = .fatal ∧ t.fatalCode = u.fatalCode ∧
        t.txlog = u.txlog ∧ t.dlog = u.dlog ∧ t.trlog = u.trlog) ∧
      (s.Sized → s.tNow.toNat + s.cfg.rto < 2 ^ 64 →
        (∀ w ∈ s.snd, w.pending.length + (s.cmdq.map fun c => frameCount (c.text.length + 1)).sum ≤
          s.cfg.pendingDepth) →
        (∀ a ∈ s.asm, a.acc.length + 8 * 57 * s.rxq.length ≤ s.cfg.maxMsgLen) → u.Live)

/-- R365 (1) and (2): a DRAIN step that stays live appends to the batch exactly: first the acks due for the
frames of `rxq`, in the order of `rxq`; then, peer 0 first, the frames ADMIT takes from that peer's
`pending` as it stands in `b`, after the frames and commands, in `pending` order and with the sequence
numbers of their slots. -/
def Obligations.DrainBatchOrder : Prop :=
  ∀ s t : State, s.cfg.Valid → s.phase = .drain → exec .drain s = .next t → t.Live →
    ∃ b : State,
      execAll (s.rxq.map .routeFrame ++ s.cmdq.map .processCmd) { s with rxq := [], cmdq := [] } = .next b ∧
      t.batch = s.batch ++ acksDue s.rxq { s with rxq := [], cmdq := [] } ++
        (peersOf s.cfg).flatMap fun p => (b.sender p).admitted s.cfg.crcInit

/-- R360: with nothing else on the agenda, a step in TIMEOUTS checks every sender window, peer 0 first,
and moves to TRANSMIT. -/
def Obligations.TimeoutsStepChecksEveryPeer : Prop :=
  ∀ (e : Time) (s : State), s.agenda = [] → s.phase = .timeouts → s.cfg.Valid → s.Sized →
    e.toNat = s.tNow.toNat + s.cfg.rto →
    let due : SenderWindow → Fin 8 → Bool := fun w i =>
      decide (w.armed i = true ∧ w.expiry[i].toNat ≤ s.tNow.toNat)
    let checked : SenderWindow → SenderWindow := fun w =>
      { w with expiry := Vector.ofFn fun i : Fin 8 => bif due w i then e else w.expiry[i] }
    let sent : SenderWindow → List Frame := fun w =>
      ((List.finRange 8).filter (due w)).map fun i => w.buffer[i]
    step s = .next { s with
      phase := .transmit, snd := s.snd.map checked, batch := s.batch ++ s.snd.flatMap sent }

/-- R361, R362, R134: TRANSMIT offers the head of the batch; accepted, it goes to `txlog`; not accepted, the
worker holds; with an empty batch the loop repeats. -/
def Obligations.TransmitSendsHoldsOrRepeats : Prop :=
  ∀ s : State, s.phase = .transmit →
    (s.batch = [] → exec .transmit s = .next { s with phase := .sample }) ∧
    (∀ f rest, s.batch = f :: rest → s.txOffer = some f ∧
      (s.txReady = true → exec .transmit s = .next { s with batch := rest, txlog := s.txlog ++ [f] }) ∧
      (s.txReady = false → exec .transmit s = .next s))

/-- R450: RESET, in any phase, puts every element at its reset value, empties the logs and leaves the
configuration (R451). -/
def Obligations.ResetRestoresEveryElement : Prop :=
  ∀ s : State, ∃ t : State, exec .reset s = .next t ∧ t.cfg = s.cfg ∧
    t.phase = .sample ∧ t.tNow = 0 ∧ t.deadline = 0 ∧ t.fatalCode = .none ∧
    t.snd.length = s.cfg.peerCount ∧ t.rcv.length = s.cfg.peerCount ∧ t.asm.length = s.cfg.peerCount ∧
    (∀ w ∈ t.snd, w.left = 0 ∧ w.firstFree = 0 ∧ w.pending = [] ∧
      ∀ i : Fin 8, w.buffer[i].toList = List.replicate 64 0 ∧ w.acked[i] = false ∧ w.expiry[i] = 0) ∧
    (∀ w ∈ t.rcv, w.left = 0 ∧
      ∀ i : Fin 8, w.buffer[i].toList = List.replicate 64 0 ∧ w.present[i] = false) ∧
    (∀ a ∈ t.asm, a.active = false ∧ a.acc = []) ∧
    t.rxq = [] ∧ t.cmdq = [] ∧ t.batch = [] ∧ t.txlog = [] ∧ t.dlog = [] ∧ t.trlog = []

/-! ## The step -/

/-- A step whose agenda begins with the fetch of bytes that decode to `i` is `exec i` with that event
taken off the agenda, and nothing else around it. That the bytes `more` after the instruction are discarded is the
model's choice (notes/assumptions/32.md). -/
def Obligations.StepRunsDecodedInstruction : Prop :=
  ∀ (s : State) (fmt : Format) (bytes more : List Byte) (rest : List Event) (i : Instr),
    s.agenda = .fetch fmt bytes :: rest → decode s.cfg.crcInit fmt bytes = .instr i more →
    step s = exec i { s with agenda := rest }

/-- R350, R136, R134: with an empty agenda, or a `worker` event at its head, a step is the operation of the
phase (TIMEOUTS apart) and in `FATAL` none; a `now` event sets `now_in`, and is refused where it would go
back; a `txReady` event sets the channel's readiness. The agenda is the model's own
(notes/assumptions/2.md). -/
def Obligations.StepMovesAgents : Prop :=
  ∀ (s : State) (rest : List Event),
    (s.agenda = [] → (s.phase = .sample → step s = exec .sample s) ∧
      (s.phase = .arbitrate → step s = exec .arbitrate s) ∧ (s.phase = .wait → step s = exec .wait s) ∧
      (s.phase = .drain → step s = exec .drain s) ∧ (s.phase = .transmit → step s = exec .transmit s) ∧
      (s.phase = .fatal → step s = .next s)) ∧
    (s.agenda = .worker :: rest → step s = workerStep { s with agenda := rest }) ∧
    (∀ t : Time, s.agenda = .now t :: rest →
      (s.nowIn.toNat ≤ t.toNat → step s = .next { s with agenda := rest, nowIn := t }) ∧
      (t.toNat < s.nowIn.toNat → step s = .refused .timeBackwards)) ∧
    (∀ b : Bool, s.agenda = .txReady b :: rest → step s = .next { s with agenda := rest, txReady := b })

/-! ## The whole machine -/

/-- R368, R422: in `FATAL` every operation but RESET leaves the state as it is, nothing is offered on `TX`,
and RESET leaves `FATAL`. -/
def Obligations.FatalIsLeftOnlyByReset : Prop :=
  ∀ s : State, s.phase = .fatal →
    (∀ i : Instr, i ≠ .reset → exec i s = .next s) ∧ workerStep s = .next s ∧ s.txOffer = none ∧
    ∃ t : State, exec .reset s = .next t ∧ t.phase = .sample ∧ t.fatalCode = .none

/-- R421: from a live state, which operations can enter `FATAL`, and with which code; no other does. -/
def Obligations.FatalCauses : Prop :=
  ∀ (i : Instr) (s t : State), s.Live → exec i s = .next t → t.phase = .fatal →
    (t.fatalCode = .rxqOverflow ∧ ∃ f, i = .rxPush f) ∨
    (t.fatalCode = .cmdqOverflow ∧ ∃ c, i = .cmdPush c) ∨
    (t.fatalCode = .pendingOverflow ∧
      (i = .drain ∨ (∃ c, i = .processCmd c) ∨ ∃ p f, i = .enqueue p f)) ∨
    (t.fatalCode = .reasmOverflow ∧ (i = .drain ∨ (∃ f, i = .dataMiddle f ∨ i = .dataHead f ∨
      i = .dataTail f ∨ i = .dataUnseg f ∨ i = .routeFrame f ∨ ∃ p, i = .place p f ∨ i = .reassemble p f) ∨
      ∃ p, i = .deliveryScan p)) ∨
    (t.fatalCode = .timeOverflow ∧
      (i = .arbitrate ∨ i = .drain ∨ ∃ p, i = .admitFrames p ∨ i = .checkTimeouts p))

/-- R60: the observation logs are append-only: every operation but RESET keeps what they hold, and only
TRANSMIT adds to `txlog`. -/
def Obligations.LogsOnlyGrow : Prop :=
  ∀ (i : Instr) (s t : State), i ≠ .reset → exec i s = .next t →
    s.txlog <+: t.txlog ∧ s.dlog <+: t.dlog ∧ s.trlog <+: t.trlog ∧
    (i ≠ .transmit → t.txlog = s.txlog)

/-- R62, R451: no operation writes the configuration; and none writes an input (R136, R134) or the agenda. -/
def Obligations.NoOperationWritesConfigOrInputs : Prop :=
  ∀ (i : Instr) (s t : State), exec i s = .next t →
    t.cfg = s.cfg ∧ t.nowIn = s.nowIn ∧ t.txReady = s.txReady ∧ t.agenda = s.agenda

/-- R350: a step leaves the phase as it is, or moves one place round the loop, or enters `FATAL` from
outside it, or resets. -/
def Obligations.PhaseCycle : Prop :=
  ∀ s t : State, step s = .next t →
    t.phase = s.phase ∨
    (s.phase, t.phase) ∈ [(Phase.sample, Phase.arbitrate), (.arbitrate, .wait), (.wait, .drain),
      (.drain, .timeouts), (.timeouts, .transmit), (.transmit, .sample)] ∨
    (s.Live ∧ t.phase = .fatal ∧ t.fatalCode ≠ .none ∧ t.fatalCode ≠ .syncFailure) ∨
    ∃ rest bytes more, s.agenda = .fetch .op bytes :: rest ∧
      decode s.cfg.crcInit .op bytes = .instr .reset more ∧ t.phase = .sample

/-- R64, R65, R45, R52, R56, R57, R58, R63: every step keeps the invariant of the machine, from every state
that has it. -/
def Obligations.InvariantKept : Prop :=
  ∀ s t : State, s.Inv → step s = .next t → t.Inv

/-- The invariant holds after reset under every configuration of R6. -/
def Obligations.InvariantAtReset : Prop :=
  ∀ cfg : Config, cfg.Valid → (State.resetFor cfg).Inv

/-- R8: while only port events are to come, the batch never holds more frames than its phase allows, and so
never more than `BATCH_DEPTH`: "it cannot overflow in one loop iteration". -/
def Obligations.BatchNeverOverflows : Prop :=
  ∀ s t : State, s.PortDriven → s.rxq.length ≤ s.cfg.rxqDepth →
    s.batch.length ≤ batchLimit s.cfg s.phase → step s = .next t →
    t.PortDriven ∧ t.rxq.length ≤ t.cfg.rxqDepth ∧ t.batch.length ≤ batchLimit t.cfg t.phase ∧
    t.batch.length ≤ t.cfg.batchDepth

/-- R63: "The windows of `SELF_ID` are never written … They keep their reset values for ever." -/
def Obligations.SelfWindowsStayAtReset : Prop :=
  ∀ s t : State, s.cfg.Valid → s.Sized → s.PortDriven →
    (s.Live → s.sender s.cfg.selfId = SenderWindow.reset ∧ s.receiver s.cfg.selfId = ReceiverWindow.reset ∧
      s.reasm s.cfg.selfId = Reassembler.reset) →
    step s = .next t →
    t.Sized ∧ t.PortDriven ∧
    (t.Live → t.sender t.cfg.selfId = SenderWindow.reset ∧ t.receiver t.cfg.selfId = ReceiverWindow.reset ∧
      t.reasm t.cfg.selfId = Reassembler.reset)
end

