-- ==== Sys2Proof/Laws/Codec.lean ====
section
/-! SUPPORT. Fields of frames after the writes of the codec, and the CRC as a fold. -/

namespace Sys2Proof.Machine
open Sys2Proof

/-! ## Bytes of a built frame -/

theorem getElem_marshal (src dst seq ack flag : Byte) (ch : List Byte) {k : Nat} (hk : k < 64) :
    (marshal src dst seq ack flag ch)[k] =
      if k = 0 then src else if k = 1 then dst else if k = 2 then seq else if k = 3 then ack
      else if k = 4 then flag else if k < 62 then ch.getD (k - 5) 0 else 0 := by
  match k, hk with
  | 0, _ | 1, _ | 2, _ | 3, _ | 4, _ => simp [marshal]
  | k + 5, hk => simp [marshal]; split <;> split <;> first | rfl | omega

@[simp] theorem marshal_src (src dst seq ack flag : Byte) (ch : List Byte) :
    (marshal src dst seq ack flag ch).src = src := by simp [Frame.src, getElem_marshal]
@[simp] theorem marshal_dst (src dst seq ack flag : Byte) (ch : List Byte) :
    (marshal src dst seq ack flag ch).dst = dst := by simp [Frame.dst, getElem_marshal]
@[simp] theorem marshal_seq (src dst seq ack flag : Byte) (ch : List Byte) :
    (marshal src dst seq ack flag ch).seq = seq := by simp [Frame.seq, getElem_marshal]
@[simp] theorem marshal_ack (src dst seq ack flag : Byte) (ch : List Byte) :
    (marshal src dst seq ack flag ch).ack = ack := by simp [Frame.ack, getElem_marshal]
@[simp] theorem marshal_flag (src dst seq ack flag : Byte) (ch : List Byte) :
    (marshal src dst seq ack flag ch).flag = flag := by simp [Frame.flag, getElem_marshal]

/-- R187: the chunk, then zero bytes up to 57. -/
theorem marshal_payload (src dst seq ack flag : Byte) {ch : List Byte} (h : ch.length ≤ 57) :
    (marshal src dst seq ack flag ch).payload = ch ++ List.replicate (57 - ch.length) 0 := by
  apply List.ext_getElem
  · simp [Frame.payload]; omega
  · intro i h1 h2
    have hi : i < 57 := by simp [Frame.payload] at h1; omega
    simp only [Frame.payload, List.getElem_take, List.getElem_drop, Vector.getElem_toList]
    rw [getElem_marshal]
    have e : 5 + i - 5 = i := by omega
    simp only [e]
    rw [if_neg (by omega), if_neg (by omega), if_neg (by omega), if_neg (by omega), if_neg (by omega),
      if_pos (by omega), List.getElem_append]
    split <;> simp_all [List.getD_eq_getElem?_getD]

/-! ## Fields after a write -/

theorem getElem_setSeq (f : Frame) (v : Byte) {k : Nat} (hk : k < 64) :
    (f.setSeq v)[k] = if k = 2 then v else f[k] := by
  simp only [Frame.setSeq, Vector.getElem_set, eq_comm]

theorem getElem_setFcs (f : Frame) (c : BitVec 16) {k : Nat} (hk : k < 64) :
    (f.setFcs c)[k] = if k = 63 then c.extractLsb' 0 8 else if k = 62 then c.extractLsb' 8 8 else f[k] := by
  simp only [Frame.setFcs, Vector.getElem_set, eq_comm]

@[simp] theorem setSeq_seq (f : Frame) (v : Byte) : (f.setSeq v).seq = v := by simp [Frame.seq, getElem_setSeq]
@[simp] theorem setSeq_src (f : Frame) (v : Byte) : (f.setSeq v).src = f.src := by simp [Frame.src, getElem_setSeq]
@[simp] theorem setSeq_dst (f : Frame) (v : Byte) : (f.setSeq v).dst = f.dst := by simp [Frame.dst, getElem_setSeq]
@[simp] theorem setSeq_ack (f : Frame) (v : Byte) : (f.setSeq v).ack = f.ack := by simp [Frame.ack, getElem_setSeq]
@[simp] theorem setSeq_flag (f : Frame) (v : Byte) : (f.setSeq v).flag = f.flag := by simp [Frame.flag, getElem_setSeq]

@[simp] theorem stampFCS_src (i : BitVec 16) (f : Frame) : (stampFCS i f).src = f.src := by
  simp [stampFCS, Frame.src, getElem_setFcs]
@[simp] theorem stampFCS_dst (i : BitVec 16) (f : Frame) : (stampFCS i f).dst = f.dst := by
  simp [stampFCS, Frame.dst, getElem_setFcs]
@[simp] theorem stampFCS_seq (i : BitVec 16) (f : Frame) : (stampFCS i f).seq = f.seq := by
  simp [stampFCS, Frame.seq, getElem_setFcs]
@[simp] theorem stampFCS_ack (i : BitVec 16) (f : Frame) : (stampFCS i f).ack = f.ack := by
  simp [stampFCS, Frame.ack, getElem_setFcs]
@[simp] theorem stampFCS_flag (i : BitVec 16) (f : Frame) : (stampFCS i f).flag = f.flag := by
  simp [stampFCS, Frame.flag, getElem_setFcs]

theorem payload_congr {f g : Frame} (h : ∀ k, (hk : k < 64) → 5 ≤ k → k < 62 → f[k] = g[k]) :
    f.payload = g.payload := by
  apply List.ext_getElem
  · simp [Frame.payload]
  · intro i h1 h2
    have hi : i < 57 := by simp [Frame.payload] at h1; omega
    simp only [Frame.payload, List.getElem_take, List.getElem_drop, Vector.getElem_toList]
    exact h _ (by omega) (by omega) (by omega)

@[simp] theorem setSeq_payload (f : Frame) (v : Byte) : (f.setSeq v).payload = f.payload :=
  payload_congr fun k hk h5 _ => by rw [getElem_setSeq _ _ hk, if_neg (by omega)]

@[simp] theorem stampFCS_payload (i : BitVec 16) (f : Frame) : (stampFCS i f).payload = f.payload :=
  payload_congr fun k hk _ h62 => by
    rw [stampFCS, getElem_setFcs _ _ hk, if_neg (by omega), if_neg (by omega)]

@[simp] theorem length_payload (f : Frame) : f.payload.length = 57 := by simp [Frame.payload]

/-! ## The CRC as a fold -/

@[simp] theorem crc16_nil (i : BitVec 16) : crc16 i [] = i := rfl

theorem crc16_append (i : BitVec 16) (s t : List Byte) : crc16 i (s ++ t) = crc16 (crc16 i s) t := by
  simp [crc16, List.foldl_append]

/-- A frame's bytes are the first 62 and the two of its fcs. -/
theorem toList_eq_take_fcs (f : Frame) : f.toList = f.toList.take 62 ++ [f[62], f[63]] := by
  conv => lhs; rw [← List.take_append_drop 62 f.toList]
  congr 1
  rw [List.drop_eq_getElem_cons (by simp), List.drop_eq_getElem_cons (by simp)]
  simp

/-- R182 corner case: the fcs does not depend on the fcs bytes. -/
theorem computeFCS_setFcs (i c : BitVec 16) (f : Frame) : computeFCS i (f.setFcs c) = computeFCS i f := by
  unfold computeFCS
  congr 1
  apply List.ext_getElem
  · simp
  · intro k h1 h2
    have hk : k < 62 := by simp at h1; omega
    simp only [List.getElem_take, Vector.getElem_toList]
    rw [getElem_setFcs _ _ (by omega), if_neg (by omega), if_neg (by omega)]

/-! ## Frames from byte strings -/

theorem take?_toList_append (f : Frame) (rest : List Byte) : Frame.take? (f.toList ++ rest) = some (f, rest) := by
  unfold Frame.take?
  rw [dif_pos (by simp)]
  simp [Vector.toList]

theorem take?_eq_some {bs rest : List Byte} {f : Frame} (h : Frame.take? bs = some (f, rest)) :
    bs = f.toList ++ rest := by
  unfold Frame.take? at h
  split at h
  · simp only [Option.some.injEq, Prod.mk.injEq] at h
    obtain ⟨rfl, rfl⟩ := h
    simp [Vector.toList]
  · simp at h

end Sys2Proof.Machine
end

