-- ==== Sys2Proof/Laws/Decode.lean ====
section
/-! SUPPORT. The text operand read back, and what the frame decoder answers. -/

namespace Sys2Proof
open Sys2Proof.Machine

/-! ## Text operands -/

theorem takeText_textBytes (text rest : List Byte) : takeText (textBytes text ++ rest) = some (text, rest) := by
  induction text with
  | nil => cases rest <;> simp [textBytes, takeText]
  | cons b text ih => simp [textBytes, takeText, ih]

theorem takeText_eq_some {bs text rest : List Byte} (h : takeText bs = some (text, rest)) :
    bs = textBytes text ++ rest := by
  induction bs using takeText.induct generalizing text with
  | case1 => simp [takeText] at h
  | case2 => simp [takeText] at h; obtain ⟨rfl, rfl⟩ := h; rfl
  | case3 m hm => rw [takeText, if_neg hm] at h; simp at h
  | case4 b more => simp [takeText] at h; obtain ⟨rfl, rfl⟩ := h; rfl
  | case5 b more text' rest' ht _ ih =>
    simp [takeText, ht] at h
    obtain ⟨rfl, rfl⟩ := h
    simp [textBytes, ih ht]
  | case6 b more ht => simp [takeText, ht] at h
  | case7 m b more h0 h1 => rw [takeText, if_neg h0, if_neg h1] at h; simp at h

/-! ## The frame decoder -/

theorem role_ofBits_bits (r : Role) : Role.ofBits r.bits = r := by cases r <;> rfl

/-- R128, all of it: the three outcomes in the order they are tested. -/
theorem decodeFrame_cases (init : BitVec 16) (f : Frame) (rest : List Byte) :
    (isCorrupted init f = true ∧ decodeFrame init f rest = .reject .corruptFrame) ∨
    (isCorrupted init f = false ∧ f.kind = true ∧ decodeFrame init f rest = .instr (.ack f) rest) ∨
    (isCorrupted init f = false ∧ f.kind = false ∧
      ((f.role = .middle ∧ decodeFrame init f rest = .instr (.dataMiddle f) rest) ∨
       (f.role = .head ∧ decodeFrame init f rest = .instr (.dataHead f) rest) ∨
       (f.role = .tail ∧ decodeFrame init f rest = .instr (.dataTail f) rest) ∨
       (f.role = .unsegmented ∧ decodeFrame init f rest = .instr (.dataUnseg f) rest))) := by
  cases hc : isCorrupted init f <;> cases hk : f.kind <;> cases hr : f.role <;>
    simp [decodeFrame, hc, hk, hr]

end Sys2Proof
end

