-- ==== Sys2Proof/Laws/Flags.lean ====
section
/-! SUPPORT. What the flag computations of Machine/Flags.lean mean: runs of true flags, shifted arrays,
slot numbers. -/

namespace Sys2Proof.Machine
open Sys2Proof

/-! ## Runs -/

theorem leadingTrue_le_length (bs : List Bool) : leadingTrue bs ≤ bs.length := by
  induction bs with
  | nil => simp [leadingTrue]
  | cons b bs ih => cases b <;> simp [leadingTrue, ih]

theorem getElem_of_lt_leadingTrue {bs : List Bool} {j : Nat} (h : j < leadingTrue bs)
    (hj : j < bs.length) : bs[j] = true := by
  induction bs generalizing j with
  | nil => simp at hj
  | cons b bs ih =>
    cases b with
    | false => simp [leadingTrue] at h
    | true =>
      cases j with
      | zero => rfl
      | succ j => simp only [leadingTrue, Nat.add_lt_add_iff_right] at h; exact ih h (by simpa using hj)

theorem getElem_leadingTrue_eq_false {bs : List Bool} (h : leadingTrue bs < bs.length) :
    bs[leadingTrue bs] = false := by
  induction bs with
  | nil => simp at h
  | cons b bs ih =>
    cases b with
    | false => simp [leadingTrue]
    | true => simp only [leadingTrue, List.length_cons, Nat.add_lt_add_iff_right] at h; simpa [leadingTrue] using ih h

/-- The run is the only `k` with everything before it true and, where it is no end, false at it. -/
theorem leadingTrue_unique {bs : List Bool} {k : Nat} (hk : k ≤ bs.length)
    (hlt : ∀ j, (hj : j < bs.length) → j < k → bs[j] = true)
    (hat : (hk' : k < bs.length) → bs[k] = false) : leadingTrue bs = k := by
  induction bs generalizing k with
  | nil => simp at hk; simp [leadingTrue, hk]
  | cons b bs ih =>
    cases k with
    | zero => have := hat (by simp); simp at this; simp [leadingTrue, this]
    | succ k =>
      have hb : b = true := hlt 0 (by simp) (by omega)
      subst hb
      simp only [leadingTrue, Nat.add_right_cancel_iff]
      refine ih (by simpa using hk) (fun j hj hjk => ?_) (fun hk' => ?_)
      · have := hlt (j + 1) (by simpa using hj) (by omega)
        rwa [List.getElem_cons_succ] at this
      · have := hat (by simpa using hk')
        rwa [List.getElem_cons_succ] at this

theorem SenderWindow.ackRun_le_firstFree (w : SenderWindow) : w.ackRun ≤ w.firstFree := by
  have := leadingTrue_le_length (w.acked.toList.take w.firstFree)
  simp only [List.length_take, Vector.length_toList] at this
  exact le_trans this (by omega)

theorem SenderWindow.ackRun_le_eight (w : SenderWindow) : w.ackRun ≤ 8 := by
  have := leadingTrue_le_length (w.acked.toList.take w.firstFree)
  simp only [List.length_take, Vector.length_toList] at this
  exact le_trans this (by omega)

theorem SenderWindow.acked_of_lt_ackRun {w : SenderWindow} {j : Nat} (h : j < w.ackRun) :
    w.acked[j]'(Nat.lt_of_lt_of_le h w.ackRun_le_eight) = true := by
  have hl : j < (w.acked.toList.take w.firstFree).length :=
    Nat.lt_of_lt_of_le h (leadingTrue_le_length _)
  simpa using getElem_of_lt_leadingTrue h hl

theorem SenderWindow.not_acked_ackRun {w : SenderWindow} (hf : w.ackRun < w.firstFree) (h8 : w.ackRun < 8) :
    w.acked[w.ackRun] = false := by
  have hl : w.ackRun < (w.acked.toList.take w.firstFree).length := by simp; omega
  have e : (w.acked.toList.take w.firstFree)[w.ackRun]'hl = w.acked[w.ackRun] := by simp
  exact e.symm.trans (getElem_leadingTrue_eq_false hl)

theorem ReceiverWindow.run_le_eight (w : ReceiverWindow) : w.run ≤ 8 := by
  simpa [ReceiverWindow.run] using leadingTrue_le_length w.present.toList

theorem ReceiverWindow.present_of_lt_run {w : ReceiverWindow} {j : Nat} (h : j < w.run) :
    w.present[j]'(Nat.lt_of_lt_of_le h w.run_le_eight) = true := by
  have hl : j < w.present.toList.length := Nat.lt_of_lt_of_le h (leadingTrue_le_length _)
  simpa using getElem_of_lt_leadingTrue h hl

theorem ReceiverWindow.not_present_run {w : ReceiverWindow} (h : w.run < 8) :
    w.present[w.run] = false := by
  have hl : w.run < w.present.toList.length := by simpa using h
  have e : w.present.toList[w.run]'hl = w.present[w.run] := by simp
  exact e.symm.trans (getElem_leadingTrue_eq_false hl)

theorem ReceiverWindow.run_eq_zero_iff (w : ReceiverWindow) : w.run = 0 ↔ w.present[0] = false := by
  constructor
  · intro h
    have := w.not_present_run (by omega)
    simpa [h] using this
  · intro h
    by_contra hne
    have := present_of_lt_run (w := w) (j := 0) (by omega)
    simp [h] at this

/-! ## Shifted arrays -/

theorem getElem_shifted {α : Type} (v : Vector α 8) (k : Nat) (c : α) {j : Nat} (hj : j < 8) :
    (shifted v k c)[j] = if h : j + k < 8 then v[j + k] else c := by
  simp [shifted]

@[simp] theorem shifted_zero {α : Type} (v : Vector α 8) (c : α) : shifted v 0 c = v := by
  ext j hj
  simp [getElem_shifted, hj]

/-! ## Slot numbers -/

theorem slotOf_eq_none_iff {idx : Byte} : slotOf idx = none ↔ 8 ≤ idx.toNat := by
  unfold slotOf; split <;> simp <;> omega

theorem slotOf_eq_some_iff {idx : Byte} {i : Fin 8} : slotOf idx = some i ↔ idx.toNat = i.val := by
  unfold slotOf
  split
  · rename_i h; simp [Fin.ext_iff]
  · rename_i h; simp; have := i.isLt; omega

theorem SenderWindow.armed_iff {w : SenderWindow} {i : Fin 8} :
    w.armed i = true ↔ i.val < w.firstFree ∧ w.acked[i] = false := by
  simp [SenderWindow.armed]

end Sys2Proof.Machine
end

