-- ==== Sys2Proof/Laws/State.lean ====
section
/-! SUPPORT. The named updates of State, field by field, and what a read of a window after a write of one
gives. -/

namespace Sys2Proof.Machine
open Sys2Proof

section setSender
variable (s : State) (p : Byte) (w : SenderWindow)
@[simp] theorem State.setSender_cfg : (s.setSender p w).cfg = s.cfg := rfl
@[simp] theorem State.setSender_phase : (s.setSender p w).phase = s.phase := rfl
@[simp] theorem State.setSender_tNow : (s.setSender p w).tNow = s.tNow := rfl
@[simp] theorem State.setSender_deadline : (s.setSender p w).deadline = s.deadline := rfl
@[simp] theorem State.setSender_fatalCode : (s.setSender p w).fatalCode = s.fatalCode := rfl
@[simp] theorem State.setSender_snd : (s.setSender p w).snd = s.snd.set p.toNat w := rfl
@[simp] theorem State.setSender_rcv : (s.setSender p w).rcv = s.rcv := rfl
@[simp] theorem State.setSender_asm : (s.setSender p w).asm = s.asm := rfl
@[simp] theorem State.setSender_rxq : (s.setSender p w).rxq = s.rxq := rfl
@[simp] theorem State.setSender_cmdq : (s.setSender p w).cmdq = s.cmdq := rfl
@[simp] theorem State.setSender_batch : (s.setSender p w).batch = s.batch := rfl
@[simp] theorem State.setSender_txlog : (s.setSender p w).txlog = s.txlog := rfl
@[simp] theorem State.setSender_dlog : (s.setSender p w).dlog = s.dlog := rfl
@[simp] theorem State.setSender_trlog : (s.setSender p w).trlog = s.trlog := rfl
@[simp] theorem State.setSender_nowIn : (s.setSender p w).nowIn = s.nowIn := rfl
@[simp] theorem State.setSender_txReady : (s.setSender p w).txReady = s.txReady := rfl
@[simp] theorem State.setSender_agenda : (s.setSender p w).agenda = s.agenda := rfl
@[simp] theorem State.setSender_ret : (s.setSender p w).ret = s.ret := rfl
@[simp] theorem State.setSender_freeCtr : (s.setSender p w).freeCtr = s.freeCtr := rfl
@[simp] theorem State.setSender_receiver (q : Byte) : (s.setSender p w).receiver q = s.receiver q := rfl
@[simp] theorem State.setSender_reasm (q : Byte) : (s.setSender p w).reasm q = s.reasm q := rfl
end setSender

section setReceiver
variable (s : State) (p : Byte) (w : ReceiverWindow)
@[simp] theorem State.setReceiver_cfg : (s.setReceiver p w).cfg = s.cfg := rfl
@[simp] theorem State.setReceiver_phase : (s.setReceiver p w).phase = s.phase := rfl
@[simp] theorem State.setReceiver_tNow : (s.setReceiver p w).tNow = s.tNow := rfl
@[simp] theorem State.setReceiver_deadline : (s.setReceiver p w).deadline = s.deadline := rfl
@[simp] theorem State.setReceiver_fatalCode : (s.setReceiver p w).fatalCode = s.fatalCode := rfl
@[simp] theorem State.setReceiver_snd : (s.setReceiver p w).snd = s.snd := rfl
@[simp] theorem State.setReceiver_rcv : (s.setReceiver p w).rcv = s.rcv.set p.toNat w := rfl
@[simp] theorem State.setReceiver_asm : (s.setReceiver p w).asm = s.asm := rfl
@[simp] theorem State.setReceiver_rxq : (s.setReceiver p w).rxq = s.rxq := rfl
@[simp] theorem State.setReceiver_cmdq : (s.setReceiver p w).cmdq = s.cmdq := rfl
@[simp] theorem State.setReceiver_batch : (s.setReceiver p w).batch = s.batch := rfl
@[simp] theorem State.setReceiver_txlog : (s.setReceiver p w).txlog = s.txlog := rfl
@[simp] theorem State.setReceiver_dlog : (s.setReceiver p w).dlog = s.dlog := rfl
@[simp] theorem State.setReceiver_trlog : (s.setReceiver p w).trlog = s.trlog := rfl
@[simp] theorem State.setReceiver_nowIn : (s.setReceiver p w).nowIn = s.nowIn := rfl
@[simp] theorem State.setReceiver_txReady : (s.setReceiver p w).txReady = s.txReady := rfl
@[simp] theorem State.setReceiver_agenda : (s.setReceiver p w).agenda = s.agenda := rfl
@[simp] theorem State.setReceiver_ret : (s.setReceiver p w).ret = s.ret := rfl
@[simp] theorem State.setReceiver_freeCtr : (s.setReceiver p w).freeCtr = s.freeCtr := rfl
@[simp] theorem State.setReceiver_sender (q : Byte) : (s.setReceiver p w).sender q = s.sender q := rfl
@[simp] theorem State.setReceiver_reasm (q : Byte) : (s.setReceiver p w).reasm q = s.reasm q := rfl
end setReceiver

section setReasm
variable (s : State) (p : Byte) (a : Reassembler)
@[simp] theorem State.setReasm_cfg : (s.setReasm p a).cfg = s.cfg := rfl
@[simp] theorem State.setReasm_phase : (s.setReasm p a).phase = s.phase := rfl
@[simp] theorem State.setReasm_tNow : (s.setReasm p a).tNow = s.tNow := rfl
@[simp] theorem State.setReasm_deadline : (s.setReasm p a).deadline = s.deadline := rfl
@[simp] theorem State.setReasm_fatalCode : (s.setReasm p a).fatalCode = s.fatalCode := rfl
@[simp] theorem State.setReasm_snd : (s.setReasm p a).snd = s.snd := rfl
@[simp] theorem State.setReasm_rcv : (s.setReasm p a).rcv = s.rcv := rfl
@[simp] theorem State.setReasm_asm : (s.setReasm p a).asm = s.asm.set p.toNat a := rfl
@[simp] theorem State.setReasm_rxq : (s.setReasm p a).rxq = s.rxq := rfl
@[simp] theorem State.setReasm_cmdq : (s.setReasm p a).cmdq = s.cmdq := rfl
@[simp] theorem State.setReasm_batch : (s.setReasm p a).batch = s.batch := rfl
@[simp] theorem State.setReasm_txlog : (s.setReasm p a).txlog = s.txlog := rfl
@[simp] theorem State.setReasm_dlog : (s.setReasm p a).dlog = s.dlog := rfl
@[simp] theorem State.setReasm_trlog : (s.setReasm p a).trlog = s.trlog := rfl
@[simp] theorem State.setReasm_nowIn : (s.setReasm p a).nowIn = s.nowIn := rfl
@[simp] theorem State.setReasm_txReady : (s.setReasm p a).txReady = s.txReady := rfl
@[simp] theorem State.setReasm_agenda : (s.setReasm p a).agenda = s.agenda := rfl
@[simp] theorem State.setReasm_ret : (s.setReasm p a).ret = s.ret := rfl
@[simp] theorem State.setReasm_freeCtr : (s.setReasm p a).freeCtr = s.freeCtr := rfl
@[simp] theorem State.setReasm_sender (q : Byte) : (s.setReasm p a).sender q = s.sender q := rfl
@[simp] theorem State.setReasm_receiver (q : Byte) : (s.setReasm p a).receiver q = s.receiver q := rfl
end setReasm

section drop
variable (s : State) (c : DropCode) (p n : Byte)
@[simp] theorem State.drop_cfg : (s.drop c p n).cfg = s.cfg := rfl
@[simp] theorem State.drop_phase : (s.drop c p n).phase = s.phase := rfl
@[simp] theorem State.drop_tNow : (s.drop c p n).tNow = s.tNow := rfl
@[simp] theorem State.drop_deadline : (s.drop c p n).deadline = s.deadline := rfl
@[simp] theorem State.drop_fatalCode : (s.drop c p n).fatalCode = s.fatalCode := rfl
@[simp] theorem State.drop_snd : (s.drop c p n).snd = s.snd := rfl
@[simp] theorem State.drop_rcv : (s.drop c p n).rcv = s.rcv := rfl
@[simp] theorem State.drop_asm : (s.drop c p n).asm = s.asm := rfl
@[simp] theorem State.drop_rxq : (s.drop c p n).rxq = s.rxq := rfl
@[simp] theorem State.drop_cmdq : (s.drop c p n).cmdq = s.cmdq := rfl
@[simp] theorem State.drop_batch : (s.drop c p n).batch = s.batch := rfl
@[simp] theorem State.drop_txlog : (s.drop c p n).txlog = s.txlog := rfl
@[simp] theorem State.drop_dlog : (s.drop c p n).dlog = s.dlog := rfl
@[simp] theorem State.drop_trlog : (s.drop c p n).trlog = s.trlog ++ [⟨c, p, n⟩] := rfl
@[simp] theorem State.drop_nowIn : (s.drop c p n).nowIn = s.nowIn := rfl
@[simp] theorem State.drop_txReady : (s.drop c p n).txReady = s.txReady := rfl
@[simp] theorem State.drop_agenda : (s.drop c p n).agenda = s.agenda := rfl
@[simp] theorem State.drop_ret : (s.drop c p n).ret = s.ret := rfl
@[simp] theorem State.drop_freeCtr : (s.drop c p n).freeCtr = s.freeCtr := rfl
@[simp] theorem State.drop_sender (q : Byte) : (s.drop c p n).sender q = s.sender q := rfl
@[simp] theorem State.drop_receiver (q : Byte) : (s.drop c p n).receiver q = s.receiver q := rfl
@[simp] theorem State.drop_reasm (q : Byte) : (s.drop c p n).reasm q = s.reasm q := rfl
end drop

section deliver
variable (s : State) (p : Byte) (m : List Byte)
@[simp] theorem State.deliver_cfg : (s.deliver p m).cfg = s.cfg := rfl
@[simp] theorem State.deliver_phase : (s.deliver p m).phase = s.phase := rfl
@[simp] theorem State.deliver_tNow : (s.deliver p m).tNow = s.tNow := rfl
@[simp] theorem State.deliver_deadline : (s.deliver p m).deadline = s.deadline := rfl
@[simp] theorem State.deliver_fatalCode : (s.deliver p m).fatalCode = s.fatalCode := rfl
@[simp] theorem State.deliver_snd : (s.deliver p m).snd = s.snd := rfl
@[simp] theorem State.deliver_rcv : (s.deliver p m).rcv = s.rcv := rfl
@[simp] theorem State.deliver_asm : (s.deliver p m).asm = s.asm := rfl
@[simp] theorem State.deliver_rxq : (s.deliver p m).rxq = s.rxq := rfl
@[simp] theorem State.deliver_cmdq : (s.deliver p m).cmdq = s.cmdq := rfl
@[simp] theorem State.deliver_batch : (s.deliver p m).batch = s.batch := rfl
@[simp] theorem State.deliver_txlog : (s.deliver p m).txlog = s.txlog := rfl
@[simp] theorem State.deliver_dlog : (s.deliver p m).dlog = s.dlog ++ [⟨p, m⟩] := rfl
@[simp] theorem State.deliver_trlog : (s.deliver p m).trlog = s.trlog := rfl
@[simp] theorem State.deliver_nowIn : (s.deliver p m).nowIn = s.nowIn := rfl
@[simp] theorem State.deliver_txReady : (s.deliver p m).txReady = s.txReady := rfl
@[simp] theorem State.deliver_agenda : (s.deliver p m).agenda = s.agenda := rfl
@[simp] theorem State.deliver_ret : (s.deliver p m).ret = s.ret := rfl
@[simp] theorem State.deliver_freeCtr : (s.deliver p m).freeCtr = s.freeCtr := rfl
@[simp] theorem State.deliver_sender (q : Byte) : (s.deliver p m).sender q = s.sender q := rfl
@[simp] theorem State.deliver_receiver (q : Byte) : (s.deliver p m).receiver q = s.receiver q := rfl
@[simp] theorem State.deliver_reasm (q : Byte) : (s.deliver p m).reasm q = s.reasm q := rfl
end deliver

section append
variable (s : State) (fs : List Frame)
@[simp] theorem State.append_cfg : (s.append fs).cfg = s.cfg := rfl
@[simp] theorem State.append_phase : (s.append fs).phase = s.phase := rfl
@[simp] theorem State.append_tNow : (s.append fs).tNow = s.tNow := rfl
@[simp] theorem State.append_deadline : (s.append fs).deadline = s.deadline := rfl
@[simp] theorem State.append_fatalCode : (s.append fs).fatalCode = s.fatalCode := rfl
@[simp] theorem State.append_snd : (s.append fs).snd = s.snd := rfl
@[simp] theorem State.append_rcv : (s.append fs).rcv = s.rcv := rfl
@[simp] theorem State.append_asm : (s.append fs).asm = s.asm := rfl
@[simp] theorem State.append_rxq : (s.append fs).rxq = s.rxq := rfl
@[simp] theorem State.append_cmdq : (s.append fs).cmdq = s.cmdq := rfl
@[simp] theorem State.append_batch : (s.append fs).batch = s.batch ++ fs := rfl
@[simp] theorem State.append_txlog : (s.append fs).txlog = s.txlog := rfl
@[simp] theorem State.append_dlog : (s.append fs).dlog = s.dlog := rfl
@[simp] theorem State.append_trlog : (s.append fs).trlog = s.trlog := rfl
@[simp] theorem State.append_nowIn : (s.append fs).nowIn = s.nowIn := rfl
@[simp] theorem State.append_txReady : (s.append fs).txReady = s.txReady := rfl
@[simp] theorem State.append_agenda : (s.append fs).agenda = s.agenda := rfl
@[simp] theorem State.append_ret : (s.append fs).ret = s.ret := rfl
@[simp] theorem State.append_freeCtr : (s.append fs).freeCtr = s.freeCtr := rfl
@[simp] theorem State.append_sender (q : Byte) : (s.append fs).sender q = s.sender q := rfl
@[simp] theorem State.append_receiver (q : Byte) : (s.append fs).receiver q = s.receiver q := rfl
@[simp] theorem State.append_reasm (q : Byte) : (s.append fs).reasm q = s.reasm q := rfl
end append

section goto
variable (s : State) (ph : Phase)
@[simp] theorem State.goto_cfg : (s.goto ph).cfg = s.cfg := rfl
@[simp] theorem State.goto_phase : (s.goto ph).phase = ph := rfl
@[simp] theorem State.goto_tNow : (s.goto ph).tNow = s.tNow := rfl
@[simp] theorem State.goto_deadline : (s.goto ph).deadline = s.deadline := rfl
@[simp] theorem State.goto_fatalCode : (s.goto ph).fatalCode = s.fatalCode := rfl
@[simp] theorem State.goto_snd : (s.goto ph).snd = s.snd := rfl
@[simp] theorem State.goto_rcv : (s.goto ph).rcv = s.rcv := rfl
@[simp] theorem State.goto_asm : (s.goto ph).asm = s.asm := rfl
@[simp] theorem State.goto_rxq : (s.goto ph).rxq = s.rxq := rfl
@[simp] theorem State.goto_cmdq : (s.goto ph).cmdq = s.cmdq := rfl
@[simp] theorem State.goto_batch : (s.goto ph).batch = s.batch := rfl
@[simp] theorem State.goto_txlog : (s.goto ph).txlog = s.txlog := rfl
@[simp] theorem State.goto_dlog : (s.goto ph).dlog = s.dlog := rfl
@[simp] theorem State.goto_trlog : (s.goto ph).trlog = s.trlog := rfl
@[simp] theorem State.goto_nowIn : (s.goto ph).nowIn = s.nowIn := rfl
@[simp] theorem State.goto_txReady : (s.goto ph).txReady = s.txReady := rfl
@[simp] theorem State.goto_agenda : (s.goto ph).agenda = s.agenda := rfl
@[simp] theorem State.goto_ret : (s.goto ph).ret = s.ret := rfl
@[simp] theorem State.goto_freeCtr : (s.goto ph).freeCtr = s.freeCtr := rfl
@[simp] theorem State.goto_sender (q : Byte) : (s.goto ph).sender q = s.sender q := rfl
@[simp] theorem State.goto_receiver (q : Byte) : (s.goto ph).receiver q = s.receiver q := rfl
@[simp] theorem State.goto_reasm (q : Byte) : (s.goto ph).reasm q = s.reasm q := rfl
end goto

section answer
variable (s : State) (a : Answer)
@[simp] theorem State.answer_cfg : (s.answer a).cfg = s.cfg := rfl
@[simp] theorem State.answer_phase : (s.answer a).phase = s.phase := rfl
@[simp] theorem State.answer_tNow : (s.answer a).tNow = s.tNow := rfl
@[simp] theorem State.answer_deadline : (s.answer a).deadline = s.deadline := rfl
@[simp] theorem State.answer_fatalCode : (s.answer a).fatalCode = s.fatalCode := rfl
@[simp] theorem State.answer_snd : (s.answer a).snd = s.snd := rfl
@[simp] theorem State.answer_rcv : (s.answer a).rcv = s.rcv := rfl
@[simp] theorem State.answer_asm : (s.answer a).asm = s.asm := rfl
@[simp] theorem State.answer_rxq : (s.answer a).rxq = s.rxq := rfl
@[simp] theorem State.answer_cmdq : (s.answer a).cmdq = s.cmdq := rfl
@[simp] theorem State.answer_batch : (s.answer a).batch = s.batch := rfl
@[simp] theorem State.answer_txlog : (s.answer a).txlog = s.txlog := rfl
@[simp] theorem State.answer_dlog : (s.answer a).dlog = s.dlog := rfl
@[simp] theorem State.answer_trlog : (s.answer a).trlog = s.trlog := rfl
@[simp] theorem State.answer_nowIn : (s.answer a).nowIn = s.nowIn := rfl
@[simp] theorem State.answer_txReady : (s.answer a).txReady = s.txReady := rfl
@[simp] theorem State.answer_agenda : (s.answer a).agenda = s.agenda := rfl
@[simp] theorem State.answer_ret : (s.answer a).ret = a := rfl
@[simp] theorem State.answer_freeCtr : (s.answer a).freeCtr = s.freeCtr := rfl
@[simp] theorem State.answer_sender (q : Byte) : (s.answer a).sender q = s.sender q := rfl
@[simp] theorem State.answer_receiver (q : Byte) : (s.answer a).receiver q = s.receiver q := rfl
@[simp] theorem State.answer_reasm (q : Byte) : (s.answer a).reasm q = s.reasm q := rfl
end answer

/-! Reading a window after writing one. -/

theorem State.sender_setSender_self {s : State} {p : Byte} (h : p.toNat < s.snd.length) (w : SenderWindow) :
    (s.setSender p w).sender p = w := by
  simp [State.sender, List.getD_eq_getElem?_getD, h]

theorem State.sender_setSender_other {s : State} {p q : Byte} (h : q ≠ p) (w : SenderWindow) :
    (s.setSender p w).sender q = s.sender q := by
  have : p.toNat ≠ q.toNat := fun e => h (BitVec.eq_of_toNat_eq e).symm
  simp [State.sender, List.getD_eq_getElem?_getD, List.getElem?_set_ne this]

theorem State.receiver_setReceiver_self {s : State} {p : Byte} (h : p.toNat < s.rcv.length)
    (w : ReceiverWindow) : (s.setReceiver p w).receiver p = w := by
  simp [State.receiver, List.getD_eq_getElem?_getD, h]

theorem State.receiver_setReceiver_other {s : State} {p q : Byte} (h : q ≠ p) (w : ReceiverWindow) :
    (s.setReceiver p w).receiver q = s.receiver q := by
  have : p.toNat ≠ q.toNat := fun e => h (BitVec.eq_of_toNat_eq e).symm
  simp [State.receiver, List.getD_eq_getElem?_getD, List.getElem?_set_ne this]

theorem State.reasm_setReasm_self {s : State} {p : Byte} (h : p.toNat < s.asm.length) (a : Reassembler) :
    (s.setReasm p a).reasm p = a := by
  simp [State.reasm, List.getD_eq_getElem?_getD, h]

theorem State.reasm_setReasm_other {s : State} {p q : Byte} (h : q ≠ p) (a : Reassembler) :
    (s.setReasm p a).reasm q = s.reasm q := by
  have : p.toNat ≠ q.toNat := fun e => h (BitVec.eq_of_toNat_eq e).symm
  simp [State.reasm, List.getD_eq_getElem?_getD, List.getElem?_set_ne this]

/-! Writing back what was read changes nothing. -/

theorem State.setSender_sender (s : State) (p : Byte) : s.setSender p (s.sender p) = s := by
  by_cases h : p.toNat < s.snd.length
  · simp [State.setSender, State.sender, List.getD_eq_getElem?_getD, h]
  · simp [State.setSender, List.set_eq_of_length_le (Nat.le_of_not_lt h)]

theorem State.setReceiver_receiver (s : State) (p : Byte) : s.setReceiver p (s.receiver p) = s := by
  by_cases h : p.toNat < s.rcv.length
  · simp [State.setReceiver, State.receiver, List.getD_eq_getElem?_getD, h]
  · simp [State.setReceiver, List.set_eq_of_length_le (Nat.le_of_not_lt h)]

theorem State.setReasm_reasm (s : State) (p : Byte) : s.setReasm p (s.reasm p) = s := by
  by_cases h : p.toNat < s.asm.length
  · simp [State.setReasm, State.reasm, List.getD_eq_getElem?_getD, h]
  · simp [State.setReasm, List.set_eq_of_length_le (Nat.le_of_not_lt h)]

/-! A window of the state is one of the list, or a reset window. -/

theorem State.sender_mem {s : State} {p : Byte} (h : p.toNat < s.snd.length) : s.sender p ∈ s.snd := by
  simp [State.sender, List.getD_eq_getElem?_getD, h]

theorem State.receiver_mem {s : State} {p : Byte} (h : p.toNat < s.rcv.length) : s.receiver p ∈ s.rcv := by
  simp [State.receiver, List.getD_eq_getElem?_getD, h]

theorem State.reasm_mem {s : State} {p : Byte} (h : p.toNat < s.asm.length) : s.reasm p ∈ s.asm := by
  simp [State.reasm, List.getD_eq_getElem?_getD, h]

/-! Reset, field by field (R450, R451). -/
section afterReset
variable (s : State)

@[simp] theorem State.afterReset_cfg : s.afterReset.cfg = s.cfg := rfl
@[simp] theorem State.afterReset_phase : s.afterReset.phase = .sample := rfl
@[simp] theorem State.afterReset_tNow : s.afterReset.tNow = 0 := rfl
@[simp] theorem State.afterReset_deadline : s.afterReset.deadline = 0 := rfl
@[simp] theorem State.afterReset_fatalCode : s.afterReset.fatalCode = .none := rfl
@[simp] theorem State.afterReset_snd : s.afterReset.snd = List.replicate s.cfg.peerCount SenderWindow.reset := rfl
@[simp] theorem State.afterReset_rcv : s.afterReset.rcv = List.replicate s.cfg.peerCount ReceiverWindow.reset := rfl
@[simp] theorem State.afterReset_asm : s.afterReset.asm = List.replicate s.cfg.peerCount Reassembler.reset := rfl
@[simp] theorem State.afterReset_rxq : s.afterReset.rxq = [] := rfl
@[simp] theorem State.afterReset_cmdq : s.afterReset.cmdq = [] := rfl
@[simp] theorem State.afterReset_batch : s.afterReset.batch = [] := rfl
@[simp] theorem State.afterReset_txlog : s.afterReset.txlog = [] := rfl
@[simp] theorem State.afterReset_dlog : s.afterReset.dlog = [] := rfl
@[simp] theorem State.afterReset_trlog : s.afterReset.trlog = [] := rfl
@[simp] theorem State.afterReset_nowIn : s.afterReset.nowIn = s.nowIn := rfl
@[simp] theorem State.afterReset_txReady : s.afterReset.txReady = s.txReady := rfl
@[simp] theorem State.afterReset_agenda : s.afterReset.agenda = s.agenda := rfl
@[simp] theorem State.afterReset_ret : s.afterReset.ret = .none := rfl
@[simp] theorem State.afterReset_freeCtr : s.afterReset.freeCtr = s.freeCtr := rfl
end afterReset

/-! A fatal raise, field by field (R420): what it leaves definite, and the bounds of what it does not. -/
section raiseFatal
variable (c : FatalCode) (s : State)

@[simp] theorem raiseFatal_cfg : (raiseFatal c s).cfg = s.cfg := rfl
@[simp] theorem raiseFatal_phase : (raiseFatal c s).phase = .fatal := rfl
@[simp] theorem raiseFatal_fatalCode : (raiseFatal c s).fatalCode = c := rfl
@[simp] theorem raiseFatal_txlog : (raiseFatal c s).txlog = s.txlog := rfl
@[simp] theorem raiseFatal_dlog : (raiseFatal c s).dlog = s.dlog := rfl
@[simp] theorem raiseFatal_trlog : (raiseFatal c s).trlog = s.trlog := rfl
@[simp] theorem raiseFatal_nowIn : (raiseFatal c s).nowIn = s.nowIn := rfl
@[simp] theorem raiseFatal_txReady : (raiseFatal c s).txReady = s.txReady := rfl
@[simp] theorem raiseFatal_agenda : (raiseFatal c s).agenda = s.agenda := rfl
@[simp] theorem raiseFatal_ret : (raiseFatal c s).ret = s.ret := rfl
@[simp] theorem raiseFatal_freeCtr : (raiseFatal c s).freeCtr = s.freeCtr + 1 := rfl
@[simp] theorem raiseFatal_snd_length : (raiseFatal c s).snd.length = s.snd.length := by
  simp [raiseFatal, State.unspecified]
@[simp] theorem raiseFatal_rcv_length : (raiseFatal c s).rcv.length = s.rcv.length := by
  simp [raiseFatal, State.unspecified]
@[simp] theorem raiseFatal_asm_length : (raiseFatal c s).asm.length = s.asm.length := by
  simp [raiseFatal, State.unspecified]
theorem raiseFatal_rxq_length_le : (raiseFatal c s).rxq.length ≤ s.cfg.rxqDepth := List.length_take_le ..
theorem raiseFatal_cmdq_length_le : (raiseFatal c s).cmdq.length ≤ s.cfg.cmdqDepth := List.length_take_le ..
theorem raiseFatal_batch_length_le : (raiseFatal c s).batch.length ≤ s.cfg.batchDepth := List.length_take_le ..
end raiseFatal

end Sys2Proof.Machine
end

