-- ==== Sys2Proof/Laws/Ops.lean ====
section
/-! SUPPORT. Sequencing inside an atomic step, the gates of an operation, and the part of the state the
parts of a `DRAIN` or `TIMEOUTS` step never write. -/

namespace Sys2Proof.Machine
open Sys2Proof

/-! ## Sequencing -/

@[simp] theorem andThen_ok (s : State) (k : State → Run) : (Run.ok s).andThen k = k s := rfl
@[simp] theorem andThen_fatal (c : FatalCode) (s : State) (k : State → Run) :
    (Run.fatal c s).andThen k = .fatal c s := rfl

theorem andThen_eq_ok {r : Run} {k : State → Run} {t : State} :
    r.andThen k = .ok t ↔ ∃ s, r = .ok s ∧ k s = .ok t := by
  cases r <;> simp

theorem andThen_eq_fatal {r : Run} {k : State → Run} {c : FatalCode} {t : State} :
    r.andThen k = .fatal c t ↔ r = .fatal c t ∨ ∃ s, r = .ok s ∧ k s = .fatal c t := by
  cases r <;> simp

theorem andThen_assoc (r : Run) (k l : State → Run) :
    (r.andThen k).andThen l = r.andThen fun s => (k s).andThen l := by cases r <;> rfl

@[simp] theorem forEach_nil {α : Type} (body : α → State → Run) (s : State) : forEach body [] s = .ok s := rfl
@[simp] theorem forEach_cons {α : Type} (body : α → State → Run) (x : α) (xs : List α) (s : State) :
    forEach body (x :: xs) s = (body x s).andThen (forEach body xs) := rfl

theorem forEach_append {α : Type} (body : α → State → Run) (xs ys : List α) (s : State) :
    forEach body (xs ++ ys) s = (forEach body xs s).andThen (forEach body ys) := by
  induction xs generalizing s with
  | nil => rfl
  | cons x xs ih => simp only [List.cons_append, forEach_cons, andThen_assoc, funext ih]

/-- The state a part of a step ends in, at its end or at its raise. -/
def Run.state : Run → State
  | .ok s => s
  | .fatal _ s => s

/-- A relation that is reflexive and transitive and holds across every body holds across the loop. -/
theorem forEach_rel {α : Type} {R : State → State → Prop} (refl : ∀ s, R s s)
    (trans : ∀ {a b c}, R a b → R b c → R a c) {body : α → State → Run} {xs : List α}
    (h : ∀ x ∈ xs, ∀ s, R s (body x s).state) (s : State) : R s (forEach body xs s).state := by
  induction xs generalizing s with
  | nil => exact refl s
  | cons x xs ih =>
    have hx := h x (by simp) s
    rw [forEach_cons]
    cases hb : body x s with
    | ok s' =>
      rw [hb] at hx
      exact trans hx (ih (fun y hy => h y (by simp [hy])) s')
    | fatal c s' => rw [hb] at hx; exact hx

/-- A predicate that every body that goes on preserves holds after the loop that goes on. -/
theorem forEach_ok_keeps {α : Type} {P : State → Prop} {body : α → State → Run} {xs : List α}
    (h : ∀ x ∈ xs, ∀ s t, P s → body x s = .ok t → P t) {s t : State} (hs : P s)
    (ht : forEach body xs s = .ok t) : P t := by
  induction xs generalizing s with
  | nil => simp at ht; exact ht ▸ hs
  | cons x xs ih =>
    rw [forEach_cons, andThen_eq_ok] at ht
    obtain ⟨u, hu, ht⟩ := ht
    exact ih (fun y hy => h y (by simp [hy])) (h x (by simp) s u hs hu) ht

@[simp] theorem commit_ok (s : State) : (Run.ok s).commit = .next s := rfl
@[simp] theorem commit_fatal (c : FatalCode) (s : State) : (Run.fatal c s).commit = .next (raiseFatal c s) := rfl

/-- R420: an atomic step ends in its own next state, or in `FATAL`. -/
theorem commit_cases {t : State} {r : Run} (h : r.commit = .next t) :
    r = .ok t ∨ ∃ c s, r = .fatal c s ∧ t = raiseFatal c s := by
  cases r with
  | ok s => exact .inl (by simpa using h)
  | fatal c s => exact .inr ⟨c, s, rfl, by simpa using h.symm⟩

/-! ## Gates -/

theorem inPhase_of_eq {ph : Phase} {s : State} (h : s.phase = ph) (k : Host.Outcome State Fault Refusal) :
    inPhase ph s k = k := by simp [inPhase, h]

theorem inPhase_of_ne {ph : Phase} {s : State} (h : s.phase ≠ ph) (k : Host.Outcome State Fault Refusal) :
    inPhase ph s k = .next s := by simp [inPhase, h]

theorem unlessFatal_of_live {s : State} (h : s.phase ≠ .fatal) (k : Host.Outcome State Fault Refusal) :
    unlessFatal s k = k := by simp [unlessFatal, h]

theorem withPeer_of_lt {p : Byte} {s : State} (h : p.toNat < s.cfg.peerCount)
    (k : Host.Outcome State Fault Refusal) : withPeer p s k = k := by simp [withPeer, h]

/-- What a gated operation answers where it answers a next state. -/
theorem inPhase_next {ph : Phase} {s t : State} {k : Host.Outcome State Fault Refusal}
    (h : inPhase ph s k = .next t) : (s.phase = ph ∧ k = .next t) ∨ (s.phase ≠ ph ∧ t = s) := by
  unfold inPhase at h
  split at h
  · exact .inl ⟨‹_›, h⟩
  · simp at h; exact .inr ⟨‹_›, h.symm⟩

theorem unlessFatal_next {s t : State} {k : Host.Outcome State Fault Refusal}
    (h : unlessFatal s k = .next t) : (s.phase ≠ .fatal ∧ k = .next t) ∨ (s.phase = .fatal ∧ t = s) := by
  unfold unlessFatal at h
  split at h
  · simp at h; exact .inr ⟨‹_›, h.symm⟩
  · exact .inl ⟨‹_›, h⟩

theorem withPeer_next {p : Byte} {s t : State} {k : Host.Outcome State Fault Refusal}
    (h : withPeer p s k = .next t) : p.toNat < s.cfg.peerCount ∧ k = .next t := by
  unfold withPeer at h
  split at h
  · exact ⟨‹_›, h⟩
  · simp at h

/-! ## What the parts of a step never write -/

/-- `t` differs from `s` at most in the windows, the queues, the batch and the appended logs: what every
part of a `DRAIN` or `TIMEOUTS` step keeps. -/
structure Inner (s t : State) : Prop where
  cfg : t.cfg = s.cfg
  phase : t.phase = s.phase
  tNow : t.tNow = s.tNow
  deadline : t.deadline = s.deadline
  fatalCode : t.fatalCode = s.fatalCode
  snd : t.snd.length = s.snd.length
  rcv : t.rcv.length = s.rcv.length
  asm : t.asm.length = s.asm.length
  txlog : t.txlog = s.txlog
  dlog : s.dlog <+: t.dlog
  trlog : s.trlog <+: t.trlog
  batch : s.batch <+: t.batch
  nowIn : t.nowIn = s.nowIn
  txReady : t.txReady = s.txReady
  agenda : t.agenda = s.agenda
  ret : t.ret = s.ret
  freeCtr : t.freeCtr = s.freeCtr

theorem Inner.refl (s : State) : Inner s s :=
  ⟨rfl, rfl, rfl, rfl, rfl, rfl, rfl, rfl, rfl, List.prefix_refl _, List.prefix_refl _, List.prefix_refl _,
    rfl, rfl, rfl, rfl, rfl⟩

theorem Inner.trans {a b c : State} (h : Inner a b) (k : Inner b c) : Inner a c :=
  ⟨k.cfg.trans h.cfg, k.phase.trans h.phase, k.tNow.trans h.tNow, k.deadline.trans h.deadline,
    k.fatalCode.trans h.fatalCode, k.snd.trans h.snd, k.rcv.trans h.rcv, k.asm.trans h.asm,
    k.txlog.trans h.txlog, h.dlog.trans k.dlog, h.trlog.trans k.trlog, h.batch.trans k.batch,
    k.nowIn.trans h.nowIn, k.txReady.trans h.txReady, k.agenda.trans h.agenda, k.ret.trans h.ret,
    k.freeCtr.trans h.freeCtr⟩

theorem inner_setSender (s : State) (p : Byte) (w : SenderWindow) : Inner s (s.setSender p w) := by
  constructor <;> simp
theorem inner_setReceiver (s : State) (p : Byte) (w : ReceiverWindow) : Inner s (s.setReceiver p w) := by
  constructor <;> simp
theorem inner_setReasm (s : State) (p : Byte) (a : Reassembler) : Inner s (s.setReasm p a) := by
  constructor <;> simp
theorem inner_drop (s : State) (c : DropCode) (p n : Byte) : Inner s (s.drop c p n) := by
  constructor <;> simp
theorem inner_deliver (s : State) (p : Byte) (m : List Byte) : Inner s (s.deliver p m) := by
  constructor <;> simp
theorem inner_append (s : State) (fs : List Frame) : Inner s (s.append fs) := by
  constructor <;> simp

theorem inner_rxq (s : State) (q : List Frame) : Inner s { s with rxq := q } := by constructor <;> simp
theorem inner_cmdq (s : State) (q : List Command) : Inner s { s with cmdq := q } := by constructor <;> simp

/-- `Inner` across two parts in sequence. -/
theorem inner_andThen {s : State} {r : Run} {k : State → Run} (hr : Inner s r.state)
    (hk : ∀ t, Inner t (k t).state) : Inner s (r.andThen k).state := by
  cases r with
  | ok t => exact hr.trans (hk t)
  | fatal c t => exact hr

theorem inner_forEach {α : Type} {body : α → State → Run} {xs : List α}
    (h : ∀ x ∈ xs, ∀ s, Inner s (body x s).state) (s : State) : Inner s (forEach body xs s).state :=
  forEach_rel Inner.refl Inner.trans h s

/-! ## Time -/

theorem addTime_eq_some {t e : Time} {d : Nat} (h : addTime t d = some e) :
    t.toNat + d < 2 ^ 64 ∧ e.toNat = t.toNat + d := by
  unfold addTime at h
  split at h
  · rename_i hlt
    simp only [Option.some.injEq] at h
    subst h
    exact ⟨hlt, by simpa using Nat.mod_eq_of_lt hlt⟩
  · simp at h

theorem addTime_eq_none {t : Time} {d : Nat} : addTime t d = none ↔ 2 ^ 64 ≤ t.toNat + d := by
  unfold addTime; split <;> simp <;> omega

/-! ## Peers -/

theorem mem_peersOf {c : Config} {p : Byte} : p ∈ peersOf c ↔ p.toNat < c.peerCount := by
  simp only [peersOf, List.mem_map, List.mem_range]
  constructor
  · rintro ⟨k, hk, rfl⟩
    simpa using lt_of_le_of_lt (Nat.mod_le _ _) hk
  · intro h
    exact ⟨p.toNat, h, by simp⟩

end Sys2Proof.Machine
end

