-- ==== Sys2Proof/Laws/SeqSpace.lean ====
section
/-! SUPPORT. Arithmetic of the sequence space. -/

namespace Sys2Proof.Machine
open Sys2Proof

theorem slotIndex_toNat (n base : Byte) : (slotIndex n base).toNat = (256 - base.toNat + n.toNat) % 256 := by
  simp [slotIndex, BitVec.toNat_sub]

@[simp] theorem slotIndex_self (base : Byte) : slotIndex base base = 0 := by simp [slotIndex]

/-- The sequence number of the slot an index names. -/
theorem seqAt_slotIndex (n base : Byte) : seqAt base (slotIndex n base).toNat = n := by
  apply BitVec.eq_of_toNat_eq
  simp only [seqAt, slotIndex_toNat, BitVec.toNat_add, BitVec.toNat_ofNat]
  have := n.isLt
  have := base.isLt
  omega

/-- R264, R314: shifting the base by `k` and the slot back by `k` leaves the sequence number. -/
theorem seqAt_advance (base : Byte) (k j : Nat) : seqAt (advance base k) j = seqAt base (j + k) := by
  simp only [seqAt, advance, BitVec.add_assoc, ← BitVec.ofNat_add, Nat.add_comm]

@[simp] theorem advance_zero (base : Byte) : advance base 0 = base := by simp [advance]

/-- R163 and R160: an index read from the advanced base. -/
theorem slotIndex_advance_toNat (n base : Byte) (k : Nat) :
    (slotIndex n (advance base k)).toNat = ((slotIndex n base).toNat + (256 - k % 256)) % 256 := by
  simp only [slotIndex, advance, BitVec.toNat_sub, BitVec.toNat_add, BitVec.toNat_ofNat]
  have := n.isLt
  have := base.isLt
  omega

end Sys2Proof.Machine
end

