-- ==== Sys2Proof/Laws/Receiver.lean ====
section
/-! SUPPORT. What reassembly and the operations of the receiver window can do, said once each. -/

namespace Sys2Proof.Machine
open Sys2Proof

/-! ## Reassembly -/

/-- R226 to R229: everything one delivered frame can do to the reassembler. -/
theorem reassemble_cases (p : Byte) (f : Frame) (s : State) :
    (f.role = .unsegmented ∧ (s.reasm p).active = false ∧
      reassemble p f s = .ok (s.deliver p (tailPart f.payload))) ∨
    (f.role = .unsegmented ∧ (s.reasm p).active = true ∧
      reassemble p f s =
        .ok (((s.drop .reasmOrphan p f.seq).setReasm p ⟨false, []⟩).deliver p (tailPart f.payload))) ∨
    (f.role = .head ∧ (s.reasm p).active = false ∧
      reassemble p f s = .ok (s.setReasm p ⟨true, f.payload⟩)) ∨
    (f.role = .head ∧ (s.reasm p).active = true ∧
      reassemble p f s = .ok ((s.drop .reasmOrphan p f.seq).setReasm p ⟨true, f.payload⟩)) ∨
    ((f.role = .middle ∨ f.role = .tail) ∧ (s.reasm p).active = false ∧
      reassemble p f s = .ok (s.drop .reasmOrphan p f.seq)) ∨
    (f.role = .middle ∧ (s.reasm p).active = true ∧ (s.reasm p).acc.length + 57 ≤ s.cfg.maxMsgLen ∧
      reassemble p f s = .ok (s.setReasm p ⟨true, (s.reasm p).acc ++ f.payload⟩)) ∨
    (f.role = .tail ∧ (s.reasm p).active = true ∧
      (s.reasm p).acc.length + (tailPart f.payload).length ≤ s.cfg.maxMsgLen ∧
      reassemble p f s =
        .ok ((s.deliver p ((s.reasm p).acc ++ tailPart f.payload)).setReasm p ⟨false, []⟩)) ∨
    ((s.reasm p).active = true ∧ reassemble p f s = .fatal .reasmOverflow s ∧
      (f.role = .middle ∧ s.cfg.maxMsgLen < (s.reasm p).acc.length + 57 ∨
       f.role = .tail ∧ s.cfg.maxMsgLen < (s.reasm p).acc.length + (tailPart f.payload).length)) := by
  simp only [reassemble]
  cases hr : f.role <;> cases ha : (s.reasm p).active <;> simp
  · by_cases h : s.cfg.maxMsgLen < (s.reasm p).acc.length + 57 <;> (simp [h]; try omega)
  · by_cases h : s.cfg.maxMsgLen < (s.reasm p).acc.length + (tailPart f.payload).length <;> (simp [h]; try omega)

theorem inner_reassemble (p : Byte) (f : Frame) (s : State) : Inner s (reassemble p f s).state := by
  rcases reassemble_cases p f s with ⟨_, _, h⟩ | ⟨_, _, h⟩ | ⟨_, _, h⟩ | ⟨_, _, h⟩ | ⟨_, _, h⟩ |
    ⟨_, _, _, h⟩ | ⟨_, _, _, h⟩ | ⟨_, h, _⟩ <;> rw [h]
  · exact inner_deliver s p _
  · exact ((inner_drop s _ _ _).trans (inner_setReasm _ _ _)).trans (inner_deliver _ _ _)
  · exact inner_setReasm s p _
  · exact (inner_drop s _ _ _).trans (inner_setReasm _ _ _)
  · exact inner_drop s _ _ _
  · exact inner_setReasm s p _
  · exact (inner_deliver s _ _).trans (inner_setReasm _ _ _)
  · exact Inner.refl s

/-- The part of the state reassembly of peer `p` never writes: the windows, the queues, the batch and
every other reassembler. -/
theorem reassemble_keeps (p : Byte) (f : Frame) (s : State) :
    let t := (reassemble p f s).state
    t.snd = s.snd ∧ t.rcv = s.rcv ∧ t.rxq = s.rxq ∧ t.cmdq = s.cmdq ∧ t.batch = s.batch ∧
    ∀ q, q ≠ p → t.reasm q = s.reasm q := by
  rcases reassemble_cases p f s with ⟨_, _, h⟩ | ⟨_, _, h⟩ | ⟨_, _, h⟩ | ⟨_, _, h⟩ | ⟨_, _, h⟩ |
    ⟨_, _, _, h⟩ | ⟨_, _, _, h⟩ | ⟨_, h, _⟩ <;> rw [h] <;>
    simp +contextual [Run.state, State.reasm_setReasm_other]

theorem reassembleAll_keeps (p : Byte) (fs : List Frame) (s : State) :
    let t := (forEach (reassemble p) fs s).state
    t.snd = s.snd ∧ t.rcv = s.rcv ∧ t.rxq = s.rxq ∧ t.cmdq = s.cmdq ∧ t.batch = s.batch ∧
    ∀ q, q ≠ p → t.reasm q = s.reasm q :=
  forEach_rel (R := fun s t => t.snd = s.snd ∧ t.rcv = s.rcv ∧ t.rxq = s.rxq ∧ t.cmdq = s.cmdq ∧
      t.batch = s.batch ∧ ∀ q, q ≠ p → t.reasm q = s.reasm q)
    (fun _ => ⟨rfl, rfl, rfl, rfl, rfl, fun _ _ => rfl⟩)
    (fun h k => ⟨k.1.trans h.1, k.2.1.trans h.2.1, k.2.2.1.trans h.2.2.1, k.2.2.2.1.trans h.2.2.2.1,
      k.2.2.2.2.1.trans h.2.2.2.2.1, fun q hq => (k.2.2.2.2.2 q hq).trans (h.2.2.2.2.2 q hq)⟩)
    (fun f _ s => reassemble_keeps p f s) s

theorem inner_reassembleAll (p : Byte) (fs : List Frame) (s : State) :
    Inner s (forEach (reassemble p) fs s).state := inner_forEach (fun f _ s => inner_reassemble p f s) s

/-! ## The window -/

section slideBy
variable (w : ReceiverWindow) (k : Nat)
@[simp] theorem ReceiverWindow.slideBy_left : (w.slideBy k).left = advance w.left k := rfl
@[simp] theorem ReceiverWindow.slideBy_buffer : (w.slideBy k).buffer = shifted w.buffer k Frame.zero := rfl
@[simp] theorem ReceiverWindow.slideBy_present : (w.slideBy k).present = shifted w.present k false := rfl
end slideBy

section store
variable (w : ReceiverWindow) (i : Fin 8) (f : Frame)
@[simp] theorem ReceiverWindow.store_left : (w.store i f).left = w.left := rfl
theorem ReceiverWindow.getElem_store_buffer {j : Nat} (hj : j < 8) :
    (w.store i f).buffer[j] = if i.val = j then f else w.buffer[j] := by
  simp [ReceiverWindow.store, Vector.getElem_set]
theorem ReceiverWindow.getElem_store_present {j : Nat} (hj : j < 8) :
    (w.store i f).present[j] = if i.val = j then true else w.present[j] := by
  simp [ReceiverWindow.store, Vector.getElem_set]
end store

/-- R316: after the scan's slide slot 0 is empty. -/
theorem ReceiverWindow.slideBy_run_base (w : ReceiverWindow) : (w.slideBy w.run).present[0] = false := by
  have h := w.run_le_eight
  rw [ReceiverWindow.slideBy_present, getElem_shifted _ _ _ (by omega)]
  by_cases h8 : w.run < 8
  · rw [dif_pos (by omega)]
    have := w.not_present_run h8
    simpa using this
  · rw [dif_neg (by omega)]

theorem inner_deliveryScan (p : Byte) (s : State) : Inner s (deliveryScan p s).state :=
  inner_andThen (inner_reassembleAll p _ s) fun t => by
    split
    · exact inner_setReceiver t p _
    · exact Inner.refl t

/-- PLACE's three ends, each after the ack where one is due (R310 to R312). -/
theorem place_cases (p : Byte) (f : Frame) (s : State) :
    let w := s.receiver p
    let u := if ackDue f.seq w.left then s.append [mkAck s.cfg p f.seq] else s
    (8 ≤ (slotIndex f.seq w.left).toNat ∧ place p f s = .ok (u.drop .dataOutOfWindow p f.seq)) ∨
    ∃ i : Fin 8, (slotIndex f.seq w.left).toNat = i.val ∧
      ((w.present[i] = true ∧ place p f s = .ok (u.drop .dataDuplicate p f.seq)) ∨
       (w.present[i] = false ∧ place p f s = deliveryScan p (u.setReceiver p (w.store i f)))) := by
  simp only [place]
  cases h : slotOf (slotIndex f.seq (s.receiver p).left) with
  | none => exact .inl ⟨slotOf_eq_none_iff.mp h, rfl⟩
  | some i =>
    refine .inr ⟨i, slotOf_eq_some_iff.mp h, ?_⟩
    cases hp : (s.receiver p).present[i] <;> simp_all

theorem inner_ackIfDue (c : Bool) (g : Frame) (s : State) : Inner s (if c then s.append [g] else s) := by
  split
  · exact inner_append s _
  · exact Inner.refl s

theorem inner_place (p : Byte) (f : Frame) (s : State) : Inner s (place p f s).state := by
  have hu := inner_ackIfDue (ackDue f.seq (s.receiver p).left) (mkAck s.cfg p f.seq) s
  rcases place_cases p f s with ⟨_, h⟩ | ⟨i, _, ⟨_, h⟩ | ⟨_, h⟩⟩ <;> rw [h]
  · exact hu.trans (inner_drop _ _ _ _)
  · exact hu.trans (inner_drop _ _ _ _)
  · exact hu.trans ((inner_setReceiver _ _ _).trans (inner_deliveryScan _ _))

/-- R161, R164: an ack is due exactly for the slots of the window and the `W` numbers just below it. -/
theorem ackDue_iff {n base : Byte} :
    ackDue n base = true ↔ (slotIndex n base).toNat < 8 ∨ 248 ≤ (slotIndex n base).toNat := by
  simp [ackDue, inWindow, justBehind]

end Sys2Proof.Machine
end

