-- ==== Sys2Proof/Laws/Sender.lean ====
section
/-! SUPPORT. What the operations of the sender window can do, said once each. -/

namespace Sys2Proof.Machine
open Sys2Proof

/-! ## Slides -/

section slideBy
variable (w : SenderWindow) (k : Nat)
@[simp] theorem SenderWindow.slideBy_left : (w.slideBy k).left = advance w.left k := rfl
@[simp] theorem SenderWindow.slideBy_firstFree : (w.slideBy k).firstFree = w.firstFree - k := rfl
@[simp] theorem SenderWindow.slideBy_buffer : (w.slideBy k).buffer = shifted w.buffer k Frame.zero := rfl
@[simp] theorem SenderWindow.slideBy_acked : (w.slideBy k).acked = shifted w.acked k false := rfl
@[simp] theorem SenderWindow.slideBy_expiry : (w.slideBy k).expiry = shifted w.expiry k 0 := rfl
@[simp] theorem SenderWindow.slideBy_pending : (w.slideBy k).pending = w.pending := rfl
end slideBy

/-- A slide by the ack run is the slide by that many slots, 0 included. -/
theorem SenderWindow.slide_eq (w : SenderWindow) : w.slide = w.slideBy w.ackRun := by
  unfold SenderWindow.slide
  split
  · rename_i h; simp [h, SenderWindow.slideBy]
  · rfl

section record
variable (w : SenderWindow) (i : Fin 8)
@[simp] theorem SenderWindow.record_left : (w.record i).left = w.left := rfl
@[simp] theorem SenderWindow.record_firstFree : (w.record i).firstFree = w.firstFree := rfl
@[simp] theorem SenderWindow.record_buffer : (w.record i).buffer = w.buffer := rfl
@[simp] theorem SenderWindow.record_expiry : (w.record i).expiry = w.expiry := rfl
@[simp] theorem SenderWindow.record_pending : (w.record i).pending = w.pending := rfl
theorem SenderWindow.getElem_record_acked {j : Nat} (hj : j < 8) :
    (w.record i).acked[j] = if i.val = j then true else w.acked[j] := by
  simp [SenderWindow.record, Vector.getElem_set]
end record

/-- R64, C7: after a slide slot 0 is not acked while it is in use. -/
theorem SenderWindow.slide_base (w : SenderWindow) :
    w.slide.firstFree = 0 ∨ w.slide.acked[0] = false := by
  rw [SenderWindow.slide_eq]
  have h1 := w.ackRun_le_firstFree
  have h2 := w.ackRun_le_eight
  by_cases hf : w.ackRun = w.firstFree
  · left; simp [hf]
  · right
    rw [SenderWindow.slideBy_acked, getElem_shifted _ _ _ (by omega)]
    by_cases h8 : w.ackRun < 8
    · rw [dif_pos (by omega)]
      have := w.not_acked_ackRun (by omega) h8
      simpa using this
    · rw [dif_neg (by omega)]

/-! ## Inversions -/

/-- ENQUEUE goes on by appending, or raises PENDING_OVERFLOW having changed nothing. -/
theorem enqueue_cases (p : Byte) (f : Frame) (s : State) :
    ((s.sender p).pending.length < s.cfg.pendingDepth ∧
      enqueue p f s = .ok (s.setSender p { s.sender p with pending := (s.sender p).pending ++ [f] })) ∨
    (s.cfg.pendingDepth ≤ (s.sender p).pending.length ∧ enqueue p f s = .fatal .pendingOverflow s) := by
  simp only [enqueue]
  split
  · exact .inr ⟨‹_›, rfl⟩
  · exact .inl ⟨by omega, rfl⟩

/-- ON_ACK drops an ack outside the window, or records it and slides. -/
theorem onAck_cases (p a : Byte) (s : State) :
    (8 ≤ (slotIndex a (s.sender p).left).toNat ∧ onAck p a s = .ok (s.drop .ackOutOfWindow p a)) ∨
    ∃ i : Fin 8, (slotIndex a (s.sender p).left).toNat = i.val ∧
      onAck p a s = .ok (s.setSender p ((s.sender p).record i).slide) := by
  simp only [onAck]
  cases h : slotOf (slotIndex a (s.sender p).left) with
  | none => exact .inl ⟨slotOf_eq_none_iff.mp h, rfl⟩
  | some i => exact .inr ⟨i, slotOf_eq_some_iff.mp h, rfl⟩

/-- CHECK_TIMEOUTS re-arms and sends again, or does nothing, or raises TIME_OVERFLOW. -/
theorem checkTimeouts_cases (p : Byte) (s : State) :
    (∃ e, addTime s.tNow s.cfg.rto = some e ∧
      checkTimeouts p s =
        .ok ((s.setSender p ((s.sender p).rearmed s.tNow e)).append ((s.sender p).expired s.tNow))) ∨
    (addTime s.tNow s.cfg.rto = none ∧ (s.sender p).expired s.tNow = [] ∧ checkTimeouts p s = .ok s) ∨
    ∃ f fs, addTime s.tNow s.cfg.rto = none ∧ (s.sender p).expired s.tNow = f :: fs ∧
      checkTimeouts p s = .fatal .timeOverflow (s.append [f]) := by
  simp only [checkTimeouts]
  cases h : addTime s.tNow s.cfg.rto with
  | some e => exact .inl ⟨e, rfl, rfl⟩
  | none =>
    cases h' : (s.sender p).expired s.tNow with
    | nil => exact .inr (.inl ⟨rfl, rfl, rfl⟩)
    | cons f fs => exact .inr (.inr ⟨f, fs, rfl, rfl, rfl⟩)

/-! ## Admission -/

/-- `admit` goes on exactly where the loop did not overflow. -/
theorem admit_cases (p : Byte) (s : State) :
    let w := s.sender p
    let a := admitLoop s.cfg.crcInit (addTime s.tNow s.cfg.rto) w.pending w
    (a.overflow = false ∧ admitPending p s = .ok ((s.setSender p a.window).append a.sent)) ∨
    (a.overflow = true ∧ admitPending p s = .fatal .timeOverflow ((s.setSender p a.window).append a.sent)) := by
  simp only [admitPending]
  split
  · exact .inr ⟨‹_›, rfl⟩
  · rename_i h
    exact .inl ⟨Bool.eq_false_iff.mpr h, rfl⟩

/-- R263: one call admits at most the free slots, and sends as many frames as it admits. -/
theorem admitLoop_counts (init : BitVec 16) (t : Time) (q : List Frame) (w : SenderWindow) :
    let a := admitLoop init (some t) q w
    a.overflow = false ∧ a.window.firstFree = w.firstFree + min (8 - w.firstFree) q.length ∧
    a.sent.length = min (8 - w.firstFree) q.length ∧ a.window.left = w.left := by
  induction q generalizing w with
  | nil => simp [admitLoop]
  | cons f rest ih =>
    simp only [admitLoop]
    split
    · rename_i h
      obtain ⟨h1, h2, h3, h4⟩ := ih
        { w with
          pending := rest, buffer := w.buffer.set w.firstFree (w.stamped init f) h,
          acked := w.acked.set w.firstFree false h, expiry := w.expiry.set w.firstFree t h,
          firstFree := w.firstFree + 1 }
      simp only at h2 h3 h4
      simp only [List.length_cons]
      exact ⟨h1, by omega, by omega, h4⟩
    · rename_i h
      simp; omega

/-- A call with `T + RTO` overflowing stops at its first admission, having sent nothing. -/
theorem admitLoop_none_sent (init : BitVec 16) (q : List Frame) (w : SenderWindow) :
    (admitLoop init none q w).sent = [] := by
  cases q with
  | nil => rfl
  | cons f rest => simp only [admitLoop]; split <;> rfl

/-- R272's bound: a call sends again at most one frame per slot. -/
theorem SenderWindow.length_expired_le (w : SenderWindow) (t : Time) : (w.expired t).length ≤ 8 := by
  have := List.length_filter_le (w.fires t) (List.finRange 8)
  simpa [SenderWindow.expired, SenderWindow.firing] using this

/-! ## What stays -/

theorem inner_enqueue (p : Byte) (f : Frame) (s : State) : Inner s (enqueue p f s).state := by
  rcases enqueue_cases p f s with ⟨_, h⟩ | ⟨_, h⟩ <;> rw [h]
  · exact inner_setSender s p _
  · exact Inner.refl s

theorem inner_admit (p : Byte) (s : State) : Inner s (admitPending p s).state := by
  rcases admit_cases p s with ⟨_, h⟩ | ⟨_, h⟩ <;> rw [h] <;>
    exact (inner_setSender s p _).trans (inner_append _ _)

theorem inner_onAck (p a : Byte) (s : State) : Inner s (onAck p a s).state := by
  rcases onAck_cases p a s with ⟨_, h⟩ | ⟨i, _, h⟩ <;> rw [h]
  · exact inner_drop s _ _ _
  · exact inner_setSender s p _

theorem inner_slideTx (p : Byte) (s : State) : Inner s (slideTx p s).state := inner_setSender s p _

theorem inner_checkTimeouts (p : Byte) (s : State) : Inner s (checkTimeouts p s).state := by
  rcases checkTimeouts_cases p s with ⟨e, _, h⟩ | ⟨_, _, h⟩ | ⟨f, fs, _, _, h⟩ <;> rw [h]
  · exact (inner_setSender s p _).trans (inner_append _ _)
  · exact Inner.refl s
  · exact inner_append s _

end Sys2Proof.Machine
end

