-- ==== Sys2Proof/Laws/Loop.lean ====
section
/-! SUPPORT. What the router, the loop steps and a step of the machine can do, said once each. -/

namespace Sys2Proof.Machine
open Sys2Proof

/-! ## Router -/

/-- A frame or ack that was accepted or dropped changes only what a part of a step may. -/
theorem inner_acceptData (f : Frame) (s : State) : Inner s (acceptData f s).state := by
  unfold acceptData
  split
  · exact inner_drop s _ _ _
  · exact inner_place _ _ s

theorem inner_acceptAck (f : Frame) (s : State) : Inner s (acceptAck f s).state := by
  unfold acceptAck
  split
  · exact inner_drop s _ _ _
  · exact inner_onAck _ _ s

theorem inner_routeFrame (f : Frame) (s : State) : Inner s (routeFrame f s).state := by
  unfold routeFrame
  split
  · exact inner_drop s _ _ _
  · split
    · exact inner_acceptAck f s
    · exact inner_acceptData f s

theorem inner_processCmd (c : Command) (s : State) : Inner s (processCmd c s).state := by
  unfold processCmd
  split
  · exact inner_drop s _ _ _
  · exact inner_forEach (fun f _ s => inner_enqueue _ f s) s

theorem addressFault_eq_none {cfg : Config} {f : Frame} :
    addressFault cfg f = none ↔ f.dst = cfg.selfId ∧ f.src.toNat < cfg.peerCount ∧ f.src ≠ cfg.selfId := by
  unfold addressFault
  split
  · simp_all
  · split
    · rename_i h; simp; rintro - h1; rcases h with h | h
      · omega
      · exact h
    · rename_i h h'; push Not at h'; simp_all

/-! ## Loop steps -/

theorem inner_drainFrames (q : List Frame) (s : State) : Inner s (drainFrames q s).state := by
  induction q generalizing s with
  | nil => exact Inner.refl s
  | cons f rest ih => exact inner_andThen ((inner_rxq s rest).trans (inner_routeFrame f _)) ih

theorem inner_drainCmds (q : List Command) (s : State) : Inner s (drainCmds q s).state := by
  induction q generalizing s with
  | nil => exact Inner.refl s
  | cons c rest ih => exact inner_andThen ((inner_cmdq s rest).trans (inner_processCmd c _)) ih

/-- A predicate that popping and routing keep holds after the frames are drained. -/
theorem drainFrames_ok_keeps {P : State → Prop} (hpop : ∀ s q, P s → P { s with rxq := q })
    (hroute : ∀ f s t, P s → routeFrame f s = .ok t → P t) {q : List Frame} {s t : State} (hs : P s)
    (ht : drainFrames q s = .ok t) : P t := by
  induction q generalizing s with
  | nil => simp only [drainFrames, Run.ok.injEq] at ht; exact ht ▸ hs
  | cons f rest ih =>
    rw [drainFrames, andThen_eq_ok] at ht
    obtain ⟨u, hu, ht⟩ := ht
    exact ih (hroute f _ u (hpop s rest hs) hu) ht

/-- The same for the commands. -/
theorem drainCmds_ok_keeps {P : State → Prop} (hpop : ∀ s q, P s → P { s with cmdq := q })
    (hproc : ∀ c s t, P s → processCmd c s = .ok t → P t) {q : List Command} {s t : State} (hs : P s)
    (ht : drainCmds q s = .ok t) : P t := by
  induction q generalizing s with
  | nil => simp only [drainCmds, Run.ok.injEq] at ht; exact ht ▸ hs
  | cons c rest ih =>
    rw [drainCmds, andThen_eq_ok] at ht
    obtain ⟨u, hu, ht⟩ := ht
    exact ih (hproc c _ u (hpop s rest hs) hu) ht

/-- R355: a `DRAIN` step that goes on is its three loops, then the move to `TIMEOUTS`. -/
theorem drain_eq_ok {s t : State} (h : drain s = .ok t) :
    ∃ a b c, drainFrames s.rxq s = .ok a ∧ drainCmds a.cmdq a = .ok b ∧
      forEach admitPending (peersOf b.cfg) b = .ok c ∧ t = c.goto .timeouts := by
  simp only [drain, andThen_eq_ok, Run.ok.injEq] at h
  obtain ⟨a, ha, b, hb, c, hc, rfl⟩ := h
  exact ⟨a, b, c, ha, hb, hc, rfl⟩

theorem timeouts_eq_ok {s t : State} (h : timeouts s = .ok t) :
    ∃ c, forEach checkTimeouts (peersOf s.cfg) s = .ok c ∧ t = c.goto .transmit := by
  simp only [timeouts, andThen_eq_ok, Run.ok.injEq] at h
  obtain ⟨c, hc, rfl⟩ := h
  exact ⟨c, hc, rfl⟩

/-- R352: `earliest` answers a member not above any member. -/
theorem earliest_spec {ts : List Time} {t : Time} (h : earliest ts = some t) : t ∈ ts ∧ ∀ u ∈ ts, t ≤ u := by
  induction ts generalizing t with
  | nil => simp [earliest] at h
  | cons a ts ih =>
    simp only [earliest] at h
    cases hm : earliest ts with
    | none =>
      rw [hm] at h
      simp only [Option.some.injEq] at h
      subst h
      cases ts with
      | nil => simp
      | cons b ts => simp only [earliest] at hm; split at hm <;> simp at hm
    | some m =>
      rw [hm] at h
      obtain ⟨hmem, hle⟩ := ih hm
      simp only [Option.some.injEq] at h
      split at h
      · rename_i ham
        subst h
        exact ⟨by simp, by
          intro u hu
          rcases List.mem_cons.mp hu with rfl | hu
          · exact BitVec.le_refl _
          · exact BitVec.le_trans ham (hle u hu)⟩
      · rename_i ham
        subst h
        refine ⟨by simp [hmem], ?_⟩
        intro u hu
        rcases List.mem_cons.mp hu with rfl | hu
        · simp only [BitVec.le_def] at ham ⊢; omega
        · exact hle u hu

theorem earliest_eq_none {ts : List Time} : earliest ts = none ↔ ts = [] := by
  cases ts with
  | nil => simp [earliest]
  | cons a ts => simp only [earliest]; split <;> simp

/-! ## Steps -/

/-- One step: the worker's, an outside agent's, or the fetch of one operation. -/
theorem step_cases (s : State) :
    (s.agenda = [] ∧ step s = workerStep s) ∨
    ∃ e rest, s.agenda = e :: rest ∧
      ((e = .worker ∧ step s = workerStep { s with agenda := rest }) ∨
       (∃ t, e = .now t ∧ step s = driveNow t { s with agenda := rest }) ∨
       (∃ b, e = .txReady b ∧ step s = driveTxReady b { s with agenda := rest }) ∨
       (∃ fmt bytes i more, e = .fetch fmt bytes ∧ decode s.cfg.crcInit fmt bytes = .instr i more ∧
          step s = exec i { s with agenda := rest }) ∨
       (∃ fmt bytes r, e = .fetch fmt bytes ∧ decode s.cfg.crcInit fmt bytes = .reject r ∧
          step s = rejectFetch r { s with agenda := rest })) := by
  unfold step
  cases h : s.agenda with
  | nil => exact .inl ⟨rfl, rfl⟩
  | cons e rest =>
    refine .inr ⟨e, rest, rfl, ?_⟩
    cases e with
    | worker => exact .inl ⟨rfl, rfl⟩
    | now t => exact .inr (.inl ⟨t, rfl, rfl⟩)
    | txReady b => exact .inr (.inr (.inl ⟨b, rfl, rfl⟩))
    | fetch fmt bytes =>
      cases hd : decode s.cfg.crcInit fmt bytes with
      | instr i more => exact .inr (.inr (.inr (.inl ⟨fmt, bytes, i, more, rfl, hd, by simp [hd]⟩)))
      | reject r => exact .inr (.inr (.inr (.inr ⟨fmt, bytes, r, rfl, hd, by simp [hd]⟩)))

/-- The worker's step outside `TIMEOUTS` and `FATAL` is the operation of its phase. -/
theorem workerStep_eq_exec {s : State} :
    (s.phase = .sample → workerStep s = exec .sample s) ∧
    (s.phase = .arbitrate → workerStep s = exec .arbitrate s) ∧
    (s.phase = .wait → workerStep s = exec .wait s) ∧
    (s.phase = .drain → workerStep s = exec .drain s) ∧
    (s.phase = .timeouts → workerStep s = timeoutsStep s) ∧
    (s.phase = .transmit → workerStep s = exec .transmit s) ∧
    (s.phase = .fatal → workerStep s = .next s) := by
  refine ⟨?_, ?_, ?_, ?_, ?_, ?_, ?_⟩ <;> intro h <;> simp only [workerStep, h] <;> rfl

end Sys2Proof.Machine
end

