-- ==== Sys2Proof/Laws/PerInstr.lean ====
section
/-! SUPPORT. One law per instruction: its encoding begins with the code of spec/opcode_table.json, or is
a whole frame. -/

namespace Sys2Proof.Laws.Encoding
open Sys2Proof

/-- The 5-bit code of R140; a frame kind has none. -/
def tableCode : Instr → Option Nat
  | .dataMiddle _ | .dataHead _ | .dataTail _ | .dataUnseg _ | .ack _ => none
  | .rxPush _ => some 1
  | .cmdPush _ => some 2
  | .sample => some 3
  | .arbitrate => some 4
  | .wait => some 5
  | .drain => some 6
  | .routeFrame _ => some 7
  | .processCmd _ => some 8
  | .segment _ _ => some 9
  | .enqueue _ _ => some 10
  | .admitFrames _ => some 11
  | .onAck _ _ => some 12
  | .slideTx _ => some 13
  | .checkTimeouts _ => some 14
  | .place _ _ => some 15
  | .genAck _ _ => some 16
  | .deliveryScan _ => some 17
  | .reassemble _ _ => some 18
  | .computeFcs _ => some 19
  | .isCorrupted _ => some 20
  | .transmit => some 21
  | .reset => some 22
  | .slotIndex _ _ => some 23

/-- The format and the first byte of the encoding are those of the instruction's table row, and a frame
kind's encoding is 64 bytes (R130). -/
def Statement (i : Instr) : Prop :=
  match tableCode i with
  | some c => i.format = .op ∧ (encode i).head? = some (BitVec.ofNat 8 c)
  | none => i.format = .frame ∧ (encode i).length = 64

theorem dataMiddle (f : Frame) : Statement (.dataMiddle f) := ⟨rfl, f.size_toArray⟩
theorem dataHead (f : Frame) : Statement (.dataHead f) := ⟨rfl, f.size_toArray⟩
theorem dataTail (f : Frame) : Statement (.dataTail f) := ⟨rfl, f.size_toArray⟩
theorem dataUnseg (f : Frame) : Statement (.dataUnseg f) := ⟨rfl, f.size_toArray⟩
theorem ack (f : Frame) : Statement (.ack f) := ⟨rfl, f.size_toArray⟩
theorem rxPush (f : Frame) : Statement (.rxPush f) := ⟨rfl, rfl⟩
theorem cmdPush (c : Command) : Statement (.cmdPush c) := ⟨rfl, rfl⟩
theorem sample : Statement .sample := ⟨rfl, rfl⟩
theorem arbitrate : Statement .arbitrate := ⟨rfl, rfl⟩
theorem wait : Statement .wait := ⟨rfl, rfl⟩
theorem drain : Statement .drain := ⟨rfl, rfl⟩
theorem routeFrame (f : Frame) : Statement (.routeFrame f) := ⟨rfl, rfl⟩
theorem processCmd (c : Command) : Statement (.processCmd c) := ⟨rfl, rfl⟩
theorem segment (dst : Byte) (text : List Byte) : Statement (.segment dst text) := ⟨rfl, rfl⟩
theorem enqueue (p : Byte) (f : Frame) : Statement (.enqueue p f) := ⟨rfl, rfl⟩
theorem admitFrames (p : Byte) : Statement (.admitFrames p) := ⟨rfl, rfl⟩
theorem onAck (p a : Byte) : Statement (.onAck p a) := ⟨rfl, rfl⟩
theorem slideTx (p : Byte) : Statement (.slideTx p) := ⟨rfl, rfl⟩
theorem checkTimeouts (p : Byte) : Statement (.checkTimeouts p) := ⟨rfl, rfl⟩
theorem place (p : Byte) (f : Frame) : Statement (.place p f) := ⟨rfl, rfl⟩
theorem genAck (p n : Byte) : Statement (.genAck p n) := ⟨rfl, rfl⟩
theorem deliveryScan (p : Byte) : Statement (.deliveryScan p) := ⟨rfl, rfl⟩
theorem reassemble (p : Byte) (f : Frame) : Statement (.reassemble p f) := ⟨rfl, rfl⟩
theorem computeFcs (f : Frame) : Statement (.computeFcs f) := ⟨rfl, rfl⟩
theorem isCorrupted (f : Frame) : Statement (.isCorrupted f) := ⟨rfl, rfl⟩
theorem transmit : Statement .transmit := ⟨rfl, rfl⟩
theorem reset : Statement .reset := ⟨rfl, rfl⟩
theorem slotIndex (n base : Byte) : Statement (.slotIndex n base) := ⟨rfl, rfl⟩

end Sys2Proof.Laws.Encoding
end

