-- ==== Sys2Proof/Laws/Queues.lean ====
section
/-! SUPPORT. The parts of a `DRAIN` step neither read nor write `rxq` and `cmdq`: they commute with any
change of the two. And what operations executed in order end in. -/

namespace Sys2Proof.Machine
open Sys2Proof

/-! ## Commuting with a change of the queues -/

/-- `s` with other queues. -/
def State.withQueues (s : State) (q : List Frame) (c : List Command) : State := { s with rxq := q, cmdq := c }

/-- The same end, with `g` applied to its state. -/
def Run.map (g : State → State) : Run → Run
  | .ok s => .ok (g s)
  | .fatal c s => .fatal c (g s)

@[simp] theorem map_ok (g : State → State) (s : State) : (Run.ok s).map g = .ok (g s) := rfl
@[simp] theorem map_fatal (g : State → State) (c : FatalCode) (s : State) :
    (Run.fatal c s).map g = .fatal c (g s) := rfl

theorem andThen_map {g : State → State} {k : State → Run} (h : ∀ t, k (g t) = (k t).map g) (r : Run) :
    (r.map g).andThen k = (r.andThen k).map g := by
  cases r <;> simp [h]

theorem forEach_map {α : Type} {g : State → State} {body : α → State → Run}
    (h : ∀ x t, body x (g t) = (body x t).map g) (xs : List α) (s : State) :
    forEach body xs (g s) = (forEach body xs s).map g := by
  induction xs generalizing s with
  | nil => rfl
  | cons x xs ih => rw [forEach_cons, forEach_cons, h, andThen_map ih]

section withQueues
variable (q : List Frame) (c : List Command)

theorem reassemble_withQueues (p : Byte) (f : Frame) (s : State) :
    reassemble p f (s.withQueues q c) = (reassemble p f s).map (·.withQueues q c) := by
  have hr : (s.withQueues q c).reasm p = s.reasm p := rfl
  have hc : (s.withQueues q c).cfg = s.cfg := rfl
  unfold reassemble
  simp only [hr, hc]
  cases f.role <;> simp only <;> split <;> first | rfl | (split <;> rfl)

theorem deliveryScan_withQueues (p : Byte) (s : State) :
    deliveryScan p (s.withQueues q c) = (deliveryScan p s).map (·.withQueues q c) := by
  have hr : (s.withQueues q c).receiver p = s.receiver p := rfl
  unfold deliveryScan
  simp only [hr]
  rw [forEach_map (g := (·.withQueues q c)) (reassemble_withQueues q c p)]
  refine andThen_map (g := (·.withQueues q c)) (fun t => ?_) _
  split <;> rfl

theorem place_withQueues (p : Byte) (f : Frame) (s : State) :
    place p f (s.withQueues q c) = (place p f s).map (·.withQueues q c) := by
  have hr : (s.withQueues q c).receiver p = s.receiver p := rfl
  have hc : (s.withQueues q c).cfg = s.cfg := rfl
  unfold place
  simp only [hr, hc]
  cases ackDue f.seq (s.receiver p).left <;> cases slotOf (slotIndex f.seq (s.receiver p).left) <;>
    simp only [Bool.false_eq_true, if_false, if_true]
  · rfl
  · split
    · rfl
    · exact deliveryScan_withQueues q c p (s.setReceiver p _)
  · rfl
  · split
    · rfl
    · exact deliveryScan_withQueues q c p ((s.append _).setReceiver p _)

theorem onAck_withQueues (p a : Byte) (s : State) :
    onAck p a (s.withQueues q c) = (onAck p a s).map (·.withQueues q c) := by
  have hr : (s.withQueues q c).sender p = s.sender p := rfl
  unfold onAck
  simp only [hr]
  split <;> rfl

theorem routeFrame_withQueues (f : Frame) (s : State) :
    routeFrame f (s.withQueues q c) = (routeFrame f s).map (·.withQueues q c) := by
  have hc : (s.withQueues q c).cfg = s.cfg := rfl
  unfold routeFrame acceptAck acceptData
  simp only [hc]
  split
  · rfl
  · split
    · split
      · rfl
      · exact onAck_withQueues q c _ _ s
    · split
      · rfl
      · exact place_withQueues q c _ _ s

theorem enqueue_withQueues (p : Byte) (f : Frame) (s : State) :
    enqueue p f (s.withQueues q c) = (enqueue p f s).map (·.withQueues q c) := by
  have hr : (s.withQueues q c).sender p = s.sender p := rfl
  have hc : (s.withQueues q c).cfg = s.cfg := rfl
  unfold enqueue
  simp only [hr, hc]
  split <;> rfl

theorem processCmd_withQueues (d : Command) (s : State) :
    processCmd d (s.withQueues q c) = (processCmd d s).map (·.withQueues q c) := by
  have hc : (s.withQueues q c).cfg = s.cfg := rfl
  unfold processCmd
  simp only [hc]
  split
  · rfl
  · exact forEach_map (g := (·.withQueues q c)) (enqueue_withQueues q c d.dst) _ s

theorem admitPending_withQueues (p : Byte) (s : State) :
    admitPending p (s.withQueues q c) = (admitPending p s).map (·.withQueues q c) := by
  have hr : (s.withQueues q c).sender p = s.sender p := rfl
  have hc : (s.withQueues q c).cfg = s.cfg := rfl
  have ht : (s.withQueues q c).tNow = s.tNow := rfl
  unfold admitPending
  simp only [hr, hc, ht]
  split <;> rfl

end withQueues

/-- What commutes with every change of the queues leaves them as they are. -/
theorem queues_of_withQueues {body : State → Run}
    (h : ∀ q c t, body (t.withQueues q c) = (body t).map (·.withQueues q c)) (s : State) :
    (body s).state.rxq = s.rxq ∧ (body s).state.cmdq = s.cmdq := by
  have e := h s.rxq s.cmdq s
  have e' : s.withQueues s.rxq s.cmdq = s := rfl
  rw [e'] at e
  cases hb : body s with
  | ok t => rw [hb] at e; simp only [map_ok, Run.ok.injEq] at e; rw [Run.state, e]; exact ⟨rfl, rfl⟩
  | fatal d t => rw [hb] at e; simp only [map_fatal, Run.fatal.injEq] at e; rw [Run.state, e.2]; exact ⟨rfl, rfl⟩

/-- R355's first loop is routing in order, but for the queues. -/
theorem drainFrames_map (xs : List Frame) (q : List Frame) (c : List Command) (s : State) :
    (drainFrames xs s).map (·.withQueues q c) = forEach routeFrame xs (s.withQueues q c) := by
  induction xs generalizing s with
  | nil => rfl
  | cons f rest ih =>
    have e : s.withQueues q c = State.withQueues { s with rxq := rest } q c := rfl
    rw [drainFrames, forEach_cons, e, routeFrame_withQueues]
    cases routeFrame f { s with rxq := rest } with
    | ok t => simp [ih]
    | fatal d t => rfl

/-- R355's second loop is processing in order, but for the queues. -/
theorem drainCmds_map (xs : List Command) (q : List Frame) (c : List Command) (s : State) :
    (drainCmds xs s).map (·.withQueues q c) = forEach processCmd xs (s.withQueues q c) := by
  induction xs generalizing s with
  | nil => rfl
  | cons d rest ih =>
    have e : s.withQueues q c = State.withQueues { s with cmdq := rest } q c := rfl
    rw [drainCmds, forEach_cons, e, processCmd_withQueues]
    cases processCmd d { s with cmdq := rest } with
    | ok t => simp [ih]
    | fatal d t => rfl

/-- After the first loop goes on `rxq` is empty and `cmdq` as before. -/
theorem drainFrames_queues {xs : List Frame} {s t : State} (hs : s.rxq = xs) (h : drainFrames xs s = .ok t) :
    t.rxq = [] ∧ t.cmdq = s.cmdq := by
  induction xs generalizing s with
  | nil => simp only [drainFrames, Run.ok.injEq] at h; exact ⟨h ▸ hs, h ▸ rfl⟩
  | cons f rest ih =>
    rw [drainFrames, andThen_eq_ok] at h
    obtain ⟨u, hu, h⟩ := h
    have hq := queues_of_withQueues (fun q c t => routeFrame_withQueues q c f t) { s with rxq := rest }
    rw [hu] at hq
    obtain ⟨h1, h2⟩ := ih hq.1 h
    exact ⟨h1, h2.trans hq.2⟩

/-- After the second loop goes on `cmdq` is empty and `rxq` as before. -/
theorem drainCmds_queues {xs : List Command} {s t : State} (hs : s.cmdq = xs) (h : drainCmds xs s = .ok t) :
    t.cmdq = [] ∧ t.rxq = s.rxq := by
  induction xs generalizing s with
  | nil => simp only [drainCmds, Run.ok.injEq] at h; exact ⟨h ▸ hs, h ▸ rfl⟩
  | cons d rest ih =>
    rw [drainCmds, andThen_eq_ok] at h
    obtain ⟨u, hu, h⟩ := h
    have hq := queues_of_withQueues (fun q c t => processCmd_withQueues q c d t) { s with cmdq := rest }
    rw [hu] at hq
    obtain ⟨h1, h2⟩ := ih hq.2 h
    exact ⟨h1, h2.trans hq.1⟩

/-! ## Operations executed in order -/

theorem execAll_append (is js : List Instr) (s : State) :
    execAll (is ++ js) s = match execAll is s with
      | .next t => execAll js t
      | stop => stop := by
  induction is generalizing s with
  | nil => rfl
  | cons i is ih =>
    simp only [List.cons_append, execAll]
    cases exec i s <;> simp [ih]

/-- Operations that do nothing in `FATAL` do nothing there in any number. -/
theorem execAll_fatal {is : List Instr} (h : ∀ i ∈ is, i ≠ .reset) {s : State} (hs : s.phase = .fatal) :
    execAll is s = .next s := by
  induction is with
  | nil => rfl
  | cons i is ih =>
    have hi : exec i s = .next s := by
      have := h i (by simp)
      cases i <;> first
        | exact absurd rfl this
        | simp only [exec]; exact inPhase_of_ne (by rw [hs]; decide) _
        | simp only [exec]; exact if_pos hs
    simp only [execAll, hi]
    exact ih fun j hj => h j (by simp [hj])

/-- Operations each of which commits one part of a `DRAIN` step end, executed in order, as the loop over the
parts does: in its state, or in `FATAL` with its code and logs. -/
theorem execAll_forEach {α : Type} {op : α → Instr} {body : α → State → Run} {xs : List α} {cfg : Config}
    (hop : ∀ x ∈ xs, op x ≠ .reset)
    (hexec : ∀ x ∈ xs, ∀ s, s.phase = .drain → s.cfg = cfg → exec (op x) s = (body x s).commit)
    (hin : ∀ x ∈ xs, ∀ s, Inner s (body x s).state) {s : State} (hp : s.phase = .drain) (hc : s.cfg = cfg) :
    (∀ t, forEach body xs s = .ok t → execAll (xs.map op) s = .next t) ∧
    (∀ c t, forEach body xs s = .fatal c t → execAll (xs.map op) s = .next (raiseFatal c t)) := by
  induction xs generalizing s with
  | nil => simp [execAll]
  | cons x xs ih =>
    have hx := hexec x (by simp) s hp hc
    have hi := hin x (by simp) s
    simp only [forEach_cons, List.map_cons, execAll, hx]
    cases hb : body x s with
    | ok u =>
      rw [hb] at hi
      exact ih (fun y hy => hop y (by simp [hy])) (fun y hy => hexec y (by simp [hy]))
        (fun y hy => hin y (by simp [hy])) (hi.phase.trans hp) (hi.cfg.trans hc)
    | fatal c u =>
      refine ⟨by simp, fun c' t h => ?_⟩
      simp only [andThen_fatal, Run.fatal.injEq] at h
      obtain ⟨rfl, rfl⟩ := h
      refine execAll_fatal (fun i hi => ?_) rfl
      obtain ⟨y, hy, rfl⟩ := List.mem_map.mp hi
      exact hop y (by simp [hy])

/-! ## What a `DRAIN` step is, and what its parts append to the batch -/

/-- A `DRAIN` step is the loops over its frames, its commands and the peers, from the state with both queues
empty, and then the move to `TIMEOUTS`. -/
theorem drain_parts (s : State) :
    ((∀ t, drain s = .ok t → ∃ a b c, forEach routeFrame s.rxq (s.withQueues [] []) = .ok a ∧
        forEach processCmd s.cmdq a = .ok b ∧ forEach admitPending (peersOf s.cfg) b = .ok c ∧
        t = c.goto .timeouts) ∧
     (∀ d t, drain s = .fatal d t →
        ((forEach routeFrame s.rxq (s.withQueues [] [])).andThen fun a => (forEach processCmd s.cmdq a).andThen
           fun b => forEach admitPending (peersOf s.cfg) b) = .fatal d (t.withQueues [] []))) := by
  have e1 := drainFrames_map s.rxq [] [] s
  cases h1 : drainFrames s.rxq s with
  | fatal d u =>
    rw [h1] at e1
    constructor
    · intro t ht; simp [drain, h1] at ht
    · intro d' t ht
      simp [drain, h1] at ht
      obtain ⟨rfl, rfl⟩ := ht
      rw [← e1]; rfl
  | ok a =>
    rw [h1] at e1
    obtain ⟨ha1, ha2⟩ := drainFrames_queues rfl h1
    have hia := inner_drainFrames s.rxq s
    rw [h1] at hia
    have e2 := drainCmds_map a.cmdq [] [] a
    cases h2 : drainCmds a.cmdq a with
    | fatal d u =>
      rw [h2, ha2] at e2
      constructor
      · intro t ht; simp [drain, h1, h2] at ht
      · intro d' t ht
        simp [drain, h1, h2] at ht
        obtain ⟨rfl, rfl⟩ := ht
        rw [← e1, map_ok, andThen_ok, ← e2]; rfl
    | ok b =>
      rw [h2, ha2] at e2
      obtain ⟨hb1, hb2⟩ := drainCmds_queues rfl h2
      have hib := inner_drainCmds a.cmdq a
      rw [h2] at hib
      have hbq : b.withQueues [] [] = b := by
        have : b.rxq = [] := hb2.trans ha1
        cases b; simp_all [State.withQueues]
      have hcfg : b.cfg = s.cfg := hib.cfg.trans hia.cfg
      simp only [map_ok, hbq] at e2 e1
      constructor
      · intro t ht
        obtain ⟨a', b', c, q1, q2, q3, q4⟩ := drain_eq_ok ht
        rw [h1] at q1; simp only [Run.ok.injEq] at q1; subst q1
        rw [h2] at q2; simp only [Run.ok.injEq] at q2; subst q2
        rw [hcfg] at q3
        exact ⟨_, _, c, e1.symm, e2.symm, q3, q4⟩
      · intro d t ht
        simp only [drain, h1, andThen_ok, h2, hcfg] at ht
        rw [← e1, andThen_ok, ← e2, andThen_ok]
        cases h3 : forEach admitPending (peersOf s.cfg) b with
        | ok c => rw [h3] at ht; simp at ht
        | fatal d' u =>
          rw [h3] at ht
          simp at ht
          obtain ⟨rfl, rfl⟩ := ht
          have hf := forEach_map (g := (·.withQueues [] []))
            (fun p t => admitPending_withQueues [] [] p t) (peersOf s.cfg) b
          simp only [hbq, h3, map_fatal] at hf
          exact hf

/-- DELIVERY_SCAN appends nothing to the batch. -/
theorem deliveryScan_batch {p : Byte} {s t : State} (h : deliveryScan p s = .ok t) : t.batch = s.batch := by
  unfold deliveryScan at h
  rw [andThen_eq_ok] at h
  obtain ⟨u, hu, h⟩ := h
  have hk := reassembleAll_keeps p (s.receiver p).deliverable s
  rw [hu] at hk
  have hub : u.batch = s.batch := hk.2.2.2.2.1
  simp only [Run.ok.injEq] at h
  subst h
  rw [← hub]; split <;> rfl

/-- PLACE appends its ack, where one is due (R312, R313). -/
theorem place_batch {p : Byte} {f : Frame} {s t : State} (h : place p f s = .ok t) :
    t.batch = s.batch ++ if ackDue f.seq (s.receiver p).left then [mkAck s.cfg p f.seq] else [] := by
  suffices hb : t.batch =
      (if ackDue f.seq (s.receiver p).left then s.append [mkAck s.cfg p f.seq] else s).batch by
    rw [hb]; split <;> simp
  rcases place_cases p f s with ⟨_, e⟩ | ⟨i, hi, ⟨_, e⟩ | ⟨hn, e⟩⟩ <;> rw [e] at h
  · simp only [Run.ok.injEq] at h; subst h; rfl
  · simp only [Run.ok.injEq] at h; subst h; rfl
  · rw [deliveryScan_batch h]; rfl

/-- ON_ACK appends nothing to the batch. -/
theorem onAck_batch {p n : Byte} {s t : State} (h : onAck p n s = .ok t) : t.batch = s.batch := by
  rcases onAck_cases p n s with ⟨_, e⟩ | ⟨i, _, e⟩ <;> rw [e] at h <;>
    simp only [Run.ok.injEq] at h <;> subst h <;> rfl

/-- A routed frame appends at most its ack, where one is due (R312, R313). -/
theorem routeFrame_batch {f : Frame} {s t : State} (h : routeFrame f s = .ok t) :
    t.batch = s.batch ++ (if (!isCorrupted s.cfg.crcInit f && !f.kind && f.dst == s.cfg.selfId &&
      decide (f.src.toNat < s.cfg.peerCount) && f.src != s.cfg.selfId && ackDue f.seq (s.receiver f.src).left)
      then [mkAck s.cfg f.src f.seq] else []) := by
  unfold routeFrame acceptAck acceptData at h
  cases hc : isCorrupted s.cfg.crcInit f
  · cases ha : addressFault s.cfg f with
    | some c =>
      have hn : ¬ addressFault s.cfg f = none := by simp [ha]
      rw [addressFault_eq_none] at hn
      simp [hc, ha] at h
      subst h
      simp only [State.drop_batch, List.self_eq_append_right, ite_eq_right_iff]
      simp_all
    | none =>
      obtain ⟨h1, h2, h3⟩ := addressFault_eq_none.mp ha
      cases hk : f.kind <;> simp [hc, ha, hk] at h
      · rw [place_batch h]; simp [h1, h2, bne_iff_ne.mpr h3]
      · simp [onAck_batch h]
  · simp [hc] at h; subst h; simp

/-- Commands append nothing to the batch. -/
theorem processCmds_batch {cs : List Command} {s t : State} (h : forEach processCmd cs s = .ok t) :
    t.batch = s.batch := by
  refine forEach_ok_keeps (P := fun t => t.batch = s.batch) ?_ rfl h
  intro c _ a b ha hb
  unfold processCmd at hb
  split at hb
  · simp at hb; subst hb; exact ha
  · refine forEach_ok_keeps (P := fun t => t.batch = s.batch) ?_ ha hb
    intro f _ a b ha hb
    rcases enqueue_cases c.dst f a with ⟨_, e⟩ | ⟨_, e⟩ <;> rw [e] at hb <;> simp at hb
    subst hb; exact ha

/-- What ADMIT sends is the head of the queue, as many frames as there are free slots, stamped (R263). -/
theorem admitLoop_sent (init : BitVec 16) (t : Time) (q : List Frame) (w : SenderWindow) :
    (admitLoop init (some t) q w).sent = (q.take (8 - w.firstFree)).mapIdx fun j f =>
    stampFCS init (f.set 2 (w.left + BitVec.ofNat 8 (w.firstFree + j))) := by
  induction q generalizing w with
  | nil => simp [admitLoop]
  | cons f rest ih =>
    simp only [admitLoop]
    split
    · rename_i h
      have : 8 - w.firstFree = (8 - (w.firstFree + 1)) + 1 := by omega
      simp only [this, List.take_succ_cons, List.mapIdx_cons, ih]
      congr 1
      congr 1
      funext j f; congr 4; omega
    · rename_i h
      have : 8 - w.firstFree = 0 := by omega
      simp [this]

/-- ADMIT for a peer appends the frames admitted from its window and leaves the other windows. -/
theorem admitPending_batch {p : Byte} {s t : State} (h : admitPending p s = .ok t) :
    t.batch = s.batch ++ (s.sender p).admitted s.cfg.crcInit ∧ ∀ q, q ≠ p → t.sender q = s.sender q := by
  rcases admit_cases p s with ⟨ho, e⟩ | ⟨_, e⟩ <;> rw [e] at h <;> simp only [Run.ok.injEq, reduceCtorEq] at h
  subst h
  refine ⟨?_, fun q hq => ?_⟩
  · simp only [State.append_batch, State.setSender_batch]
    congr 1
    cases ha : addTime s.tNow s.cfg.rto with
    | some e => rw [admitLoop_sent]; rfl
    | none =>
      rw [ha] at ho
      unfold SenderWindow.admitted
      cases hpd : (s.sender p).pending with
      | nil => simp [admitLoop]
      | cons f rest =>
        rw [hpd] at ho
        simp only [admitLoop] at ho ⊢
        split
        · rename_i hlt; simp [hlt] at ho
        · rename_i hlt
          have : 8 - (s.sender p).firstFree = 0 := by omega
          simp [this]
  · have : p.toNat ≠ q.toNat := fun h => hq (BitVec.eq_of_toNat_eq h.symm)
    simp [State.sender, State.setSender, this]

end Sys2Proof.Machine
end

