-- ==== Sys2Proof/Tests/Slice0.lean ====
section
/-! SUPPORT. Small tests, one step each, with the results of spec/95_test_vectors.md (the vector's name
stands in each comment), and a witness for the hypotheses of every obligation that has some. -/

namespace Sys2Proof.Tests

set_option Elab.async false
open Sys2Proof Sys2Proof.Machine

/-! ## Helpers -/

/-- A frame written out: its first bytes, zero bytes up to byte 61, and the two fcs bytes. -/
def raw (bytes : List Byte) (hi lo : Byte) : Frame :=
  Vector.ofFn fun i : Fin 64 => if i.val = 62 then hi else if i.val = 63 then lo else bytes.getD i.val 0

/-- What a step's next state shows; `none` where it has none. -/
def after {α : Type} (o : Host.Outcome State Fault Refusal) (view : State → α) : Option α :=
  match o with
  | .next s => some (view s)
  | _ => none

/-- The step was refused for `r`. -/
def refusedBy (o : Host.Outcome State Fault Refusal) (r : Refusal) : Bool :=
  match o with
  | .refused r' => r' == r
  | _ => false

/-- The step faulted for `f`. -/
def faultedBy (o : Host.Outcome State Fault Refusal) (f : Fault) : Bool :=
  match o with
  | .fault f' => f' == f
  | _ => false

/-- Entity `n` after reset, at a phase. -/
def entity (n : Byte) (ph : Phase) : State :=
  { State.resetFor { Config.default with selfId := n } with phase := ph }

/-- FCS-1: from 0 to 1, seq 0, UNSEGMENTED `hi`. -/
def hiFrame : Frame := raw [0x00, 0x01, 0x00, 0x00, 0x03, 0x68, 0x69] 0x40 0x8F
/-- FCS-2: the ack from 1 to 0 for seq 0. -/
def ackFrame : Frame := raw [0x01, 0x00, 0x00, 0x00, 0x04] 0xCF 0x1D
/-- P2: the HEAD from 0 to 1, seq 0, 57 bytes of letters and digits. -/
def headFrame : Frame :=
  raw ([0x00, 0x01, 0x00, 0x00, 0x01] ++ (List.range 26).map (BitVec.ofNat 8 <| 0x41 + ·) ++
    (List.range 26).map (BitVec.ofNat 8 <| 0x61 + ·) ++ [0x30, 0x31, 0x32, 0x33, 0x34]) 0x41 0x6E
/-- P2: the TAIL from 0 to 1, seq 1, `567`. -/
def tailFrame : Frame := raw [0x00, 0x01, 0x01, 0x00, 0x02, 0x35, 0x36, 0x37] 0x7B 0x03
/-- P3: the MIDDLE from 0 to 2, seq 1, bytes 57..113 of the text. -/
def middleFrame : Frame :=
  raw ([0x00, 0x02, 0x01, 0x00, 0x00] ++ (List.range 57).map fun i => BitVec.ofNat 8 (0x61 + (i + 57) % 26))
    0xDB 0x90

/-- A frame from 1 to 0 with payload `x`, as in the RCV vectors, stamped. -/
def xFrame (seq : Byte) : Frame := stampFCS 0xFFFF (marshal 1 0 seq 0 0x03 [0x78, 0x00])

/-- RCV: entity 0 in `DRAIN` with `R[1].left = 250`, and given slots present. -/
def rcvState (present : List (Fin 8)) : State :=
  let w : ReceiverWindow :=
    { left := 250
      buffer := Vector.ofFn fun i : Fin 8 => if i ∈ present then xFrame (250 + BitVec.ofNat 8 i.val) else Frame.zero
      present := Vector.ofFn fun i : Fin 8 => decide (i ∈ present) }
  (entity 0 .drain).setReceiver 1 w

/-- SND: entity 0 with a sender window for peer 1, at a phase. -/
def sndState (ph : Phase) (left : Byte) (firstFree : Nat) (acked : List (Fin 8)) (expiry : Time) : State :=
  let w : SenderWindow :=
    { left := left
      firstFree := firstFree
      buffer := Vector.ofFn fun i : Fin 8 =>
        if i.val < firstFree then stampFCS 0xFFFF (marshal 0 1 (left + BitVec.ofNat 8 i.val) 0 0x03 [0x61, 0x00])
        else Frame.zero
      acked := Vector.ofFn fun i : Fin 8 => decide (i ∈ acked)
      expiry := Vector.ofFn fun i : Fin 8 => if i.val < firstFree then expiry else 0
      pending := [] }
  (entity 0 ph).setSender 1 w

/-- A state whose reassembler for peer 1 is in a given condition. -/
def asmState (active : Bool) (acc : List Byte) : State := (entity 0 .drain).setReasm 1 ⟨active, acc⟩

/-- An unstamped frame of a role with a payload, as reassembly reads it. -/
def part (r : Role) (seq : Byte) (payload : List Byte) : Frame := marshal 1 0 seq 0 r.flag payload

/-! ## WellFormed: one ill-formed term for each check -/

theorem test_wf_accepts_each_kind :
    (Instr.dataMiddle middleFrame).wellFormed 0xFFFF = true ∧ (Instr.dataHead headFrame).wellFormed 0xFFFF = true ∧
    (Instr.dataTail tailFrame).wellFormed 0xFFFF = true ∧ (Instr.dataUnseg hiFrame).wellFormed 0xFFFF = true ∧
    (Instr.ack ackFrame).wellFormed 0xFFFF = true := by decide +kernel

theorem test_wf_refuses_corrupt_frames :
    (Instr.dataMiddle Frame.zero).wellFormed 0xFFFF = false ∧
    (Instr.ack (ackFrame.set 63 0x1C)).wellFormed 0xFFFF = false := by decide +kernel

theorem test_wf_refuses_wrong_role :
    (Instr.dataMiddle headFrame).wellFormed 0xFFFF = false ∧ (Instr.dataHead tailFrame).wellFormed 0xFFFF = false ∧
    (Instr.dataTail hiFrame).wellFormed 0xFFFF = false ∧ (Instr.dataUnseg middleFrame).wellFormed 0xFFFF = false := by
  decide +kernel

theorem test_wf_refuses_wrong_kind :
    (Instr.dataMiddle ackFrame).wellFormed 0xFFFF = false ∧ (Instr.ack hiFrame).wellFormed 0xFFFF = false := by
  decide +kernel

/-! ## Decoding: every row, from a word written out -/

theorem test_decode_frame_rows :
    decode 0xFFFF .frame middleFrame.toList = .instr (.dataMiddle middleFrame) [] ∧
    decode 0xFFFF .frame headFrame.toList = .instr (.dataHead headFrame) [] ∧
    decode 0xFFFF .frame tailFrame.toList = .instr (.dataTail tailFrame) [] ∧
    decode 0xFFFF .frame hiFrame.toList = .instr (.dataUnseg hiFrame) [] ∧
    decode 0xFFFF .frame ackFrame.toList = .instr (.ack ackFrame) [] := by decide +kernel

/-- CRC-8, and a frame of 63 bytes (R130). -/
theorem test_decode_frame_rejects :
    decode 0xFFFF .frame (ackFrame.set 63 0x1C).toList = .reject .corruptFrame ∧
    decode 0xFFFF .frame (ackFrame.toList.take 63) = .reject .shortFrame := by decide +kernel

/-- FCS-4 and FCS-5: `flag = 0xFB` is UNSEGMENTED data, `flag = 0x07` an ack. -/
theorem test_decode_reserved_bits :
    let a := stampFCS 0xFFFF (marshal 0 1 0 0 0xFB [])
    let b := stampFCS 0xFFFF (marshal 0 1 0 0 0x07 [])
    decode 0xFFFF .frame a.toList = .instr (.dataUnseg a) [] ∧ decode 0xFFFF .frame b.toList = .instr (.ack b) [] := by
  decide +kernel

theorem test_decode_loop_ops :
    decode 0xFFFF .op [0b00000011] = .instr .sample [] ∧ decode 0xFFFF .op [0b00000100] = .instr .arbitrate [] ∧
    decode 0xFFFF .op [0b00000101] = .instr .wait [] ∧ decode 0xFFFF .op [0b00000110] = .instr .drain [] ∧
    decode 0xFFFF .op [0b00010101] = .instr .transmit [] ∧ decode 0xFFFF .op [0b00010110] = .instr .reset [] := by
  decide +kernel

theorem test_decode_peer_ops :
    decode 0xFFFF .op [0b00001011, 1] = .instr (.admitFrames 1) [] ∧
    decode 0xFFFF .op [0b00001101, 2] = .instr (.slideTx 2) [] ∧
    decode 0xFFFF .op [0b00001110, 3] = .instr (.checkTimeouts 3) [] ∧
    decode 0xFFFF .op [0b00010001, 255] = .instr (.deliveryScan 255) [] := by decide +kernel

theorem test_decode_two_byte_ops :
    decode 0xFFFF .op [0b00001100, 1, 9] = .instr (.onAck 1 9) [] ∧
    decode 0xFFFF .op [0b00010000, 0, 1] = .instr (.genAck 0 1) [] ∧
    decode 0xFFFF .op [0b00010111, 3, 5] = .instr (.slotIndex 3 5) [] := by decide +kernel

theorem test_decode_frame_ops :
    decode 0xFFFF .op (0b00000001 :: hiFrame.toList) = .instr (.rxPush hiFrame) [] ∧
    decode 0xFFFF .op (0b00000111 :: hiFrame.toList) = .instr (.routeFrame hiFrame) [] ∧
    decode 0xFFFF .op (0b00010011 :: hiFrame.toList) = .instr (.computeFcs hiFrame) [] ∧
    decode 0xFFFF .op (0b00010100 :: hiFrame.toList) = .instr (.isCorrupted hiFrame) [] := by decide +kernel

theorem test_decode_peer_frame_ops :
    decode 0xFFFF .op (0b00001010 :: 1 :: hiFrame.toList) = .instr (.enqueue 1 hiFrame) [] ∧
    decode 0xFFFF .op (0b00001111 :: 1 :: hiFrame.toList) = .instr (.place 1 hiFrame) [] ∧
    decode 0xFFFF .op (0b00010010 :: 1 :: hiFrame.toList) = .instr (.reassemble 1 hiFrame) [] := by decide +kernel

theorem test_decode_text_ops :
    decode 0xFFFF .op [0b00000010, 0, 1, 1, 0x68, 1, 0x69, 0] = .instr (.cmdPush ⟨0, 1, [0x68, 0x69]⟩) [] ∧
    decode 0xFFFF .op [0b00001000, 0, 1, 0, 7] = .instr (.processCmd ⟨0, 1, []⟩) [7] ∧
    decode 0xFFFF .op [0b00001001, 2, 1, 0, 0] = .instr (.segment 2 [0]) [] := by decide +kernel

theorem test_decode_op_rejects :
    decode 0xFFFF .op [] = .reject .empty ∧ decode 0xFFFF .op [0x00] = .reject (.unusedCode 0x00) ∧
    decode 0xFFFF .op [0b00011000] = .reject (.unusedCode 0x18) ∧
    decode 0xFFFF .op [0b00100011] = .reject (.unusedCode 0x23) ∧
    decode 0xFFFF .op [0x0C, 1] = .reject (.badOperands 0x0C) ∧
    decode 0xFFFF .op [0x09, 2, 2, 0] = .reject (.badOperands 0x09) := by decide +kernel

theorem test_table_words :
    decodeTableWord 8 0x0B = some (.admitFrames 0) ∧ decodeTableWord 8 0x15 = some .transmit ∧
    (decodeTableWord 8 0x00).isSome = true ∧ decodeTableWord 8 0x18 ≠ none := by decide +kernel

/-! ## Codec and sequence space -/

/-- SEQ-2 and SEQ-4. -/
theorem test_slotIndex_step :
    after (exec (.slotIndex 3 5) State.reset) (·.ret) = some (.slot 254) ∧
    after (exec (.slotIndex 2 250) State.reset) (·.ret) = some (.slot 8) := by decide +kernel

/-- SEQ-5, SEQ-6, SEQ-9, SEQ-11. -/
theorem test_seqspace :
    justBehind 250 2 = true ∧ justBehind 249 2 = false ∧ inWindow 7 0 = true ∧ inWindow 2 250 = false ∧
    seqAt 254 3 = 1 ∧ advance 255 8 = 7 := by decide

/-- CRC-5 and the fcs of FCS-1. -/
theorem test_computeFcs_step :
    after (exec (.computeFcs Frame.zero) State.reset) (·.ret) = some (.fcs 0xC9DB) ∧
    after (exec (.computeFcs hiFrame) State.reset) (·.ret) = some (.fcs 0x408F) := by decide +kernel

/-- CRC-8. -/
theorem test_isCorrupted_step :
    after (exec (.isCorrupted ackFrame) State.reset) (·.ret) = some (.corrupted false) ∧
    after (exec (.isCorrupted (ackFrame.set 63 0x1C)) State.reset) (·.ret) = some (.corrupted true) := by
  decide +kernel

/-- CRC-4a, CRC-6, CRC-7, CRC-10. -/
theorem test_crc_values :
    crc16 0xFFFF [0x01] = 0xF1D1 ∧ crc16 0xFFFF [0xFF] = 0xFF00 ∧ crc16 0xFFFF [0x00, 0x00] = 0x1D0F ∧
    crc16 0xFFFF (List.replicate 62 0 ++ [0xC9, 0xDB]) = 0 ∧
    crc16 0xFFFF (List.replicate 62 0 ++ [0xDB, 0xC9]) = 0x5762 ∧
    crc16 0xFFFF Frame.zero.toList = 0xD6DA ∧ crcTable 0x01 = 0x1021 ∧ crcTable 0x80 = 0x9188 := by decide +kernel

/-- FCS-1, CRC-11. -/
theorem test_stampFCS :
    stampFCS 0xFFFF (marshal 0 1 0 0 0x03 [0x68, 0x69, 0x00]) = hiFrame ∧
    (stampFCS 0x0000 (marshal 0 1 0 0 0x03 [0x68, 0x69, 0x00])).fcs = 0x8954 := by decide +kernel

/-! ## Segmentation and reassembly -/

/-- SEG-5: 57 text bytes give a HEAD and a one-byte TAIL. -/
theorem test_segment_step :
    after (exec (.segment 2 (List.replicate 57 0x61)) State.reset) (fun s => match s.ret with
      | .frames fs => fs.map fun f => (f.flag, f.dst, tailPart f.payload)
      | _ => []) = some [(0x01, 2, List.replicate 57 0x61), (0x02, 2, [0])] := by decide +kernel

/-- SEG-4, SEG-8, SEG-11. -/
theorem test_frameCount : frameCount 57 = 1 ∧ frameCount 115 = 3 ∧ frameCount 456 = 8 ∧ frameCount 514 = 10 := by decide

/-- ASM-5. -/
theorem test_reassemble_unseg_abandons :
    after (exec (.reassemble 1 (part .unsegmented 9 [0x78, 0])) (asmState true (List.replicate 57 1)))
      (fun s => (s.trlog, s.dlog, s.reasm 1)) =
    some ([⟨.reasmOrphan, 1, 9⟩], [⟨1, [0x78, 0]⟩], ⟨false, []⟩) := by decide +kernel

/-- ASM-9. -/
theorem test_reassemble_tail_stops_at_nul :
    after (exec (.reassemble 1 (part .tail 9 [0x61, 0x62, 0, 0x63, 0x64, 0])) (asmState true [7]))
      (fun s => (s.dlog, s.reasm 1)) = some ([⟨1, [7, 0x61, 0x62, 0]⟩], ⟨false, []⟩) := by decide +kernel

/-! ## Sender -/

/-- SND-9: the fifth frame for four places of `pending`. -/
theorem test_enqueue_step :
    let s := sndState .drain 254 0 [] 0
    after (exec (.enqueue 1 hiFrame) s) (fun t => (t.sender 1).pending) = some [hiFrame] ∧
    after (exec (.enqueue 1 hiFrame) { s with cfg := { s.cfg with pendingDepth := 0 } })
      (fun t => (t.phase, t.fatalCode.bits)) = some (.fatal, 3) := by decide +kernel

/-- P1: `hi` admitted at `t_now = 0`. -/
theorem test_admit_step :
    after (exec (.admitFrames 1) ((entity 0 .drain).setSender 1
        { SenderWindow.reset with pending := [marshal 0 1 0 0 0x03 [0x68, 0x69, 0x00]] }))
      (fun t => (t.batch, (t.sender 1).buffer[0], (t.sender 1).expiry[0], (t.sender 1).firstFree)) =
    some ([hiFrame], hiFrame, 100, 1) := by decide +kernel

/-- SND-10. -/
theorem test_admit_time_overflow :
    after (exec (.admitFrames 1) { (entity 0 .drain).setSender 1 { SenderWindow.reset with pending := [hiFrame] } with
        tNow := BitVec.ofNat 64 (2 ^ 64 - 100) }) (fun t => (t.phase, t.fatalCode.bits)) = some (.fatal, 5) := by
  decide +kernel

/-- SND-3, the first ack. -/
theorem test_onAck_slides :
    after (exec (.onAck 1 254) (sndState .drain 254 4 [2] 1100))
      (fun t => ((t.sender 1).left, (t.sender 1).firstFree, (t.sender 1).acked.toList.take 3)) =
    some (255, 3, [false, true, false]) := by decide +kernel

/-- SND-4. -/
theorem test_onAck_out_of_window :
    after (exec (.onAck 1 9) (sndState .drain 1 1 [] 1100)) (fun t => (t.trlog, t.sender 1 == (sndState .drain 1 1 [] 1100).sender 1)) =
    some ([⟨.ackOutOfWindow, 1, 9⟩], true) := by decide +kernel

/-- SND-3, the second slide: `1,1,0` at `left = 255`. -/
theorem test_slideTx_wraps :
    after (exec (.slideTx 1) (sndState .drain 255 3 [0, 1] 1100))
      (fun t => ((t.sender 1).left, (t.sender 1).firstFree, (t.sender 1).acked[0], (t.sender 1).expiry[0])) =
    some (1, 1, false, 1100) := by decide +kernel

/-- SND-7, at 99 and at 100. -/
theorem test_checkTimeouts_step :
    after (exec (.checkTimeouts 1) { sndState .timeouts 0 1 [] 100 with tNow := 99 })
      (fun t => (t.batch, (t.sender 1).expiry[0])) = some ([], 100) ∧
    after (exec (.checkTimeouts 1) { sndState .timeouts 0 1 [] 100 with tNow := 100 })
      (fun t => (t.batch.length, (t.sender 1).expiry[0])) = some (1, 200) := by decide +kernel

/-! ## Receiver -/

/-- RCV-1 and RCV-5. -/
theorem test_place_out_of_window :
    after (exec (.place 1 (xFrame 2)) (rcvState [])) (fun t => (t.batch, t.trlog)) =
      some ([], [⟨.dataOutOfWindow, 1, 2⟩]) ∧
    after (exec (.place 1 (xFrame 243)) (rcvState [])) (fun t => (t.batch, t.trlog)) =
      some ([raw [0x00, 0x01, 0x00, 0xF3, 0x04] 0x28 0x11], [⟨.dataOutOfWindow, 1, 243⟩]) := by decide +kernel

/-- RCV-2. -/
theorem test_place_stores :
    after (exec (.place 1 (xFrame 1)) (rcvState []))
      (fun t => (t.batch, (t.receiver 1).present.toList, t.dlog)) =
    some ([raw [0x00, 0x01, 0x00, 0x01, 0x04] 0x48 0x2F],
      [false, false, false, false, false, false, false, true], []) := by decide +kernel

/-- P2: `mkAck(0, 1)` from entity 1. -/
theorem test_genAck_step :
    after (exec (.genAck 0 1) (entity 1 .drain)) (·.batch) = some [raw [0x01, 0x00, 0x00, 0x01, 0x04] 0x6A 0x43] := by
  decide +kernel

/-- RCV-3, the scan. -/
theorem test_deliveryScan_step :
    after (exec (.deliveryScan 1) (rcvState [0, 7]))
      (fun t => (t.dlog, (t.receiver 1).left, (t.receiver 1).present.toList)) =
    some ([⟨1, [0x78, 0]⟩], 251, [false, false, false, false, false, false, true, false]) := by decide +kernel

/-! ## Frame kinds, router, commands -/

/-- P1b. -/
theorem test_dataUnseg_step :
    after (exec (.dataUnseg hiFrame) (entity 1 .drain)) (fun t => (t.batch, t.dlog, (t.receiver 0).left)) =
    some ([ackFrame], [⟨0, [0x68, 0x69, 0]⟩], 1) := by decide +kernel

/-- P2 at 10, the HEAD alone. -/
theorem test_dataHead_step :
    after (exec (.dataHead headFrame) (entity 1 .drain)) (fun t => (t.batch, (t.reasm 0).active, (t.reasm 0).acc.length)) =
    some ([ackFrame], true, 57) := by decide +kernel

/-- P2 at 0: the TAIL is held and acked. -/
theorem test_dataTail_step :
    after (exec (.dataTail tailFrame) (entity 1 .drain)) (fun t => (t.batch, (t.receiver 0).present[1], t.dlog)) =
    some ([raw [0x01, 0x00, 0x00, 0x01, 0x04] 0x6A 0x43], true, []) := by decide +kernel

/-- ASM-2, by a MIDDLE with seq 1 at `left = 1`. -/
theorem test_dataMiddle_step :
    after (exec (.dataMiddle middleFrame) ((entity 2 .drain).setReceiver 0 { ReceiverWindow.reset with left := 1 }))
      (fun t => (t.trlog, (t.receiver 0).left, t.batch.length)) = some ([⟨.reasmOrphan, 0, 1⟩], 2, 1) := by
  decide +kernel

/-- P1 at 10. -/
theorem test_ack_step :
    after (exec (.ack ackFrame) (sndState .drain 0 1 [] 100))
      (fun t => ((t.sender 1).left, (t.sender 1).firstFree, (t.sender 1).expiry[0])) = some (1, 0, 0) := by
  decide +kernel

/-- ORC-5 and EXC-1. -/
theorem test_routeFrame_order :
    after (exec (.routeFrame (stampFCS 0xFFFF (marshal 1 2 7 0 0x03 []))) (entity 0 .drain)) (·.trlog) =
      some [⟨.misdirected, 1, 7⟩] ∧
    after (exec (.routeFrame (marshal 1 2 7 0 0x03 [])) (entity 0 .drain)) (·.trlog) = some [⟨.corrupt, 0, 0⟩] := by
  decide +kernel

/-- ORC-6 and ORC-7. -/
theorem test_routeFrame_bad_src :
    after (exec (.routeFrame (stampFCS 0xFFFF (marshal 9 0 3 0 0x03 []))) (entity 0 .drain)) (·.trlog) =
      some [⟨.badSrc, 9, 3⟩] ∧
    after (exec (.routeFrame (stampFCS 0xFFFF (marshal 0 0 0 0 0x04 []))) (entity 0 .drain)) (·.trlog) =
      some [⟨.badSrc, 0, 0⟩] := by decide +kernel

/-- ORC-8. -/
theorem test_processCmd_bad_dst :
    after (exec (.processCmd ⟨0, 0, [0x78]⟩) (entity 0 .drain)) (·.trlog) = some [⟨.cmdBadDst, 0, 0⟩] ∧
    after (exec (.processCmd ⟨0, 7, [0x79]⟩) (entity 0 .drain)) (·.trlog) = some [⟨.cmdBadDst, 7, 0⟩] := by
  decide +kernel

/-! ## Pushes, the loop, reset -/

/-- ORC-11, with `RXQ_DEPTH = 2`. -/
theorem test_rxPush_overflow :
    let s := { entity 0 .wait with cfg := { Config.default with rxqDepth := 2 }, rxq := [hiFrame] }
    after (exec (.rxPush ackFrame) s) (·.rxq) = some [hiFrame, ackFrame] ∧
    after (exec (.rxPush hiFrame) { s with rxq := [hiFrame, ackFrame] }) (fun t => (t.fatalOut, t.fatalCode.bits)) =
      some (true, 1) := by decide +kernel

/-- EXC-3, with `CMDQ_DEPTH = 1`, and a text that is too long. -/
theorem test_cmdPush_overflow :
    let s := { entity 0 .wait with cfg := { Config.default with cmdqDepth := 1, maxTextLen := 2 } }
    after (exec (.cmdPush ⟨0, 1, [1, 2]⟩) s) (·.cmdq) = some [⟨0, 1, [1, 2]⟩] ∧
    after (exec (.cmdPush ⟨0, 1, []⟩) { s with cmdq := [⟨0, 1, []⟩] }) (·.fatalCode.bits) = some 2 ∧
    refusedBy (exec (.cmdPush ⟨0, 1, [1, 2, 3]⟩) s) .textTooLong = true := by decide +kernel

/-- ORC-12. -/
theorem test_fatal_ignores_pushes :
    after (exec (.rxPush hiFrame) { entity 0 .fatal with fatalCode := .rxqOverflow }) (fun t => (t.rxq, t.phase)) =
    some ([], .fatal) := by decide +kernel

theorem test_sample_step :
    after (exec .sample { entity 0 .sample with nowIn := 10 }) (fun t => (t.tNow, t.phase)) = some (10, .arbitrate) := by
  decide +kernel

/-- ORC-1, and ORC-2 with one window: an acked slot does not count. -/
theorem test_arbitrate_step :
    after (exec .arbitrate (entity 0 .arbitrate)) (fun t => (t.deadline, t.phase)) = some (50, .wait) ∧
    after (exec .arbitrate { (entity 0 .arbitrate).setSender 1
        { SenderWindow.reset with firstFree := 3, acked := #v[false, true, false, false, false, false, false, false]
                                  expiry := #v[300, 100, 250, 0, 0, 0, 0, 0] } with tNow := 200 })
      (·.deadline) = some 250 := by decide +kernel

/-- ORC-1: the worker holds until `now_in >= 50`. -/
theorem test_wait_step :
    after (exec .wait { entity 0 .wait with deadline := 50, nowIn := 49 }) (·.phase) = some .wait ∧
    after (exec .wait { entity 0 .wait with deadline := 50, nowIn := 50 }) (·.phase) = some .drain := by decide +kernel

/-- P1 at 0: the command, its admission. -/
theorem test_drain_step :
    after (exec .drain { entity 0 .drain with cmdq := [⟨0, 1, [0x68, 0x69]⟩] })
      (fun t => (t.batch, t.cmdq, t.phase, (t.sender 1).firstFree)) = some ([hiFrame], [], .timeouts, 1) := by
  decide +kernel

/-- ORC-10: `t_now = 60` does not fire expiry 100; `t_now = 100` does. -/
theorem test_timeouts_step :
    after (step { sndState .timeouts 0 1 [] 100 with tNow := 60, nowIn := 100 }) (fun t => (t.batch.length, t.phase)) =
      some (0, .transmit) ∧
    after (step { sndState .timeouts 0 1 [] 100 with tNow := 100, nowIn := 100 })
      (fun t => (t.batch.length, (t.sender 1).expiry[0])) = some (1, 200) := by decide +kernel

theorem test_transmit_step :
    after (exec .transmit { entity 0 .transmit with batch := [hiFrame, ackFrame] }) (fun t => (t.txlog, t.batch, t.phase)) =
      some ([hiFrame], [ackFrame], .transmit) ∧
    after (exec .transmit (entity 0 .transmit)) (·.phase) = some .sample := by decide +kernel

/-- RST-1, from `FATAL`. -/
theorem test_reset_step :
    after (exec .reset { sndState .fatal 9 1 [] 100 with fatalCode := .rxqOverflow, txlog := [hiFrame] })
      (fun t => (t.phase, t.fatalCode, (t.sender 1).left, t.txlog, t.cfg.selfId)) =
    some (.sample, .none, 0, [], 0) := by decide +kernel

/-! ## Stops, disabled operations, the fetch -/

theorem test_no_such_peer : faultedBy (exec (.admitFrames 4) (entity 0 .drain)) (.noSuchPeer 4) = true := by decide +kernel

theorem test_disabled_in_other_phase : after (exec (.onAck 1 0) State.reset) id = some State.reset := by decide +kernel

theorem test_backward_time_refused :
    refusedBy (step { State.reset with nowIn := 5, agenda := [.now 4] }) .timeBackwards = true := by decide +kernel

theorem test_undecodable_refused :
    refusedBy (step { State.reset with agenda := [.fetch .op [0x18]] }) (.undecodable (.unusedCode 0x18)) = true := by
  decide +kernel

/-- ORC-4, by a fetched frame. -/
theorem test_corrupt_fetch_drops :
    after (step { entity 0 .drain with agenda := [.fetch .frame Frame.zero.toList] }) (·.trlog) =
    some [⟨.corrupt, 0, 0⟩] := by decide +kernel

/-- The first worker step from reset is SAMPLE (R452); a table word runs as the first step. -/
theorem test_first_steps :
    after (step State.reset) (·.phase) = some .arbitrate ∧
    after (step (State.reset.withFetchWord 8 0x05)) (·.agenda) = some [] ∧
    after (step (State.reset.withFetchWord 8 0x17)) (·.ret) = some (.slot 0) := by decide +kernel

/-! ## Witnesses: a state and operands that meet the hypotheses of each obligation -/

/-- Entity 0 in `DRAIN` with one `pending` frame for peer 1 and a window that is full but for one slot. -/
def admitState : State :=
  (entity 0 .drain).setSender 1 { SenderWindow.reset with firstFree := 7, pending := [hiFrame, hiFrame] }

theorem witness_EncodeThenDecode :
    (Instr.dataTail tailFrame).wellFormed 0xFFFF = true ∧ (Instr.onAck 255 255).wellFormed 0xFFFF = true ∧
    (Instr.segment 0 [0, 255]).wellFormed 0xFFFF = true := by decide +kernel

theorem witness_DecodeThenEncode :
    decode 0xFFFF .op [0x09, 0xFF, 1, 0, 0, 1] = .instr (.segment 0xFF [0]) [1] ∧
    decode 0xFFFF .frame (hiFrame.toList ++ [1]) = .instr (.dataUnseg hiFrame) [1] := by decide +kernel

theorem witness_FrameKindByFlagBits :
    crc16 0xFFFF Frame.zero.toList ≠ 0 ∧
    (crc16 0xFFFF middleFrame.toList = 0 ∧ middleFrame[4] &&& 7#8 = 0) ∧
    (crc16 0xFFFF headFrame.toList = 0 ∧ headFrame[4] &&& 7#8 = 1) ∧
    (crc16 0xFFFF tailFrame.toList = 0 ∧ tailFrame[4] &&& 7#8 = 2) ∧
    (crc16 0xFFFF hiFrame.toList = 0 ∧ hiFrame[4] &&& 7#8 = 3) ∧
    (crc16 0xFFFF ackFrame.toList = 0 ∧ ackFrame[4] &&& 4#8 = 4) := by decide +kernel

theorem witness_MarshalledFields : (List.replicate 57 (0xFF : Byte)).length ≤ 57 := by decide

/-- For CodecOperationsAnswer, SlotIndexAnswers, SegmentAnswersFrames. -/
theorem witness_live : State.reset.Live ∧ (entity 0 .transmit).Live := by decide

theorem witness_SequenceSpaceLaws : (0 : Nat) < 256 ∧ (255 : Nat) < 256 := by decide

/-- The longest text `MAX_MSG_LEN = 1024` admits, with no NUL, without and with a message in progress. -/
theorem witness_SegmentationRoundTrip :
    (0 : Byte) ∉ List.replicate 1023 (0x61 : Byte) ∧
    (List.replicate 1023 (0x61 : Byte)).length + 1 ≤ State.reset.cfg.maxMsgLen ∧
    ((3 : Byte).toNat < State.reset.asm.length ∧ (State.reset.reasm 3).active = false ∧ (State.reset.reasm 3).acc = []) ∧
    ((1 : Byte).toNat < (asmState true [7]).asm.length ∧ ((asmState true [7]).reasm 1).active = true) := by
  refine ⟨?_, by rw [List.length_replicate]; decide, by decide, by decide +kernel⟩
  rw [List.mem_replicate]; decide

theorem witness_ReassembleUnsegmentedOrHead :
    (entity 0 .drain).phase = .drain ∧ (3 : Byte).toNat < (entity 0 .drain).cfg.peerCount ∧
    (part .unsegmented 9 []).role = .unsegmented ∧ (part .head 9 []).role = .head := by decide +kernel

/-- Each clause at its bound, with `MAX_MSG_LEN = 1024`. -/
theorem witness_ReassembleMiddleOrTail :
    (asmState true (List.replicate 967 1)).phase = .drain ∧
    (1 : Byte).toNat < (asmState true (List.replicate 967 1)).cfg.peerCount ∧
    ((part .middle 9 []).role = .middle ∧ (part .tail 9 []).role = .tail) ∧
    ((asmState false []).reasm 1).active = false ∧
    (((asmState true (List.replicate 967 1)).reasm 1).active = true ∧
      ((asmState true (List.replicate 967 1)).reasm 1).acc.length + 57 ≤ 1024) ∧
    ((asmState true (List.replicate 1023 1)).reasm 1).acc.length + (tailPart (part .tail 9 []).payload).length ≤ 1024 ∧
    1024 < ((asmState true (List.replicate 968 1)).reasm 1).acc.length + 57 ∧
    1024 < ((asmState true (List.replicate 1024 1)).reasm 1).acc.length + (tailPart (part .tail 9 []).payload).length := by
  decide +kernel

theorem witness_TailPartEndsAtFirstNul :
    (0 : Byte) ∉ List.replicate 57 (1 : Byte) ∧
    [(1 : Byte), 0, 2, 0] = [1] ++ 0 :: [2, 0] ∧ (0 : Byte) ∉ [(1 : Byte)] := by decide

theorem witness_EnqueueAppendsOrOverflows :
    (entity 0 .drain).phase = .drain ∧ (3 : Byte).toNat < (entity 0 .drain).cfg.peerCount ∧
    ((entity 0 .drain).sender 3).pending.length < (entity 0 .drain).cfg.pendingDepth ∧
    (((entity 0 .drain).setSender 3 { SenderWindow.reset with pending := List.replicate 64 hiFrame }).sender 3).pending.length =
      (entity 0 .drain).cfg.pendingDepth := by decide +kernel

theorem witness_AdmitFillsFreeSlots :
    admitState.phase = .drain ∧ (1 : Byte).toNat < admitState.cfg.peerCount ∧
    (admitState.sender 1).firstFree ≤ 8 ∧ admitState.tNow.toNat + admitState.cfg.rto < 2 ^ 64 ∧
    min (8 - (admitState.sender 1).firstFree) (admitState.sender 1).pending.length = 1 := by decide +kernel

theorem witness_OnAckOutsideWindowIsDropped :
    (sndState .drain 1 1 [] 100).phase = .drain ∧ (1 : Byte).toNat < (sndState .drain 1 1 [] 100).cfg.peerCount ∧
    8 ≤ ((9 : Byte).toNat + 256 - ((sndState .drain 1 1 [] 100).sender 1).left.toNat) % 256 ∧
    8 ≤ ((0 : Byte).toNat + 256 - ((sndState .drain 1 1 [] 100).sender 1).left.toNat) % 256 := by decide +kernel

theorem witness_OnAckRecordsAndSlides :
    (sndState .drain 254 4 [2] 100).phase = .drain ∧ (1 : Byte).toNat < (sndState .drain 254 4 [2] 100).cfg.peerCount ∧
    ((5 : Byte).toNat + 256 - ((sndState .drain 254 4 [2] 100).sender 1).left.toNat) % 256 = (7 : Fin 8).val := by
  decide +kernel

theorem witness_SlideTxSlidesByAckRun :
    (sndState .drain 254 8 [0, 1, 2, 3, 4, 5, 6, 7] 100).phase = .drain ∧
    (1 : Byte).toNat < (sndState .drain 254 8 [0, 1, 2, 3, 4, 5, 6, 7] 100).cfg.peerCount := by decide +kernel

theorem witness_OnAckIsIdempotent :
    (sndState .drain 254 4 [2] 100).phase = .drain ∧ (3 : Byte).toNat < (sndState .drain 254 4 [2] 100).cfg.peerCount ∧
    (sndState .drain 254 4 [2] 100).Sized := by decide +kernel

/-- SND-5, and the window with no frame at all. -/
theorem witness_AckBeyondFirstFreeIsInvisible :
    let s := sndState .drain 1 1 [] 100
    s.phase = .drain ∧ (1 : Byte).toNat < s.cfg.peerCount ∧
    (((5 : Byte).toNat + 256 - (s.sender 1).left.toNat) % 256 = (4 : Fin 8).val ∧
      (s.sender 1).firstFree ≤ (4 : Fin 8).val ∧ (s.sender 1).acked[0] = false) ∧
    (((0 : Byte).toNat + 256 - (s.sender 2).left.toNat) % 256 = (0 : Fin 8).val ∧ (s.sender 2).firstFree = 0) := by
  decide +kernel

/-- SND-7: the slot of `sndState` fires at 100 and not at 99. -/
theorem witness_CheckTimeoutsSendsExpiredSlots :
    let s := { sndState .timeouts 0 2 [1] 100 with tNow := 100 }
    s.phase = .timeouts ∧ (1 : Byte).toNat < s.cfg.peerCount ∧ s.tNow.toNat + s.cfg.rto < 2 ^ 64 ∧ s.Sized ∧
    1 ≤ s.cfg.rto ∧ (s.sender 1).armed 0 = true ∧ (s.sender 1).armed 1 = false ∧
    (s.sender 1).expiry[(0 : Fin 8)].toNat ≤ s.tNow.toNat ∧
    ¬ (s.sender 1).expiry[(0 : Fin 8)].toNat ≤ (99 : Time).toNat := by decide +kernel

theorem witness_RetransmissionRenewsExpiry :
    let s := { sndState .timeouts 0 8 [1] 100 with tNow := BitVec.ofNat 64 (2 ^ 64 - 101) }
    s.phase = .timeouts ∧ (1 : Byte).toNat < s.cfg.peerCount ∧ s.Sized ∧ 1 ≤ s.cfg.rto ∧
    s.tNow.toNat + s.cfg.rto < 2 ^ 64 ∧ (s.sender 1).armed 7 = true ∧
    (s.sender 1).expiry[(7 : Fin 8)].toNat ≤ s.tNow.toNat := by decide +kernel

/-- SND-10 and its counterparts: each sum is exactly `2^64`. -/
theorem witness_TimeOverflowIsFatal :
    let a := { admitState with tNow := BitVec.ofNat 64 (2 ^ 64 - 100) }
    let b := { sndState .timeouts 0 1 [] 100 with tNow := BitVec.ofNat 64 (2 ^ 64 - 100) }
    let c := { entity 0 .arbitrate with tNow := BitVec.ofNat 64 (2 ^ 64 - 50) }
    (1 : Byte).toNat < a.cfg.peerCount ∧ (1 : Byte).toNat < b.cfg.peerCount ∧ (1 : Byte).toNat < c.cfg.peerCount ∧
    (a.phase = .drain ∧ 2 ^ 64 ≤ a.tNow.toNat + a.cfg.rto ∧ (a.sender 1).firstFree < 8 ∧ (a.sender 1).pending ≠ []) ∧
    (b.phase = .timeouts ∧ 2 ^ 64 ≤ b.tNow.toNat + b.cfg.rto ∧
      ∃ i : Fin 8, (b.sender 1).armed i = true ∧ (b.sender 1).expiry[i].toNat ≤ b.tNow.toNat) ∧
    (c.phase = .arbitrate ∧ 2 ^ 64 ≤ c.tNow.toNat + c.cfg.pollInterval ∧
      ∀ w ∈ c.snd, ∀ i : Fin 8, w.armed i = false) := by decide +kernel

/-- RCV-1, RCV-4, RCV-5: `idx` 8, 247 and 248. -/
theorem witness_PlaceOutsideWindowIsDropped :
    let s := rcvState [7]
    let idx : Byte → Nat := fun n => (n.toNat + 256 - (s.receiver 1).left.toNat) % 256
    s.phase = .drain ∧ (1 : Byte).toNat < s.cfg.peerCount ∧ idx (xFrame 2).seq = 8 ∧ idx (xFrame 241).seq = 247 ∧
    idx (xFrame 242).seq = 248 ∧ idx (xFrame 249).seq = 255 := by decide +kernel

/-- A duplicate at slot 7, RCV-2, and RCV-3 at slot 0. -/
theorem witness_PlaceInWindowStoresThenScans :
    let s := rcvState [7]
    let idx : Byte → Nat := fun n => (n.toNat + 256 - (s.receiver 1).left.toNat) % 256
    s.phase = .drain ∧ (1 : Byte).toNat < s.cfg.peerCount ∧
    (idx (xFrame 1).seq = (7 : Fin 8).val ∧ (s.receiver 1).present[(7 : Fin 8)] = true) ∧
    (idx (xFrame 250).seq = (0 : Fin 8).val ∧ (s.receiver 1).present[(0 : Fin 8)] = false) ∧
    ((rcvState []).receiver 1).present[(7 : Fin 8)] = false := by decide +kernel

theorem witness_DeliveryScanReleasesRun :
    let s := (rcvState [0, 1, 7]).setReasm 1 ⟨true, List.replicate 568 1⟩
    s.phase = .drain ∧ (1 : Byte).toNat < s.cfg.peerCount ∧ s.Sized ∧
    (s.reasm 1).acc.length + 8 * 57 ≤ s.cfg.maxMsgLen := by decide +kernel

theorem witness_DeliveredRunIsConsecutive :
    let s := rcvState [0, 1, 2, 3, 4, 5, 6, 7]
    s.phase = .drain ∧ (1 : Byte).toNat < s.cfg.peerCount ∧ s.Sized ∧
    ∀ i : Fin 8, (s.receiver 1).present[i] = true →
      (s.receiver 1).buffer[i].seq = (s.receiver 1).left + BitVec.ofNat 8 i.val ∧
      (s.receiver 1).buffer[i].role = .unsegmented := by decide +kernel

theorem witness_GenAckBuildsAckFrame : (entity 1 .drain).phase = .drain := by decide

/-- ORC-4, ORC-5, ORC-6 with `src = PEER_COUNT`, ORC-7, an ack frame and a data frame that pass. -/
theorem witness_RouteFrameTestsThenDispatches :
    let s := entity 0 .drain
    let ok : Frame → Bool := fun f => !isCorrupted s.cfg.crcInit f
    let a := stampFCS 0xFFFF (marshal 1 2 7 0 0x03 [])
    let b := stampFCS 0xFFFF (marshal 4 0 3 0 0x03 [])
    let c := stampFCS 0xFFFF (marshal 0 0 0 0 0x04 [])
    s.phase = .drain ∧ isCorrupted s.cfg.crcInit Frame.zero = true ∧
    (ok a = true ∧ a.dst ≠ s.cfg.selfId) ∧
    (ok b = true ∧ b.dst = s.cfg.selfId ∧ s.cfg.peerCount ≤ b.src.toNat) ∧
    (ok c = true ∧ c.dst = s.cfg.selfId ∧ c.src = s.cfg.selfId) ∧
    (ok ackFrame = true ∧ ackFrame.dst = s.cfg.selfId ∧ ackFrame.src.toNat < s.cfg.peerCount ∧
      ackFrame.src ≠ s.cfg.selfId ∧ ackFrame[4].getLsbD 2 = true) ∧
    (ok (xFrame 1) = true ∧ (xFrame 1).dst = s.cfg.selfId ∧ (xFrame 1).src.toNat < s.cfg.peerCount ∧
      (xFrame 1).src ≠ s.cfg.selfId ∧ (xFrame 1)[4].getLsbD 2 = false) := by decide +kernel

theorem witness_FrameKindsRunAsRouted :
    decodeFrame State.reset.cfg.crcInit hiFrame [] = .instr (.dataUnseg hiFrame) [] ∧
    decodeFrame State.reset.cfg.crcInit ackFrame [] = .instr (.ack ackFrame) [] := by decide +kernel

/-- RCV-2, at the last slot, for a frame kind and for ROUTE_FRAME. -/
theorem witness_DataFramesAreHeldAndAcked :
    let s := rcvState []
    let f := xFrame 1
    s.phase = .drain ∧ f.dst = s.cfg.selfId ∧ f.src.toNat < s.cfg.peerCount ∧ f.src ≠ s.cfg.selfId ∧
    (isCorrupted s.cfg.crcInit f = false ∧ f.kind = false) ∧
    (f.seq.toNat + 256 - (s.receiver f.src).left.toNat) % 256 = (7 : Fin 8).val ∧ 0 < (7 : Fin 8).val ∧
    (s.receiver f.src).present[(7 : Fin 8)] = false ∧ (s.receiver f.src).present[0] = false ∧
    f.src.toNat < s.rcv.length := by decide +kernel

theorem witness_AckFramesReachTheSender :
    let s := sndState .drain 0 1 [] 100
    let f := ackFrame
    s.phase = .drain ∧ f.dst = s.cfg.selfId ∧ f.src.toNat < s.cfg.peerCount ∧ f.src ≠ s.cfg.selfId ∧
    (isCorrupted s.cfg.crcInit f = false ∧ f.kind = true) ∧ f.ack = (s.sender f.src).left ∧
    0 < (s.sender f.src).firstFree ∧ (s.sender f.src).acked[1] = false := by decide +kernel

/-- ORC-8, with `dstId = PEER_COUNT`. -/
theorem witness_ProcessCmdBadDestinationIsDropped :
    (entity 0 .drain).phase = .drain ∧ (entity 0 .drain).cfg.peerCount ≤ (4 : Byte).toNat ∧
    (0 : Byte) = (entity 0 .drain).cfg.selfId := by decide

theorem witness_ProcessCmdEnqueuesSegments :
    let s := sndState .drain 0 0 [] 0
    let t := s.setSender 1 { SenderWindow.reset with pending := List.replicate 63 hiFrame }
    s.phase = .drain ∧ t.phase = .drain ∧ (1 : Byte).toNat < s.cfg.peerCount ∧ (1 : Byte) ≠ s.cfg.selfId ∧
    (1 : Byte).toNat < s.snd.length ∧ (1 : Byte).toNat < t.snd.length ∧
    (t.sender 1).pending.length + (segment t.cfg 1 (List.replicate 56 1)).length ≤ t.cfg.pendingDepth ∧
    t.cfg.pendingDepth < (t.sender 1).pending.length + (segment t.cfg 1 (List.replicate 57 1)).length := by
  decide +kernel

theorem witness_RxPushAppendsOrOverflows :
    let s := { entity 0 .wait with rxq := List.replicate 15 hiFrame }
    let t := { entity 0 .wait with rxq := List.replicate 16 hiFrame }
    (entity 0 .fatal).phase = .fatal ∧ (s.Live ∧ s.rxq.length < s.cfg.rxqDepth) ∧
    (t.Live ∧ t.rxq.length = t.cfg.rxqDepth) := by decide +kernel

theorem witness_CmdPushAppendsOrOverflows :
    let s := { entity 0 .wait with cmdq := List.replicate 15 ⟨0, 1, []⟩ }
    let t := { entity 0 .wait with cmdq := List.replicate 16 ⟨0, 1, []⟩ }
    (entity 0 .fatal).phase = .fatal ∧
    (s.Live ∧ (List.replicate 1023 (1 : Byte)).length ≤ s.cfg.maxTextLen ∧ s.cmdq.length < s.cfg.cmdqDepth) ∧
    (t.Live ∧ ([] : List Byte).length ≤ t.cfg.maxTextLen ∧ t.cmdq.length = t.cfg.cmdqDepth) := by decide +kernel

theorem witness_CmdPushOfLongTextIsRefused :
    (entity 0 .wait).Live ∧ (entity 0 .wait).cfg.maxTextLen < (List.replicate 1024 (1 : Byte)).length := by decide +kernel

/-- For SampleTakesTheTime, and the phases of StepMovesAgents. -/
theorem witness_loop_phases :
    (entity 0 .sample).phase = .sample ∧ (entity 0 .arbitrate).phase = .arbitrate ∧ (entity 0 .wait).phase = .wait ∧
    (entity 0 .drain).phase = .drain ∧ (entity 0 .timeouts).phase = .timeouts ∧
    (entity 0 .transmit).phase = .transmit ∧ (entity 0 .fatal).phase = .fatal := by decide

theorem witness_ArbitrateTakesEarliestDeadline :
    let s := sndState .arbitrate 0 1 [] 250
    let t := { sndState .arbitrate 0 1 [0] 250 with tNow := BitVec.ofNat 64 (2 ^ 64 - 51) }
    s.phase = .arbitrate ∧ t.phase = .arbitrate ∧ (∃ w ∈ s.snd, ∃ i : Fin 8, w.armed i = true) ∧
    (∀ w ∈ t.snd, ∀ i : Fin 8, w.armed i = false) ∧ t.tNow.toNat + t.cfg.pollInterval < 2 ^ 64 := by decide +kernel

/-- Each reason to leave, and the last moment the worker holds. -/
theorem witness_WaitLeavesOrHolds :
    let s := { entity 0 .wait with deadline := 50, nowIn := 50 }
    let t := { entity 0 .wait with deadline := 50, nowIn := 49 }
    s.phase = .wait ∧ t.phase = .wait ∧ s.deadline.toNat ≤ s.nowIn.toNat ∧ { t with rxq := [hiFrame] }.rxq ≠ [] ∧
    { t with cmdq := [⟨0, 1, []⟩] }.cmdq ≠ [] ∧ (t.rxq = [] ∧ t.cmdq = [] ∧ t.nowIn.toNat < t.deadline.toNat) := by
  decide +kernel

theorem witness_DrainProcessesBothQueues :
    let s := { rcvState [7] with rxq := [xFrame 250, ackFrame], cmdq := [⟨0, 1, List.replicate 57 1⟩] }
    s.phase = .drain ∧ s.Sized ∧ s.tNow.toNat + s.cfg.rto < 2 ^ 64 ∧
    (∀ w ∈ s.snd, w.pending.length + (s.cmdq.map fun c => frameCount (c.text.length + 1)).sum ≤ s.cfg.pendingDepth) ∧
    ∀ a ∈ s.asm, a.acc.length + 8 * 57 * s.rxq.length ≤ s.cfg.maxMsgLen := by decide +kernel

theorem witness_DrainBatchOrder :
    let s := { rcvState [] with rxq := [xFrame 250, ackFrame], cmdq := [⟨0, 2, [0x61]⟩] }
    s.cfg.Valid ∧ s.phase = .drain ∧ after (exec .drain s) (fun t => (t.batch.length, decide t.Live)) = some (2, true) := by
  decide +kernel

theorem witness_TimeoutsStepChecksEveryPeer :
    let s := { sndState .timeouts 0 1 [] 100 with tNow := BitVec.ofNat 64 (2 ^ 64 - 101) }
    s.agenda = [] ∧ s.phase = .timeouts ∧ s.cfg.Valid ∧ s.Sized ∧
    (BitVec.ofNat 64 (2 ^ 64 - 1)).toNat = s.tNow.toNat + s.cfg.rto := by decide +kernel

theorem witness_TransmitSendsHoldsOrRepeats :
    let s := { entity 0 .transmit with batch := [hiFrame, ackFrame] }
    s.phase = .transmit ∧ (entity 0 .transmit).batch = [] ∧ s.batch = hiFrame :: [ackFrame] ∧ s.txReady = true ∧
    { s with txReady := false }.txReady = false := by decide +kernel

theorem witness_StepRunsDecodedInstruction :
    let s := { entity 0 .drain with agenda := [.fetch .op [0x0C, 1, 9, 7], .worker] }
    s.agenda = .fetch .op [0x0C, 1, 9, 7] :: [.worker] ∧
    decode s.cfg.crcInit .op [0x0C, 1, 9, 7] = .instr (.onAck 1 9) [7] := by decide +kernel

theorem witness_StepMovesAgents :
    let s := { State.reset with nowIn := 5 }
    State.reset.agenda = [] ∧ { s with agenda := [.worker] }.agenda = .worker :: [] ∧
    { s with agenda := [.now 5] }.agenda = .now 5 :: [] ∧ s.nowIn.toNat ≤ (5 : Time).toNat ∧
    (4 : Time).toNat < s.nowIn.toNat ∧ { s with agenda := [.txReady false] }.agenda = .txReady false :: [] := by
  decide +kernel

theorem witness_FatalIsLeftOnlyByReset : (entity 0 .fatal).phase = .fatal ∧ Instr.drain ≠ .reset := by decide

/-- One way into `FATAL` for each code. -/
theorem witness_FatalCauses :
    let view : State → Phase × FatalCode := fun t => (t.phase, t.fatalCode)
    let s := { entity 0 .drain with rxq := List.replicate 16 hiFrame, cmdq := List.replicate 16 ⟨0, 1, []⟩ }
    let few := { Config.default with pendingDepth := 0, maxMsgLen := 57 }
    s.Live ∧ after (exec (.rxPush hiFrame) s) view = some (.fatal, .rxqOverflow) ∧
    after (exec (.cmdPush ⟨0, 1, []⟩) s) view = some (.fatal, .cmdqOverflow) ∧
    after (exec (.processCmd ⟨0, 1, []⟩) { s with cfg := few }) view = some (.fatal, .pendingOverflow) ∧
    after (exec (.reassemble 1 (part .middle 0 [])) { asmState true [1] with cfg := few }) view =
      some (.fatal, .reasmOverflow) ∧
    after (exec .arbitrate { entity 0 .arbitrate with tNow := BitVec.ofNat 64 (2 ^ 64 - 1) }) view =
      some (.fatal, .timeOverflow) := by decide +kernel

theorem witness_NoOperationWritesConfigOrInputs :
    after (exec .reset { entity 0 .fatal with nowIn := 5 }) (fun t => (t.nowIn, t.tNow)) = some (5, 0) := by decide +kernel

theorem witness_LogsOnlyGrow :
    Instr.transmit ≠ .reset ∧ Instr.drain ≠ .transmit ∧
    after (exec .transmit { entity 0 .transmit with batch := [hiFrame] }) (·.txlog) = some [hiFrame] ∧
    after (exec (.onAck 1 9) (entity 0 .drain)) (·.trlog.length) = some 1 := by decide +kernel

/-- A step from reset, a reset fetched in `FATAL`, and a push that raises a fatal condition. -/
theorem witness_PhaseCycle :
    after (step State.reset) (·.phase) = some .arbitrate ∧
    after (step { entity 0 .fatal with agenda := [.fetch .op [0x16]] }) (·.phase) = some .sample ∧
    after (step { entity 0 .wait with agenda := [.fetch .op (0x01 :: hiFrame.toList)], rxq := List.replicate 16 hiFrame })
      (·.phase) = some .fatal := by decide +kernel

/-- A state that satisfies the invariant with a window in use, a frame held and queues not empty. -/
def busy : State :=
  { (rcvState [7]).setSender 1 ((sndState .drain 254 4 [2] 100).sender 1) with
      rxq := [xFrame 250], cmdq := [⟨0, 1, [0x61]⟩] }

theorem witness_InvariantKept : busy.Inv ∧ after (step busy) (·.phase) = some .timeouts := by decide +kernel

theorem witness_InvariantAtReset :
    Config.default.Valid ∧ { Config.default with selfId := 255, peerCount := 256, maxMsgLen := 57 }.Valid := by decide

theorem witness_BatchNeverOverflows :
    let s := { busy with agenda := [.worker, .fetch .op (0x01 :: hiFrame.toList), .now 7] }
    s.PortDriven ∧ s.rxq.length ≤ s.cfg.rxqDepth ∧ s.batch.length ≤ batchLimit s.cfg s.phase ∧
    after (step s) (·.batch.length) = some 2 := by decide +kernel

theorem witness_SelfWindowsStayAtReset :
    let s := { busy with agenda := [.worker, .fetch .op [0x16]] }
    s.cfg.Valid ∧ s.Sized ∧ s.PortDriven ∧ s.Live ∧ s.sender s.cfg.selfId = SenderWindow.reset ∧
    s.receiver s.cfg.selfId = ReceiverWindow.reset ∧ s.reasm s.cfg.selfId = Reassembler.reset ∧
    after (step s) (·.phase) = some .timeouts := by decide +kernel

end Sys2Proof.Tests
end

section
/-! PROOFS. The bound of `batch` (R8, R59): each part of a `DRAIN` or `TIMEOUTS` step appends a bounded
number of frames, and so every step of a run of port events keeps `batch` within the limit of its phase. -/

namespace Sys2Proof.Machine
open Sys2Proof

/-! ## How many frames a part of a step appends -/

/-- From `s` to `t` the inbound queue stayed and `batch` grew by at most `n` frames. -/
structure AppendsAtMost (n : Nat) (s t : State) : Prop where
  rxq : t.rxq = s.rxq
  batch : t.batch.length ≤ s.batch.length + n

/-- A loop whose body appends at most `n` frames appends at most `n` for each round. -/
theorem forEach_appendsAtMost {α : Type} {n : Nat} {body : α → State → Run}
    (h : ∀ x s t, body x s = .ok t → AppendsAtMost n s t) {xs : List α} {s t : State}
    (ht : forEach body xs s = .ok t) : AppendsAtMost (n * xs.length) s t := by
  induction xs generalizing s with
  | nil =>
    simp only [forEach_nil, Run.ok.injEq] at ht
    exact ht ▸ ⟨rfl, Nat.le_add_right _ _⟩
  | cons x xs ih =>
    rw [forEach_cons, andThen_eq_ok] at ht
    obtain ⟨u, hu, ht⟩ := ht
    obtain ⟨hq, hb⟩ := h x s u hu
    obtain ⟨hq', hb'⟩ := ih ht
    exact ⟨hq'.trans hq, by rw [List.length_cons, Nat.mul_succ]; omega⟩

/-- A part of a step that commutes with every change of the queues keeps `rxq`. -/
theorem rxq_of_withQueues {body : State → Run}
    (h : ∀ q c t, body (t.withQueues q c) = (body t).map (·.withQueues q c)) {s t : State}
    (ht : body s = .ok t) : t.rxq = s.rxq := by
  have hq := (queues_of_withQueues h s).1
  rwa [ht] at hq

/-- A routed frame appends at most its ack (R312). -/
theorem routeFrame_appendsAtMost {f : Frame} {s t : State} (h : routeFrame f s = .ok t) :
    AppendsAtMost 1 s t := by
  refine ⟨rxq_of_withQueues (fun q c => routeFrame_withQueues q c f) h, ?_⟩
  rw [routeFrame_batch h]
  split <;> simp

/-- The commands append nothing. -/
theorem processCmds_appendsAtMost {cs : List Command} {s t : State} (h : forEach processCmd cs s = .ok t) :
    AppendsAtMost 0 s t :=
  ⟨rxq_of_withQueues (fun q c => forEach_map (g := (·.withQueues q c)) (processCmd_withQueues q c) cs) h,
    (congrArg List.length (processCmds_batch h)).le⟩

theorem SenderWindow.length_admitted_le (init : BitVec 16) (w : SenderWindow) :
    (w.admitted init).length ≤ 8 := by
  simp only [SenderWindow.admitted, List.length_mapIdx, List.length_take]
  omega

/-- ADMIT appends at most one frame per slot (R263). -/
theorem admitPending_appendsAtMost {p : Byte} {s t : State} (h : admitPending p s = .ok t) :
    AppendsAtMost 8 s t := by
  refine ⟨rxq_of_withQueues (fun q c => admitPending_withQueues q c p) h, ?_⟩
  rw [(admitPending_batch h).1, List.length_append]
  exact Nat.add_le_add_left (SenderWindow.length_admitted_le _ _) _

/-- CHECK_TIMEOUTS appends at most one frame per slot (R272). -/
theorem checkTimeouts_appendsAtMost {p : Byte} {s t : State} (h : checkTimeouts p s = .ok t) :
    AppendsAtMost 8 s t := by
  rcases checkTimeouts_cases p s with ⟨e, _, hr⟩ | ⟨_, _, hr⟩ | ⟨f, fs, _, _, hr⟩ <;>
    rw [hr] at h <;> simp only [Run.ok.injEq, reduceCtorEq] at h <;> subst h
  · refine ⟨rfl, ?_⟩
    rw [State.append_batch, List.length_append]
    exact Nat.add_le_add_left (SenderWindow.length_expired_le _ _) _
  · exact ⟨rfl, Nat.le_add_right _ _⟩

@[simp] theorem length_peersOf (c : Config) : (peersOf c).length = c.peerCount := by simp [peersOf]

/-- A `DRAIN` step empties `rxq`, and appends at most one ack per frame of it and `W` frames per peer. -/
theorem drain_bounds {s t : State} (h : drain s = .ok t) :
    t.phase = .timeouts ∧ t.rxq = [] ∧
    t.batch.length ≤ s.batch.length + s.rxq.length + windowSize * s.cfg.peerCount := by
  obtain ⟨a, b, c, ha, hb, hc, rfl⟩ := (drain_parts s).1 t h
  obtain ⟨qa, na⟩ := forEach_appendsAtMost (fun _ _ _ => routeFrame_appendsAtMost) ha
  obtain ⟨qb, nb⟩ := processCmds_appendsAtMost hb
  obtain ⟨qc, nc⟩ := forEach_appendsAtMost (fun _ _ _ => admitPending_appendsAtMost) hc
  refine ⟨rfl, qc.trans (qb.trans qa), ?_⟩
  rw [length_peersOf] at nc
  have n0 : (s.withQueues [] []).batch = s.batch := rfl
  rw [n0] at na
  simp only [State.goto_batch, windowSize]
  omega

/-- A `TIMEOUTS` step keeps `rxq` and appends at most `W` frames per peer. -/
theorem timeouts_bounds {s t : State} (h : timeouts s = .ok t) :
    t.phase = .transmit ∧ t.rxq = s.rxq ∧ t.batch.length ≤ s.batch.length + windowSize * s.cfg.peerCount := by
  obtain ⟨c, hc, rfl⟩ := timeouts_eq_ok h
  obtain ⟨hq, hb⟩ := forEach_appendsAtMost (fun _ _ _ => checkTimeouts_appendsAtMost) hc
  rw [length_peersOf] at hb
  exact ⟨rfl, hq, hb⟩

/-! ## The configuration and what is to come -/

/-- `t` has the configuration and the agenda of `s`. -/
structure SameSetup (s t : State) : Prop where
  cfg : t.cfg = s.cfg
  agenda : t.agenda = s.agenda

theorem SameSetup.trans {a b c : State} (h : SameSetup a b) (k : SameSetup b c) : SameSetup a c :=
  ⟨k.cfg.trans h.cfg, k.agenda.trans h.agenda⟩

theorem Inner.sameSetup {s t : State} (h : Inner s t) : SameSetup s t := ⟨h.cfg, h.agenda⟩

theorem sameSetup_andThen {s : State} {r : Run} {k : State → Run} (hr : SameSetup s r.state)
    (hk : ∀ t, SameSetup t (k t).state) : SameSetup s (r.andThen k).state := by
  cases r with
  | ok t => exact hr.trans (hk t)
  | fatal c t => exact hr

theorem sameSetup_drain (s : State) : SameSetup s (drain s).state :=
  sameSetup_andThen (inner_drainFrames _ s).sameSetup fun a =>
  sameSetup_andThen (inner_drainCmds _ a).sameSetup fun b =>
  sameSetup_andThen (inner_forEach (fun p _ => inner_admit p) b).sameSetup fun _ => ⟨rfl, rfl⟩

theorem sameSetup_timeouts (s : State) : SameSetup s (timeouts s).state :=
  sameSetup_andThen (inner_forEach (fun p _ => inner_checkTimeouts p) s).sameSetup fun _ => ⟨rfl, rfl⟩

/-! ## The invariant -/

/-- Only port events are to come, and `rxq` and `batch` are within their bounds (R57, R8). -/
structure State.InBounds (s : State) : Prop where
  portDriven : s.PortDriven
  rxq : s.rxq.length ≤ s.cfg.rxqDepth
  batch : s.batch.length ≤ batchLimit s.cfg s.phase

/-- R8: no phase allows more than `BATCH_DEPTH` frames. -/
theorem batchLimit_le_batchDepth (cfg : Config) (ph : Phase) : batchLimit cfg ph ≤ cfg.batchDepth := by
  cases ph <;> simp only [batchLimit, Config.batchDepth, windowSize] <;> omega

theorem State.PortDriven.of_sameSetup {s t : State} (h : s.PortDriven) (hst : SameSetup s t) : t.PortDriven := by
  simpa only [State.PortDriven, hst.cfg, hst.agenda] using h

/-- A state with the same configuration and agenda is in bounds where its queue and batch are. -/
theorem State.InBounds.of_sameSetup {s t : State} (h : s.InBounds) (hst : SameSetup s t)
    (hr : t.rxq.length ≤ s.cfg.rxqDepth) (hb : t.batch.length ≤ batchLimit s.cfg t.phase) : t.InBounds :=
  ⟨State.PortDriven.of_sameSetup h.portDriven hst, hst.cfg ▸ hr, hst.cfg ▸ hb⟩

theorem State.InBounds.batch_in {s : State} (h : s.InBounds) {ph : Phase} (hp : s.phase = ph) :
    s.batch.length ≤ batchLimit s.cfg ph := hp ▸ h.batch

/-- The event taken from the agenda leaves the rest of it and the bounds. -/
theorem State.InBounds.pop {s : State} (h : s.InBounds) {e : Event} {rest : List Event}
    (ha : s.agenda = e :: rest) : State.InBounds { s with agenda := rest } :=
  ⟨fun e' he => h.portDriven e' (ha ▸ List.mem_cons_of_mem e he), h.rxq, h.batch⟩

/-- An atomic step ends in bounds where it does so when it goes on: a raise ends in them by itself, the free
values being within their physical bounds (R420). -/
theorem State.InBounds.commit {s t : State} {r : Run} (h : s.InBounds) (hst : SameSetup s r.state)
    (hok : ∀ u, r = .ok u → u.rxq.length ≤ s.cfg.rxqDepth ∧ u.batch.length ≤ batchLimit s.cfg u.phase)
    (ht : r.commit = .next t) : t.InBounds := by
  rcases commit_cases ht with rfl | ⟨c, u, rfl, rfl⟩
  · exact h.of_sameSetup hst (hok t rfl).1 (hok t rfl).2
  · have hu : SameSetup s (raiseFatal c u) := ⟨hst.cfg, hst.agenda⟩
    have hcfg : u.cfg = s.cfg := hst.cfg
    exact h.of_sameSetup hu (hcfg ▸ raiseFatal_rxq_length_le c u) (hcfg ▸ raiseFatal_batch_length_le c u)

/-- A raise from a state in bounds ends in bounds. -/
theorem State.InBounds.raise {s t : State} {c : FatalCode} (h : s.InBounds)
    (ht : (Run.fatal c s).commit = .next t) : t.InBounds :=
  h.commit ⟨rfl, rfl⟩ (by simp) ht

/-- Where an operation is not enabled the state stays, bounds and all (R350). -/
theorem State.InBounds.inPhase {s t : State} {ph : Phase} {k : Host.Outcome State Fault Refusal}
    (h : s.InBounds) (hk : s.phase = ph → k = .next t → t.InBounds)
    (ht : Machine.inPhase ph s k = .next t) : t.InBounds := by
  rcases inPhase_next ht with ⟨hp, hn⟩ | ⟨_, rfl⟩
  · exact hk hp hn
  · exact h

theorem State.InBounds.unlessFatal {s t : State} {k : Host.Outcome State Fault Refusal}
    (h : s.InBounds) (hk : k = .next t → t.InBounds)
    (ht : Machine.unlessFatal s k = .next t) : t.InBounds := by
  rcases unlessFatal_next ht with ⟨_, hn⟩ | ⟨_, rfl⟩
  · exact hk hn
  · exact h

/-! ## What keeps it: the steps of the loop -/

section
variable {s t : State} (h : s.InBounds)
include h

theorem execSample_inBounds (ht : execSample s = .next t) : t.InBounds := by
  refine h.inPhase (fun hp hn => ?_) ht
  have h0 : s.batch.length ≤ 0 := h.batch_in hp
  cases hn
  exact h.of_sameSetup ⟨rfl, rfl⟩ h.rxq h0

theorem execArbitrate_inBounds (ht : execArbitrate s = .next t) : t.InBounds := by
  refine h.inPhase (fun hp hn => ?_) ht
  have h0 : s.batch.length ≤ 0 := h.batch_in hp
  unfold arbitrate at hn
  cases hd : s.nextDeadline <;> rw [hd] at hn
  case none => exact h.raise hn
  case some d =>
    refine h.commit ⟨rfl, rfl⟩ (fun u hu => ?_) hn
    cases hu
    exact ⟨h.rxq, h0⟩

theorem execWait_inBounds (ht : execWait s = .next t) : t.InBounds := by
  refine h.inPhase (fun hp hn => ?_) ht
  have h0 : s.batch.length ≤ 0 := h.batch_in hp
  split at hn <;> cases hn
  · exact h.of_sameSetup ⟨rfl, rfl⟩ h.rxq h0
  · exact h

/-- `DRAIN` starts with an empty batch, and adds one ack per inbound frame and `W` frames per peer. -/
theorem execDrain_inBounds (ht : execDrain s = .next t) : t.InBounds := by
  refine h.inPhase (fun hp hn => h.commit (sameSetup_drain s) (fun u hu => ?_) hn) ht
  obtain ⟨hph, hq, hb⟩ := drain_bounds hu
  have h0 : s.batch.length ≤ 0 := h.batch_in hp
  have hr := h.rxq
  rw [hph, hq]
  exact ⟨Nat.zero_le _, by simp only [batchLimit]; omega⟩

/-- `TIMEOUTS` adds `W` frames per peer to what `DRAIN` left, which makes `BATCH_DEPTH` (R8). -/
theorem timeoutsStep_inBounds (ht : timeoutsStep s = .next t) : t.InBounds := by
  refine h.inPhase (fun hp hn => h.commit (sameSetup_timeouts s) (fun u hu => ?_) hn) ht
  obtain ⟨hph, hq, hb⟩ := timeouts_bounds hu
  have h0 : s.batch.length ≤ s.cfg.rxqDepth + windowSize * s.cfg.peerCount := h.batch_in hp
  rw [hph, hq]
  exact ⟨h.rxq, by simp only [batchLimit, Config.batchDepth, windowSize] at hb h0 ⊢; omega⟩

/-- `TRANSMIT` returns to `SAMPLE` only once `batch` is empty (R361). -/
theorem execTransmit_inBounds (ht : execTransmit s = .next t) : t.InBounds := by
  refine h.inPhase (fun _ hn => ?_) ht
  cases hn
  unfold transmit
  cases hb : s.batch with
  | nil => exact h.of_sameSetup ⟨rfl, rfl⟩ h.rxq (by simp [hb])
  | cons f rest =>
    have hlen : rest.length ≤ s.batch.length := by simp [hb]
    cases s.txReady
    · exact h
    · exact h.of_sameSetup ⟨rfl, rfl⟩ h.rxq (hlen.trans h.batch)

theorem workerStep_inBounds (ht : workerStep s = .next t) : t.InBounds := by
  unfold workerStep at ht
  cases hp : s.phase <;> rw [hp] at ht
  case sample => exact execSample_inBounds h ht
  case arbitrate => exact execArbitrate_inBounds h ht
  case wait => exact execWait_inBounds h ht
  case drain => exact execDrain_inBounds h ht
  case timeouts => exact timeoutsStep_inBounds h ht
  case transmit => exact execTransmit_inBounds h ht
  case fatal => cases ht; exact h

/-! ## What keeps it: the pushes, RESET and the operations that only answer -/

theorem execRxPush_inBounds {f : Frame} (ht : execRxPush f s = .next t) : t.InBounds := by
  refine h.unlessFatal (fun hn => ?_) ht
  unfold rxPush at hn
  split at hn
  next => exact h.raise hn
  next hroom =>
    refine h.commit ⟨rfl, rfl⟩ (fun u hu => ?_) hn
    cases hu
    exact ⟨by simp only [List.length_append, List.length_singleton]; omega, h.batch⟩

theorem execCmdPush_inBounds {c : Command} (ht : execCmdPush c s = .next t) : t.InBounds := by
  refine h.unlessFatal (fun hn => ?_) ht
  split at hn
  next => cases hn
  next =>
    unfold cmdPush at hn
    split at hn
    next => exact h.raise hn
    next =>
      refine h.commit ⟨rfl, rfl⟩ (fun u hu => ?_) hn
      cases hu
      exact ⟨h.rxq, h.batch⟩

theorem execReset_inBounds (ht : execReset s = .next t) : t.InBounds := by
  cases ht
  exact h.of_sameSetup ⟨rfl, rfl⟩ (Nat.zero_le _) (Nat.zero_le _)

theorem answer_inBounds {a : Answer} (ht : unlessFatal s (.next (s.answer a)) = .next t) : t.InBounds :=
  h.unlessFatal (fun hn => by
    cases hn
    exact h.of_sameSetup ⟨rfl, rfl⟩ h.rxq h.batch) ht

/-- Every operation of a port keeps the bounds. -/
theorem exec_inBounds {i : Instr} (hi : isInternal i = false) (ht : exec i s = .next t) : t.InBounds := by
  cases i with
  | rxPush f => exact execRxPush_inBounds h ht
  | cmdPush c => exact execCmdPush_inBounds h ht
  | sample => exact execSample_inBounds h ht
  | arbitrate => exact execArbitrate_inBounds h ht
  | wait => exact execWait_inBounds h ht
  | drain => exact execDrain_inBounds h ht
  | segment dst text => exact answer_inBounds h ht
  | computeFcs f => exact answer_inBounds h ht
  | isCorrupted f => exact answer_inBounds h ht
  | transmit => exact execTransmit_inBounds h ht
  | reset => exact execReset_inBounds h ht
  | slotIndex n base => exact answer_inBounds h ht
  | _ => simp [isInternal] at hi

/-! ## What keeps it: the other agents, and so every step -/

theorem driveNow_inBounds {u : Time} (ht : driveNow u s = .next t) : t.InBounds := by
  unfold driveNow at ht
  split at ht <;> cases ht
  exact ⟨h.portDriven, h.rxq, h.batch⟩

theorem driveTxReady_inBounds {b : Bool} (ht : driveTxReady b s = .next t) : t.InBounds := by
  cases ht
  exact ⟨h.portDriven, h.rxq, h.batch⟩

theorem step_inBounds (ht : step s = .next t) : t.InBounds := by
  rcases step_cases s with ⟨_, hs⟩ | ⟨e, rest, ha, hcases⟩
  · exact workerStep_inBounds h (hs ▸ ht)
  have hport : isPortEvent s.cfg.crcInit e = true := h.portDriven e (by simp [ha])
  have hpop := h.pop ha
  rcases hcases with ⟨_, hs⟩ | ⟨u, _, hs⟩ | ⟨b, _, hs⟩ | ⟨fmt, bytes, i, more, rfl, hd, hs⟩ |
    ⟨fmt, bytes, r, rfl, hd, _⟩
  · exact workerStep_inBounds hpop (hs ▸ ht)
  · exact driveNow_inBounds hpop (hs ▸ ht)
  · exact driveTxReady_inBounds hpop (hs ▸ ht)
  · exact exec_inBounds hpop (by simpa [isPortEvent, hd] using hport) (hs ▸ ht)
  · simp [isPortEvent, hd] at hport

end

/-- Settles O59: every step keeps `InBounds`, whose limit of the batch is at most `BATCH_DEPTH` in every phase. -/
theorem batchNeverOverflows : Obligations.BatchNeverOverflows := by
  unfold Obligations.BatchNeverOverflows
  intro s t hport hrxq hbatch ht
  obtain ⟨hport', hrxq', hbatch'⟩ := step_inBounds ⟨hport, hrxq, hbatch⟩ ht
  exact ⟨hport', hrxq', hbatch', hbatch'.trans (batchLimit_le_batchDepth _ _)⟩

end Sys2Proof.Machine
end

section
/-! PROOFS. The window invariants (R64, R65, R56): each write of a window keeps the window's invariant, and so each
part of a step that goes on keeps soundness of the state. -/

namespace Sys2Proof.Machine
open Sys2Proof

/-! ## Stamped frames are valid -/

/-- R180: while a byte stands in the low half of the register no bit leaves at the top. -/
theorem crcBit_shifted_byte (b : Byte) {k : Nat} (hk : k < 8) :
    crcBit (b.zeroExtend 16 <<< k) = b.zeroExtend 16 <<< (k + 1) := by
  have htop : (b.zeroExtend 16 <<< k).getLsbD 15 = false := by
    simp only [BitVec.getLsbD_shiftLeft, BitVec.truncate_eq_setWidth, BitVec.getLsbD_setWidth,
      BitVec.getLsbD_of_ge b (15 - k) (by omega), Bool.and_false]
  rw [crcBit, if_neg (Bool.eq_false_iff.mp htop), BitVec.shiftLeft_add]

/-- R180: a byte equal to the high half of the register cancels it, and the low half moves up. -/
theorem crcByte_high (r : BitVec 16) :
    crcByte r (r.extractLsb' 8 8) = (r.extractLsb' 0 8).zeroExtend 16 <<< 8 := by
  have hlow : r ^^^ ((r.extractLsb' 8 8).zeroExtend 16 <<< 8) = (r.extractLsb' 0 8).zeroExtend 16 <<< 0 := by
    ext i hi
    by_cases h : i < 8
    · simp [h, BitVec.getLsbD_eq_getElem hi]
    · have hi8 : 8 + (i - 8) = i := by omega
      have hlt : i - 8 < 8 := by omega
      simp [h, hi8, hlt, BitVec.getLsbD_eq_getElem hi]
  rw [crcByte, hlow]
  iterate 8 rw [crcBit_shifted_byte _ (by decide)]

/-- R180: the CRC of its own two bytes, the high one first, is 0. -/
theorem crc16_own_bytes (c : BitVec 16) : crc16 c [c.extractLsb' 8 8, c.extractLsb' 0 8] = 0 := by
  have hzero : crcByte ((c.extractLsb' 0 8).zeroExtend 16 <<< 8) (c.extractLsb' 0 8) = crcByte 0 0 := by
    simp [crcByte]
  simp only [crc16, List.foldl_cons, List.foldl_nil, crcByte_high, hzero]
  decide

/-- R185: a stamped frame has CRC residue 0. -/
theorem isCorrupted_stampFCS (init : BitVec 16) (f : Frame) : isCorrupted init (stampFCS init f) = false := by
  have hfcs : crc16 init ((stampFCS init f).toList.take 62) = computeFCS init f :=
    computeFCS_setFcs init _ f
  have h62 : (stampFCS init f)[62] = (computeFCS init f).extractLsb' 8 8 := getElem_setFcs _ _ (by decide)
  have h63 : (stampFCS init f)[63] = (computeFCS init f).extractLsb' 0 8 := getElem_setFcs _ _ (by decide)
  rw [isCorrupted, toList_eq_take_fcs, crc16_append, hfcs, h62, h63, crc16_own_bytes]
  rfl

/-! ## Sender windows -/

theorem SenderWindow.reset_inv (cfg : Config) : SenderWindow.reset.Inv cfg :=
  ⟨Nat.zero_le _, fun _ hi => absurd hi (Nat.not_lt_zero _), .inl rfl, Nat.zero_le _⟩

/-- R263, R264: the frame admitted to the first free slot has that slot's number and a valid fcs. -/
theorem SenderWindow.Inv.admitOne {cfg : Config} {w : SenderWindow} (hw : w.Inv cfg) (h : w.firstFree < 8)
    {rest : List Frame} (hrest : rest.length ≤ cfg.pendingDepth) (f : Frame) (t : Time) :
    SenderWindow.Inv cfg { w with
      pending := rest
      buffer := w.buffer.set w.firstFree (w.stamped cfg.crcInit f) h
      acked := w.acked.set w.firstFree false h
      expiry := w.expiry.set w.firstFree t h
      firstFree := w.firstFree + 1 } := by
  obtain ⟨_, hbuf, hbase, _⟩ := hw
  refine ⟨h, fun i hi => ?_, .inr ?_, hrest⟩
  · simp only [Fin.getElem_fin, Vector.getElem_set]
    split
    next heq => simp [SenderWindow.stamped, isCorrupted_stampFCS, heq]
    next hne => exact hbuf i (by simp only at hi; omega)
  · simp only [Vector.getElem_set]
    split
    next => rfl
    next hne => exact hbase.resolve_left hne

/-- R263: admission that does not overflow keeps the window's invariant. -/
theorem admitLoop_inv {cfg : Config} {e : Option Time} {q : List Frame} {w : SenderWindow} (hw : w.Inv cfg)
    (hq : q.length ≤ cfg.pendingDepth) (ho : (admitLoop cfg.crcInit e q w).overflow = false) :
    (admitLoop cfg.crcInit e q w).window.Inv cfg := by
  induction q generalizing w with
  | nil => exact hw
  | cons f rest ih =>
    have hrest : rest.length ≤ cfg.pendingDepth := (Nat.le_succ _).trans hq
    simp only [admitLoop] at ho ⊢
    split at ho
    next hlt =>
      cases e with
      | none => simp at ho
      | some t =>
        simp only [dif_pos hlt] at ho ⊢
        exact ih (hw.admitOne hlt hrest f t) hrest ho
    next hge => simpa only [dif_neg hge] using hw

/-- R268: a slide by the ack run restores the whole invariant from the part that a recorded ack keeps. -/
theorem SenderWindow.slide_inv {cfg : Config} {w : SenderWindow} (hfree : w.firstFree ≤ 8)
    (hbuf : ∀ i : Fin 8, i.val < w.firstFree →
      w.buffer[i].seq = seqAt w.left i.val ∧ isCorrupted cfg.crcInit w.buffer[i] = false)
    (hpending : w.pending.length ≤ cfg.pendingDepth) : w.slide.Inv cfg := by
  have hbase := w.slide_base
  rw [SenderWindow.slide_eq] at hbase ⊢
  refine ⟨(Nat.sub_le _ _).trans hfree, fun i hi => ?_, hbase, hpending⟩
  rw [SenderWindow.slideBy_firstFree] at hi
  have hlt : i.val + w.ackRun < 8 := by omega
  simp only [SenderWindow.slideBy_buffer, SenderWindow.slideBy_left, Fin.getElem_fin, getElem_shifted,
    dif_pos hlt, seqAt_advance]
  exact hbuf ⟨_, hlt⟩ (by simp only; omega)

theorem SenderWindow.Inv.slide {cfg : Config} {w : SenderWindow} (hw : w.Inv cfg) : w.slide.Inv cfg := by
  obtain ⟨hfree, hbuf, _, hpending⟩ := hw
  exact SenderWindow.slide_inv hfree hbuf hpending

/-- R266 to R268: an ack recorded anywhere in the window, then the slide. -/
theorem SenderWindow.Inv.record_slide {cfg : Config} {w : SenderWindow} (hw : w.Inv cfg) (i : Fin 8) :
    (w.record i).slide.Inv cfg := by
  obtain ⟨hfree, hbuf, _, hpending⟩ := hw
  exact SenderWindow.slide_inv (w := w.record i) hfree hbuf hpending

/-- R270: CHECK_TIMEOUTS writes expiries only. -/
theorem SenderWindow.Inv.rearmed {cfg : Config} {w : SenderWindow} (hw : w.Inv cfg) (t e : Time) :
    (w.rearmed t e).Inv cfg := hw

/-! ## Receiver windows -/

/-- R314: each frame held has the sequence number of its slot: R65 without its clause on slot 0. -/
def ReceiverWindow.InSequence (w : ReceiverWindow) : Prop :=
  ∀ i : Fin 8, w.present[i] = true → w.buffer[i].seq = seqAt w.left i.val

theorem ReceiverWindow.reset_inv : ReceiverWindow.reset.Inv := by
  constructor <;> simp [ReceiverWindow.reset]

theorem ReceiverWindow.InSequence.store {w : ReceiverWindow} (hw : w.InSequence) {f : Frame} {i : Fin 8}
    (hi : (slotIndex f.seq w.left).toNat = i.val) : (w.store i f).InSequence := by
  intro j hj
  simp only [Fin.getElem_fin, ReceiverWindow.getElem_store_present, ReceiverWindow.getElem_store_buffer,
    ReceiverWindow.store_left] at hj ⊢
  split at hj
  next heq => rw [if_pos heq, ← heq, ← hi, seqAt_slotIndex]
  next hne => rw [if_neg hne]; exact hw j hj

/-- R315, R316: past the run slot 0 is empty, and each frame keeps its number. -/
theorem ReceiverWindow.InSequence.slide {w : ReceiverWindow} (hw : w.InSequence) :
    (w.slideBy w.run).Inv := by
  refine ⟨w.slideBy_run_base, fun i hi => ?_⟩
  simp only [ReceiverWindow.slideBy_present, ReceiverWindow.slideBy_buffer, ReceiverWindow.slideBy_left,
    Fin.getElem_fin, getElem_shifted, seqAt_advance] at hi ⊢
  split at hi
  next hlt => rw [dif_pos hlt]; exact hw ⟨_, hlt⟩ hi
  next => cases hi

/-! ## Reassemblers -/

theorem Reassembler.idle_inv (cfg : Config) : Reassembler.Inv cfg ⟨false, []⟩ := ⟨Nat.zero_le _, fun _ => rfl⟩

theorem Reassembler.inv_of_active {cfg : Config} {acc : List Byte} (h : acc.length ≤ cfg.maxMsgLen) :
    Reassembler.Inv cfg ⟨true, acc⟩ := ⟨h, by simp⟩

/-! ## Effects -/

/-- `t` has the configuration, the windows and the queues of `s`. -/
structure SameStores (s t : State) : Prop where
  cfg : t.cfg = s.cfg
  snd : t.snd = s.snd
  rcv : t.rcv = s.rcv
  asm : t.asm = s.asm
  rxq : t.rxq = s.rxq
  cmdq : t.cmdq = s.cmdq

theorem SameStores.refl (s : State) : SameStores s s := ⟨rfl, rfl, rfl, rfl, rfl, rfl⟩

theorem SameStores.trans {a b c : State} (h : SameStores a b) (k : SameStores b c) : SameStores a c :=
  ⟨k.cfg.trans h.cfg, k.snd.trans h.snd, k.rcv.trans h.rcv, k.asm.trans h.asm, k.rxq.trans h.rxq,
    k.cmdq.trans h.cmdq⟩

theorem sameStores_drop (s : State) (c : DropCode) (p n : Byte) : SameStores s (s.drop c p n) :=
  ⟨rfl, rfl, rfl, rfl, rfl, rfl⟩
theorem sameStores_append (s : State) (fs : List Frame) : SameStores s (s.append fs) :=
  ⟨rfl, rfl, rfl, rfl, rfl, rfl⟩
theorem sameStores_goto (s : State) (ph : Phase) : SameStores s (s.goto ph) :=
  ⟨rfl, rfl, rfl, rfl, rfl, rfl⟩

/-- What DELIVERY_SCAN does to the stores where it goes on: the window of `p` slides past its run, and
reassembly writes the reassembler of `p` only (R315, R316). -/
structure Scanned (p : Byte) (s t : State) : Prop where
  cfg : t.cfg = s.cfg
  snd : t.snd = s.snd
  rcv : t.rcv = s.rcv.set p.toNat ((s.receiver p).slideBy (s.receiver p).run)
  rxq : t.rxq = s.rxq
  cmdq : t.cmdq = s.cmdq
  reasm : ∀ q, q ≠ p → t.reasm q = s.reasm q

@[simp] theorem ReceiverWindow.slideBy_zero (w : ReceiverWindow) : w.slideBy 0 = w := by
  simp [ReceiverWindow.slideBy]

theorem State.sender_congr {s t : State} (h : t.snd = s.snd) (p : Byte) : t.sender p = s.sender p := by
  rw [State.sender, State.sender, h]
theorem State.receiver_congr {s t : State} (h : t.rcv = s.rcv) (p : Byte) : t.receiver p = s.receiver p := by
  rw [State.receiver, State.receiver, h]
theorem State.reasm_congr {s t : State} (h : t.asm = s.asm) (p : Byte) : t.reasm p = s.reasm p := by
  rw [State.reasm, State.reasm, h]

theorem deliveryScan_scanned {p : Byte} {s t : State} (h : deliveryScan p s = .ok t) : Scanned p s t := by
  simp only [deliveryScan, andThen_eq_ok, Run.ok.injEq] at h
  obtain ⟨u, hu, rfl⟩ := h
  have hkeeps := reassembleAll_keeps p (s.receiver p).deliverable s
  have hinner := inner_reassembleAll p (s.receiver p).deliverable s
  simp only [hu, Run.state] at hkeeps hinner
  obtain ⟨hsnd, hrcv, hrxq, hcmdq, _, hother⟩ := hkeeps
  split
  next => exact ⟨hinner.cfg, hsnd, by rw [State.setReceiver_rcv, hrcv], hrxq, hcmdq, hother⟩
  next hrun =>
    have hsame := congrArg State.rcv (s.setReceiver_receiver p)
    rw [State.setReceiver_rcv] at hsame
    refine ⟨hinner.cfg, hsnd, ?_, hrxq, hcmdq, hother⟩
    rw [Nat.eq_zero_of_not_pos hrun, ReceiverWindow.slideBy_zero, hsame, hrcv]

/-! ## The invariant of a live state, and the parts of a step that keep it -/

/-- What the machine's invariant says of a live state (R6, R64, R65, R52, R56 to R58). -/
structure State.Sound (s : State) : Prop where
  valid : s.cfg.Valid
  snd : ∀ w ∈ s.snd, w.Inv s.cfg
  rcv : ∀ w ∈ s.rcv, w.Inv
  asm : ∀ a ∈ s.asm, a.Inv s.cfg
  rxq : s.rxq.length ≤ s.cfg.rxqDepth
  cmdq : s.cmdq.length ≤ s.cfg.cmdqDepth
  texts : ∀ c ∈ s.cmdq, c.text.length ≤ s.cfg.maxTextLen

/-- All that soundness of the reassemblers needs; it holds also while PLACE has a frame in slot 0. -/
structure State.AsmSound (s : State) : Prop where
  room : payloadLen ≤ s.cfg.maxMsgLen
  asm : ∀ a ∈ s.asm, a.Inv s.cfg

theorem State.reset_sound {s : State} (h : s.cfg.Valid) : s.afterReset.Sound where
  valid := h
  snd _ hw := List.eq_of_mem_replicate hw ▸ SenderWindow.reset_inv s.cfg
  rcv _ hw := List.eq_of_mem_replicate hw ▸ ReceiverWindow.reset_inv
  asm _ ha := List.eq_of_mem_replicate ha ▸ Reassembler.idle_inv s.cfg
  rxq := Nat.zero_le _
  cmdq := Nat.zero_le _
  texts := by simp

/-- A write in place keeps what holds of every entry and of the one written. -/
theorem forall_mem_set {α : Type} {Q : α → Prop} {xs : List α} (h : ∀ x ∈ xs, Q x) {a : α} (ha : Q a)
    (n : Nat) : ∀ x ∈ xs.set n a, Q x := by
  intro x hx
  rcases List.mem_or_eq_of_mem_set hx with hx | rfl
  · exact h x hx
  · exact ha

/-- A read of an entry, or of the value past the end, has what holds of every entry and of that value. -/
theorem getD_of_forall_mem {α : Type} {Q : α → Prop} {xs : List α} (h : ∀ x ∈ xs, Q x) {d : α} (hd : Q d)
    (n : Nat) : Q (xs.getD n d) := by
  rw [List.getD_eq_getElem?_getD]
  cases hn : xs[n]? with
  | none => exact hd
  | some x => exact h x (List.mem_of_getElem? hn)

section
variable {s t : State}

theorem State.Sound.sender (h : s.Sound) (p : Byte) : (s.sender p).Inv s.cfg :=
  getD_of_forall_mem (Q := SenderWindow.Inv s.cfg) h.snd (SenderWindow.reset_inv s.cfg) _

theorem State.Sound.receiver (h : s.Sound) (p : Byte) : (s.receiver p).Inv :=
  getD_of_forall_mem (Q := ReceiverWindow.Inv) h.rcv ReceiverWindow.reset_inv _

theorem State.AsmSound.reasm (h : s.AsmSound) (p : Byte) : (s.reasm p).Inv s.cfg :=
  getD_of_forall_mem (Q := Reassembler.Inv s.cfg) h.asm (Reassembler.idle_inv s.cfg) _

theorem State.Sound.asmSound (h : s.Sound) : s.AsmSound := by
  obtain ⟨_, _, _, _, _, _, _, _, hroom⟩ := h.valid
  exact ⟨hroom, h.asm⟩

/-- A part of a step that writes no queue keeps soundness where it does so of the windows. -/
theorem State.Sound.of_windows (h : s.Sound) (hcfg : t.cfg = s.cfg) (hsnd : ∀ w ∈ t.snd, w.Inv s.cfg)
    (hrcv : ∀ w ∈ t.rcv, w.Inv) (hasm : ∀ a ∈ t.asm, a.Inv s.cfg) (hrxq : t.rxq = s.rxq)
    (hcmdq : t.cmdq = s.cmdq) : t.Sound where
  valid := hcfg ▸ h.valid
  snd := by rwa [hcfg]
  rcv := hrcv
  asm := by rwa [hcfg]
  rxq := by rw [hcfg, hrxq]; exact h.rxq
  cmdq := by rw [hcfg, hcmdq]; exact h.cmdq
  texts := by rw [hcfg, hcmdq]; exact h.texts

theorem State.Sound.of_sameStores (h : s.Sound) (hst : SameStores s t) : t.Sound :=
  h.of_windows hst.cfg (hst.snd ▸ h.snd) (hst.rcv ▸ h.rcv) (hst.asm ▸ h.asm) hst.rxq hst.cmdq

theorem State.Sound.setSender (h : s.Sound) (p : Byte) {w : SenderWindow} (hw : w.Inv s.cfg) :
    (s.setSender p w).Sound :=
  h.of_windows rfl (forall_mem_set h.snd hw _) h.rcv h.asm rfl rfl

theorem State.Sound.append (h : s.Sound) (fs : List Frame) : (s.append fs).Sound :=
  h.of_sameStores (sameStores_append s fs)

theorem State.Sound.drop (h : s.Sound) (c : DropCode) (p n : Byte) : (s.drop c p n).Sound :=
  h.of_sameStores (sameStores_drop s c p n)

theorem State.AsmSound.of_set (h : s.AsmSound) {p : Byte} {a : Reassembler} (ha : a.Inv s.cfg)
    (hcfg : t.cfg = s.cfg) (hasm : t.asm = s.asm.set p.toNat a) : t.AsmSound where
  room := hcfg ▸ h.room
  asm := by rw [hcfg, hasm]; exact forall_mem_set h.asm ha _

/-- R226 to R229: one frame keeps the bound of `acc`, a HEAD because a payload fits (R6). -/
theorem reassemble_asmSound {p : Byte} {f : Frame} (h : s.AsmSound) (ht : reassemble p f s = .ok t) :
    t.AsmSound := by
  rcases reassemble_cases p f s with ⟨_, _, e⟩ | ⟨_, _, e⟩ | ⟨_, _, e⟩ | ⟨_, _, e⟩ | ⟨_, _, e⟩ |
    ⟨_, _, hlen, e⟩ | ⟨_, _, _, e⟩ | ⟨_, e, _⟩ <;> rw [e] at ht <;> cases ht
  · exact ⟨h.room, h.asm⟩
  · exact h.of_set (Reassembler.idle_inv _) rfl rfl
  · exact h.of_set (Reassembler.inv_of_active ((length_payload f).trans_le h.room)) rfl rfl
  · exact h.of_set (Reassembler.inv_of_active ((length_payload f).trans_le h.room)) rfl rfl
  · exact ⟨h.room, h.asm⟩
  · exact h.of_set (Reassembler.inv_of_active (by rwa [List.length_append, length_payload])) rfl rfl
  · exact h.of_set (Reassembler.idle_inv _) rfl rfl

theorem deliveryScan_asmSound {p : Byte} (h : s.AsmSound) (ht : deliveryScan p s = .ok t) : t.AsmSound := by
  simp only [deliveryScan, andThen_eq_ok, Run.ok.injEq] at ht
  obtain ⟨u, hu, rfl⟩ := ht
  have hsound : u.AsmSound := forEach_ok_keeps (fun _ _ _ _ => reassemble_asmSound) h hu
  split
  · exact ⟨hsound.room, hsound.asm⟩
  · exact hsound

theorem reassemble_sound {p : Byte} {f : Frame} (h : s.Sound) (ht : reassemble p f s = .ok t) : t.Sound := by
  have hkeeps := reassemble_keeps p f s
  have hinner := inner_reassemble p f s
  simp only [ht, Run.state] at hkeeps hinner
  obtain ⟨hsnd, hrcv, hrxq, hcmdq, _⟩ := hkeeps
  have hasm := (reassemble_asmSound h.asmSound ht).asm
  exact h.of_windows hinner.cfg (hsnd ▸ h.snd) (hrcv ▸ h.rcv) (hinner.cfg ▸ hasm) hrxq hcmdq

/-- A scan of a sound state in which the window of `p` was replaced by one with its frames in sequence
ends in a sound state, whatever slot 0 of that window held (R65). -/
theorem deliveryScan_setReceiver_sound {p : Byte} {w : ReceiverWindow} (h : s.Sound) (hw : w.InSequence)
    (ht : deliveryScan p (s.setReceiver p w) = .ok t) : t.Sound := by
  have hscan := deliveryScan_scanned ht
  have hread : ((s.setReceiver p w).receiver p).InSequence := by
    by_cases hp : p.toNat < s.rcv.length
    · rwa [State.receiver_setReceiver_self hp]
    · have hsame : (s.setReceiver p w).rcv = s.rcv := List.set_eq_of_length_le (Nat.le_of_not_lt hp)
      rw [State.receiver_congr hsame]
      exact (h.receiver p).2
  have hrcv := hscan.rcv
  rw [State.setReceiver_rcv, List.set_set] at hrcv
  have hasm := (deliveryScan_asmSound (s := s.setReceiver p w) ⟨h.asmSound.room, h.asm⟩ ht).asm
  have hcfg : t.cfg = s.cfg := hscan.cfg
  exact h.of_windows hcfg (hscan.snd ▸ h.snd) (hrcv ▸ forall_mem_set h.rcv hread.slide _)
    (hcfg ▸ hasm) hscan.rxq hscan.cmdq

theorem deliveryScan_sound {p : Byte} (h : s.Sound) (ht : deliveryScan p s = .ok t) : t.Sound := by
  rw [← s.setReceiver_receiver p] at ht
  exact deliveryScan_setReceiver_sound h (h.receiver p).2 ht

theorem place_sound {p : Byte} {f : Frame} (h : s.Sound) (ht : place p f s = .ok t) : t.Sound := by
  have hack : (if ackDue f.seq (s.receiver p).left then s.append [mkAck s.cfg p f.seq] else s).Sound := by
    split
    · exact h.append _
    · exact h
  rcases place_cases p f s with ⟨_, e⟩ | ⟨i, hi, ⟨_, e⟩ | ⟨_, e⟩⟩ <;> rw [e] at ht
  · cases ht; exact hack.drop _ _ _
  · cases ht; exact hack.drop _ _ _
  · exact deliveryScan_setReceiver_sound hack (ReceiverWindow.InSequence.store (h.receiver p).2 hi) ht

theorem enqueue_sound {p : Byte} {f : Frame} (h : s.Sound) (ht : enqueue p f s = .ok t) : t.Sound := by
  obtain ⟨hfree, hbuf, hbase, _⟩ := h.sender p
  rcases enqueue_cases p f s with ⟨hroom, e⟩ | ⟨_, e⟩ <;> rw [e] at ht <;> cases ht
  exact h.setSender p ⟨hfree, hbuf, hbase, by simpa using hroom⟩

theorem onAck_sound {p a : Byte} (h : s.Sound) (ht : onAck p a s = .ok t) : t.Sound := by
  rcases onAck_cases p a s with ⟨_, e⟩ | ⟨i, _, e⟩ <;> rw [e] at ht <;> cases ht
  · exact h.drop _ _ _
  · exact h.setSender p ((h.sender p).record_slide i)

theorem slideTx_sound {p : Byte} (h : s.Sound) (ht : slideTx p s = .ok t) : t.Sound := by
  cases ht
  exact h.setSender p (h.sender p).slide

theorem admitPending_sound {p : Byte} (h : s.Sound) (ht : admitPending p s = .ok t) : t.Sound := by
  rcases admit_cases p s with ⟨ho, e⟩ | ⟨_, e⟩ <;> rw [e] at ht <;> cases ht
  obtain ⟨_, _, _, hpending⟩ := h.sender p
  exact (h.setSender p (admitLoop_inv (h.sender p) hpending ho)).append _

theorem checkTimeouts_sound {p : Byte} (h : s.Sound) (ht : checkTimeouts p s = .ok t) : t.Sound := by
  rcases checkTimeouts_cases p s with ⟨e, _, hr⟩ | ⟨_, _, hr⟩ | ⟨_, _, _, _, hr⟩ <;>
    rw [hr] at ht <;> cases ht
  · exact (h.setSender p ((h.sender p).rearmed _ e)).append _
  · exact h

theorem rxPush_sound {f : Frame} (h : s.Sound) (ht : rxPush f s = .ok t) : t.Sound := by
  unfold rxPush at ht
  split at ht <;> cases ht
  exact { h with rxq := by simp only [List.length_append, List.length_singleton]; omega }

theorem cmdPush_sound {c : Command} (h : s.Sound) (hc : c.text.length ≤ s.cfg.maxTextLen)
    (ht : cmdPush c s = .ok t) : t.Sound := by
  unfold cmdPush at ht
  split at ht <;> cases ht
  refine { h with
    cmdq := by simp only [List.length_append, List.length_singleton]; omega
    texts := fun d hd => ?_ }
  rcases List.mem_append.mp hd with hd | hd
  · exact h.texts d hd
  · exact List.mem_singleton.mp hd ▸ hc

end

end Sys2Proof.Machine
end

section
/-! PROOFS. What a step of the machine can be, said once: the part of a step each operation runs, the fatal
conditions it can raise (R421), and what every step keeps whatever it does. -/

namespace Sys2Proof.Machine
open Sys2Proof

/-! ## What an operation runs -/

/-- The part of a step an operation performs where it is enabled. -/
def opRun : Instr → State → Run
  | .dataMiddle f => acceptData f
  | .dataHead f => acceptData f
  | .dataTail f => acceptData f
  | .dataUnseg f => acceptData f
  | .ack f => acceptAck f
  | .rxPush f => rxPush f
  | .cmdPush c => cmdPush c
  | .sample => fun s => .ok ({ s with tNow := s.nowIn }.goto .arbitrate)
  | .arbitrate => arbitrate
  | .wait => fun s => .ok (if s.mayLeaveWait then s.goto .drain else s)
  | .drain => drain
  | .routeFrame f => routeFrame f
  | .processCmd c => processCmd c
  | .segment dst text => fun s => .ok (s.answer (.frames (segment s.cfg dst text)))
  | .enqueue p f => enqueue p f
  | .admitFrames p => admitPending p
  | .onAck p a => onAck p a
  | .slideTx p => slideTx p
  | .checkTimeouts p => checkTimeouts p
  | .place p f => place p f
  | .genAck p n => fun s => .ok (s.append [mkAck s.cfg p n])
  | .deliveryScan p => deliveryScan p
  | .reassemble p f => reassemble p f
  | .computeFcs f => fun s => .ok (s.answer (.fcs (computeFCS s.cfg.crcInit f)))
  | .isCorrupted f => fun s => .ok (s.answer (.corrupted (isCorrupted s.cfg.crcInit f)))
  | .transmit => fun s => .ok (transmit s)
  | .reset => fun s => .ok s.afterReset
  | .slotIndex n base => fun s => .ok (s.answer (.slot (slotIndex n base)))

/-- R364, notes/assumptions/12.md: the text of a command that is pushed is within `MAX_TEXT_LEN`. -/
def TextFits (cfg : Config) : Instr → Prop
  | .cmdPush c => c.text.length ≤ cfg.maxTextLen
  | _ => True

section
variable {s t : State} {k : Host.Outcome State Fault Refusal}

theorem inPhase_live {ph : Phase} (hph : ph ≠ .fatal) (h : inPhase ph s k = .next t) :
    t = s ∨ s.Live ∧ k = .next t := by
  rcases inPhase_next h with ⟨hp, hk⟩ | ⟨_, rfl⟩
  · exact .inr ⟨by rwa [State.Live, hp], hk⟩
  · exact .inl rfl

theorem inPhase_withPeer_live {ph : Phase} {p : Byte} (hph : ph ≠ .fatal)
    (h : inPhase ph s (withPeer p s k) = .next t) : t = s ∨ s.Live ∧ k = .next t :=
  (inPhase_live hph h).imp_right fun ⟨hl, hk⟩ => ⟨hl, (withPeer_next hk).2⟩

theorem unlessFatal_live (h : unlessFatal s k = .next t) : t = s ∨ s.Live ∧ k = .next t :=
  (unlessFatal_next h).symm.imp_left And.right

/-- An operation that answers a next state was not enabled and left the state, or it was RESET, or the entity
was live and the operation's part of a step ran to its end or its raise (R350, R368, R451). -/
theorem exec_next {i : Instr} (h : exec i s = .next t) :
    t = s ∨ (i = .reset ∧ t = s.afterReset) ∨
      s.Live ∧ TextFits s.cfg i ∧ (opRun i s).commit = .next t := by
  suffices hrun : i ≠ .reset → t = s ∨ s.Live ∧ TextFits s.cfg i ∧ (opRun i s).commit = .next t by
    by_cases hi : i = .reset
    · subst hi; cases h; exact .inr (.inl ⟨rfl, rfl⟩)
    · exact (hrun hi).imp_right .inr
  intro hi
  cases i with
  | reset => exact absurd rfl hi
  | cmdPush c =>
    refine (unlessFatal_live h).imp_right fun ⟨hl, hk⟩ => ?_
    split at hk
    next => cases hk
    next hfit => exact ⟨hl, Nat.le_of_not_lt hfit, hk⟩
  | rxPush _ | segment _ _ | computeFcs _ | isCorrupted _ | slotIndex _ _ =>
    exact (unlessFatal_live h).imp_right fun ⟨hl, hk⟩ => ⟨hl, trivial, hk⟩
  | dataMiddle _ | dataHead _ | dataTail _ | dataUnseg _ | ack _ | sample | arbitrate | wait | drain
  | routeFrame _ | processCmd _ | genAck _ _ | transmit =>
    exact (inPhase_live (by decide) h).imp_right fun ⟨hl, hk⟩ => ⟨hl, trivial, hk⟩
  | enqueue _ _ | admitFrames _ | onAck _ _ | slideTx _ | checkTimeouts _ | place _ _ | deliveryScan _
  | reassemble _ _ =>
    exact (inPhase_withPeer_live (by decide) h).imp_right fun ⟨hl, hk⟩ => ⟨hl, trivial, hk⟩
end

/-! ## The fatal conditions a part of a step can raise -/

/-- The run goes on, or raises a condition of the list. -/
def Run.Raises (cs : List FatalCode) (r : Run) : Prop := ∀ c u, r = .fatal c u → c ∈ cs

theorem Run.Raises.mono {cs ds : List FatalCode} {r : Run} (h : r.Raises cs) (hcs : cs ⊆ ds) : r.Raises ds :=
  fun c u hr => hcs (h c u hr)

@[simp] theorem raises_ok (cs : List FatalCode) (s : State) : (Run.ok s).Raises cs := by simp [Run.Raises]

@[simp] theorem raises_fatal {cs : List FatalCode} {c : FatalCode} {s : State} :
    (Run.fatal c s).Raises cs ↔ c ∈ cs := by simp [Run.Raises]

theorem raises_andThen {cs : List FatalCode} {r : Run} {k : State → Run} (hr : r.Raises cs)
    (hk : ∀ t, (k t).Raises cs) : (r.andThen k).Raises cs := by
  cases r with
  | ok t => exact hk t
  | fatal c t => exact hr

theorem raises_forEach {α : Type} {cs : List FatalCode} {body : α → State → Run}
    (h : ∀ x s, (body x s).Raises cs) (xs : List α) (s : State) : (forEach body xs s).Raises cs := by
  induction xs generalizing s with
  | nil => simp
  | cons x xs ih => exact raises_andThen (h x s) ih

theorem reassemble_raises (p : Byte) (f : Frame) (s : State) : (reassemble p f s).Raises [.reasmOverflow] := by
  rcases reassemble_cases p f s with ⟨_, _, e⟩ | ⟨_, _, e⟩ | ⟨_, _, e⟩ | ⟨_, _, e⟩ | ⟨_, _, e⟩ |
    ⟨_, _, _, e⟩ | ⟨_, _, _, e⟩ | ⟨_, e, _⟩ <;> simp [e]

theorem deliveryScan_raises (p : Byte) (s : State) : (deliveryScan p s).Raises [.reasmOverflow] :=
  raises_andThen (raises_forEach (reassemble_raises p) _ s) fun _ => raises_ok _ _

theorem place_raises (p : Byte) (f : Frame) (s : State) : (place p f s).Raises [.reasmOverflow] := by
  rcases place_cases p f s with ⟨_, e⟩ | ⟨_, _, ⟨_, e⟩ | ⟨_, e⟩⟩ <;> rw [e]
  · exact raises_ok _ _
  · exact raises_ok _ _
  · exact deliveryScan_raises p _

theorem onAck_raises (p a : Byte) (s : State) : (onAck p a s).Raises [] := by
  rcases onAck_cases p a s with ⟨_, e⟩ | ⟨_, _, e⟩ <;> simp [e]

theorem enqueue_raises (p : Byte) (f : Frame) (s : State) : (enqueue p f s).Raises [.pendingOverflow] := by
  rcases enqueue_cases p f s with ⟨_, e⟩ | ⟨_, e⟩ <;> simp [e]

theorem admitPending_raises (p : Byte) (s : State) : (admitPending p s).Raises [.timeOverflow] := by
  rcases admit_cases p s with ⟨_, e⟩ | ⟨_, e⟩ <;> simp [e]

theorem checkTimeouts_raises (p : Byte) (s : State) : (checkTimeouts p s).Raises [.timeOverflow] := by
  rcases checkTimeouts_cases p s with ⟨_, _, e⟩ | ⟨_, _, e⟩ | ⟨_, _, _, _, e⟩ <;> simp [e]

theorem acceptData_raises (f : Frame) (s : State) : (acceptData f s).Raises [.reasmOverflow] := by
  unfold acceptData
  split
  · exact raises_ok _ _
  · exact place_raises _ f s

theorem acceptAck_raises (f : Frame) (s : State) : (acceptAck f s).Raises [] := by
  unfold acceptAck
  split
  · exact raises_ok _ _
  · exact onAck_raises _ _ s

theorem routeFrame_raises (f : Frame) (s : State) : (routeFrame f s).Raises [.reasmOverflow] := by
  unfold routeFrame
  split
  · exact raises_ok _ _
  · split
    · exact (acceptAck_raises f s).mono (by simp)
    · exact acceptData_raises f s

theorem processCmd_raises (c : Command) (s : State) : (processCmd c s).Raises [.pendingOverflow] := by
  unfold processCmd
  split
  · exact raises_ok _ _
  · exact raises_forEach (enqueue_raises c.dst) _ s

/-- R421: what a `DRAIN` step can raise, by its three loops. -/
theorem drain_raises (s : State) : (drain s).Raises [.reasmOverflow, .pendingOverflow, .timeOverflow] := by
  intro d t ht
  refine raises_andThen ?_ (fun a => raises_andThen ?_ fun b => ?_) d _ ((drain_parts s).2 d t ht)
  · exact (raises_forEach routeFrame_raises _ _).mono (by simp)
  · exact (raises_forEach processCmd_raises _ a).mono (by simp)
  · exact (raises_forEach admitPending_raises _ b).mono (by simp)

theorem timeouts_raises (s : State) : (timeouts s).Raises [.timeOverflow] :=
  raises_andThen (raises_forEach checkTimeouts_raises _ s) fun _ => raises_ok _ _

/-- R421: the codes an operation can raise. -/
def fatalCodesOf : Instr → List FatalCode
  | .dataMiddle _ | .dataHead _ | .dataTail _ | .dataUnseg _ => [.reasmOverflow]
  | .routeFrame _ | .place _ _ | .deliveryScan _ | .reassemble _ _ => [.reasmOverflow]
  | .processCmd _ | .enqueue _ _ => [.pendingOverflow]
  | .arbitrate | .admitFrames _ | .checkTimeouts _ => [.timeOverflow]
  | .drain => [.reasmOverflow, .pendingOverflow, .timeOverflow]
  | .rxPush _ => [.rxqOverflow]
  | .cmdPush _ => [.cmdqOverflow]
  | .ack _ | .onAck _ _ | .slideTx _ | .genAck _ _ => []
  | .sample | .wait | .transmit | .reset => []
  | .segment _ _ | .computeFcs _ | .isCorrupted _ | .slotIndex _ _ => []

theorem opRun_raises (i : Instr) (s : State) : (opRun i s).Raises (fatalCodesOf i) := by
  cases i with
  | dataMiddle f | dataHead f | dataTail f | dataUnseg f => exact acceptData_raises f s
  | ack f => exact acceptAck_raises f s
  | rxPush f => simp only [opRun, rxPush]; split <;> simp [fatalCodesOf]
  | cmdPush c => simp only [opRun, cmdPush]; split <;> simp [fatalCodesOf]
  | arbitrate => simp only [opRun, arbitrate]; split <;> simp [fatalCodesOf]
  | drain => exact drain_raises s
  | routeFrame f => exact routeFrame_raises f s
  | processCmd c => exact processCmd_raises c s
  | enqueue p f => exact enqueue_raises p f s
  | admitFrames p => exact admitPending_raises p s
  | onAck p a => exact onAck_raises p a s
  | checkTimeouts p => exact checkTimeouts_raises p s
  | place p f => exact place_raises p f s
  | deliveryScan p => exact deliveryScan_raises p s
  | reassemble p f => exact reassemble_raises p f s
  | slideTx _ | genAck _ _ | sample | wait | transmit | reset | segment _ _ | computeFcs _
  | isCorrupted _ | slotIndex _ _ => exact raises_ok _ _

/-- R421: code 0 stands for no condition, and is never raised. -/
theorem none_notMem_fatalCodesOf (i : Instr) : FatalCode.none ∉ fatalCodesOf i := by
  cases i <;> simp [fatalCodesOf]

/-! ## What every part of a step keeps -/

/-- From `s` to `t` the configuration, the agenda and the number of windows stayed, and a live state stayed
live and without a fatal code. -/
structure Steady (s t : State) : Prop extends SameSetup s t where
  sized : s.Sized → t.Sized
  live : s.Live → t.Live
  code : s.fatalCode = .none → t.fatalCode = .none

theorem Steady.trans {a b c : State} (h : Steady a b) (k : Steady b c) : Steady a c :=
  ⟨h.toSameSetup.trans k.toSameSetup, k.sized ∘ h.sized, k.live ∘ h.live, k.code ∘ h.code⟩

theorem Inner.steady {s t : State} (h : Inner s t) : Steady s t where
  toSameSetup := h.sameSetup
  sized := by simp only [State.Sized, h.cfg, h.snd, h.rcv, h.asm]; exact id
  live := by simp only [State.Live, h.phase]; exact id
  code := by simp only [h.fatalCode]; exact id

theorem steady_goto (s : State) {ph : Phase} (h : ph ≠ .fatal) : Steady s (s.goto ph) :=
  ⟨⟨rfl, rfl⟩, id, fun _ => h, id⟩

/-- A transitive relation across two parts in sequence. -/
theorem andThen_rel {R : State → State → Prop} (trans : ∀ {a b c}, R a b → R b c → R a c) {s : State}
    {r : Run} {k : State → Run} (hr : R s r.state) (hk : ∀ t, R t (k t).state) : R s (r.andThen k).state := by
  cases r with
  | ok t => exact trans hr (hk t)
  | fatal c t => exact hr

theorem steady_drain (s : State) : Steady s (drain s).state :=
  andThen_rel (R := Steady) Steady.trans (inner_drainFrames _ s).steady fun a =>
  andThen_rel (R := Steady) Steady.trans (inner_drainCmds _ a).steady fun b =>
  andThen_rel (R := Steady) Steady.trans (inner_forEach (fun p _ => inner_admit p) b).steady fun c =>
  steady_goto c (by decide)

theorem steady_timeouts (s : State) : Steady s (timeouts s).state :=
  andThen_rel (R := Steady) Steady.trans (inner_forEach (fun p _ => inner_checkTimeouts p) s).steady
    fun c => steady_goto c (by decide)

theorem steady_transmit (s : State) : Steady s (transmit s) := by
  unfold transmit
  split
  · exact steady_goto s (by decide)
  · split <;> exact ⟨⟨rfl, rfl⟩, id, id, id⟩

theorem steady_afterReset (s : State) : Steady s s.afterReset where
  cfg := rfl
  agenda := rfl
  sized := fun _ => by simp [State.Sized]
  live := fun _ => nofun
  code := fun _ => rfl

theorem steady_opRun (i : Instr) (s : State) : Steady s (opRun i s).state := by
  cases i with
  | dataMiddle f | dataHead f | dataTail f | dataUnseg f => exact (inner_acceptData f s).steady
  | ack f => exact (inner_acceptAck f s).steady
  | rxPush f => simp only [opRun, rxPush]; split <;> exact ⟨⟨rfl, rfl⟩, id, id, id⟩
  | cmdPush c => simp only [opRun, cmdPush]; split <;> exact ⟨⟨rfl, rfl⟩, id, id, id⟩
  | sample => exact ⟨⟨rfl, rfl⟩, id, fun _ => nofun, id⟩
  | arbitrate =>
    simp only [opRun, arbitrate]
    split
    · exact ⟨⟨rfl, rfl⟩, id, fun _ => nofun, id⟩
    · exact (Inner.refl s).steady
  | wait =>
    simp only [opRun]
    split
    · exact steady_goto s (by decide)
    · exact ⟨⟨rfl, rfl⟩, id, id, id⟩
  | drain => exact steady_drain s
  | routeFrame f => exact (inner_routeFrame f s).steady
  | processCmd c => exact (inner_processCmd c s).steady
  | enqueue p f => exact (inner_enqueue p f s).steady
  | admitFrames p => exact (inner_admit p s).steady
  | onAck p a => exact (inner_onAck p a s).steady
  | slideTx p => exact (inner_slideTx p s).steady
  | checkTimeouts p => exact (inner_checkTimeouts p s).steady
  | place p f => exact (inner_place p f s).steady
  | genAck p n => exact (inner_append s _).steady
  | deliveryScan p => exact (inner_deliveryScan p s).steady
  | reassemble p f => exact (inner_reassemble p f s).steady
  | transmit => exact steady_transmit s
  | reset => exact steady_afterReset s
  | segment _ _ | computeFcs _ | isCorrupted _ | slotIndex _ _ => exact ⟨⟨rfl, rfl⟩, id, id, id⟩

/-! ## What a step of the machine does -/

/-- The state once its next event is taken from the agenda. -/
def State.popped (s : State) : State := { s with agenda := s.agenda.tail }

/-- `t` differs from `s` at most in the inputs, the logs and what is no state of the block. -/
structure Idle (s t : State) : Prop extends SameStores s t where
  agenda : t.agenda = s.agenda
  phase : t.phase = s.phase
  fatalCode : t.fatalCode = s.fatalCode

theorem Idle.refl (s : State) : Idle s s := ⟨SameStores.refl s, rfl, rfl, rfl⟩

/-- How one step ends: nothing was enabled or an outside agent moved, or RESET came, or an operation or the
TIMEOUTS loop step ran in a live state to its end or its raise. -/
inductive StepKind (s : State) : State → Prop
  | idle {t} (h : Idle s.popped t) : StepKind s t
  | reset : StepKind s s.popped.afterReset
  | op {t} (i : Instr) (hport : s.PortDriven → isInternal i = false) (hlive : s.popped.Live)
      (hfit : TextFits s.cfg i) (hrun : (opRun i s.popped).commit = .next t) : StepKind s t
  | timeouts {t} (hlive : s.popped.Live) (hrun : (timeouts s.popped).commit = .next t) : StepKind s t

theorem stepKind_of_exec {s t : State} {i : Instr} (hport : s.PortDriven → isInternal i = false)
    (h : exec i s.popped = .next t) : StepKind s t := by
  rcases exec_next h with rfl | ⟨_, rfl⟩ | ⟨hlive, hfit, hrun⟩
  · exact .idle (Idle.refl _)
  · exact .reset
  · exact .op i hport hlive hfit hrun

theorem stepKind_of_workerStep {s t : State} (h : workerStep s.popped = .next t) : StepKind s t := by
  unfold workerStep at h
  cases hp : s.popped.phase <;> rw [hp] at h
  case sample => exact stepKind_of_exec (i := .sample) (fun _ => rfl) h
  case arbitrate => exact stepKind_of_exec (i := .arbitrate) (fun _ => rfl) h
  case wait => exact stepKind_of_exec (i := .wait) (fun _ => rfl) h
  case drain => exact stepKind_of_exec (i := .drain) (fun _ => rfl) h
  case transmit => exact stepKind_of_exec (i := .transmit) (fun _ => rfl) h
  case timeouts =>
    rcases inPhase_live (by decide) h with rfl | ⟨hlive, hrun⟩
    · exact .idle (Idle.refl _)
    · exact .timeouts hlive hrun
  case fatal => cases h; exact .idle (Idle.refl _)

theorem step_kind {s t : State} (h : step s = .next t) : StepKind s t := by
  rcases step_cases s with ⟨ha, hs⟩ | ⟨e, rest, ha, hcases⟩
  · have hpop : s.popped = s := by unfold State.popped; rw [ha, List.tail_nil, ← ha]
    exact stepKind_of_workerStep (by rw [hpop, ← hs, h])
  have hpop : { s with agenda := rest } = s.popped := by unfold State.popped; rw [ha, List.tail_cons]
  rw [hpop] at hcases
  rcases hcases with ⟨_, hs⟩ | ⟨u, _, hs⟩ | ⟨b, _, hs⟩ | ⟨fmt, bytes, i, more, rfl, hd, hs⟩ |
    ⟨fmt, bytes, r, _, _, hs⟩ <;> rw [hs] at h
  · exact stepKind_of_workerStep h
  · unfold driveNow at h
    split at h <;> cases h
    exact .idle ⟨⟨rfl, rfl, rfl, rfl, rfl, rfl⟩, rfl, rfl, rfl⟩
  · cases h
    exact .idle ⟨⟨rfl, rfl, rfl, rfl, rfl, rfl⟩, rfl, rfl, rfl⟩
  · refine stepKind_of_exec (i := i) (fun hport => ?_) h
    have he := hport (.fetch fmt bytes) (by rw [ha]; exact List.mem_cons_self)
    simpa [isPortEvent, hd] using he
  · unfold rejectFetch at h
    split at h
    next =>
      rcases inPhase_live (by decide) h with rfl | ⟨_, hk⟩
      · exact .idle (Idle.refl _)
      · cases hk; exact .idle ⟨sameStores_drop _ _ _ _, rfl, rfl, rfl⟩
    next => cases h

/-- What every step keeps: the configuration, the number of windows, and that `fatal_code` is 0 exactly
outside `FATAL` (R45); it takes one event from the agenda. -/
structure StepFrame (s t : State) : Prop where
  cfg : t.cfg = s.cfg
  agenda : t.agenda = s.agenda.tail
  sized : s.Sized → t.Sized
  code : (s.fatalCode = .none ↔ s.Live) → (t.fatalCode = .none ↔ t.Live)

/-- An atomic step of a live state that keeps `Steady` and raises no code 0. -/
theorem stepFrame_commit {s t : State} {r : Run} {cs : List FatalCode} (hlive : s.popped.Live)
    (hsteady : Steady s.popped r.state) (hraises : r.Raises cs) (hcs : FatalCode.none ∉ cs)
    (ht : r.commit = .next t) : StepFrame s t := by
  obtain ⟨⟨hcfg, hagenda⟩, hsized, hkeep, hcode⟩ := hsteady
  rcases commit_cases ht with rfl | ⟨c, u, rfl, rfl⟩
  · exact ⟨hcfg, hagenda, hsized, fun h => iff_of_true (hcode (h.mpr hlive)) (hkeep hlive)⟩
  · refine ⟨hcfg, hagenda, fun h => ?_, fun _ => iff_of_false ?_ (· rfl)⟩
    · have hu : u.Sized := hsized h
      simpa [State.Sized] using hu
    · rintro rfl
      exact hcs (hraises _ _ rfl)

theorem step_frame {s t : State} (h : step s = .next t) : StepFrame s t := by
  cases step_kind h with
  | idle h =>
    refine ⟨h.cfg, h.agenda, fun hs => ?_, fun hc => ?_⟩
    · rw [State.Sized, h.cfg, h.snd, h.rcv, h.asm]
      exact hs
    · rw [h.fatalCode, State.Live, h.phase]
      exact hc
  | reset =>
    have hr := steady_afterReset s.popped
    exact ⟨rfl, rfl, hr.sized, fun _ => iff_of_true rfl nofun⟩
  | op i _ hlive _ hrun =>
    exact stepFrame_commit hlive (steady_opRun i _) (opRun_raises i _) (none_notMem_fatalCodesOf i) hrun
  | timeouts hlive hrun =>
    exact stepFrame_commit hlive (steady_timeouts _) (timeouts_raises _) (by decide) hrun

end Sys2Proof.Machine
end

section
/-! PROOFS. Predicates kept by the parts of a step are kept by the step; and so is the invariant of the machine
(R64, R65, R45, R52, R56 to R58, R63). -/

namespace Sys2Proof.Machine
open Sys2Proof

/-! ## Predicates that every part of a step keeps -/

/-- `P` is kept by each operation on one window that a step of the hardware is made of, and by the pushes and
RESET; PLACE, ON_ACK and ENQUEUE are performed on the windows of other peers only (R356, R358). -/
structure KeptByParts (P : State → Prop) : Prop where
  stores : ∀ {s t}, P s → SameStores s t → P t
  flush : ∀ {s}, P s → P (s.withQueues [] [])
  place : ∀ {p f s t}, p ≠ s.cfg.selfId → P s → place p f s = .ok t → P t
  onAck : ∀ {p a s t}, p ≠ s.cfg.selfId → P s → onAck p a s = .ok t → P t
  enqueue : ∀ {p f s t}, p ≠ s.cfg.selfId → P s → enqueue p f s = .ok t → P t
  admission : ∀ {p s t}, P s → admitPending p s = .ok t → P t
  checkTimeouts : ∀ {p s t}, P s → checkTimeouts p s = .ok t → P t
  rxPush : ∀ {f s t}, P s → rxPush f s = .ok t → P t
  cmdPush : ∀ {c s t}, c.text.length ≤ s.cfg.maxTextLen → P s → cmdPush c s = .ok t → P t
  reset : ∀ {s : State}, s.cfg.Valid → P s.afterReset

theorem badDst_eq_false {cfg : Config} {dst : Byte} :
    badDst cfg dst = false ↔ dst.toNat < cfg.peerCount ∧ dst ≠ cfg.selfId := by simp [badDst]

section
variable {P : State → Prop} (hP : KeptByParts P) {s t : State} (hs : P s)
include hP hs

theorem KeptByParts.drop (c : DropCode) (p n : Byte) : P (s.drop c p n) :=
  hP.stores hs (sameStores_drop s c p n)

theorem KeptByParts.acceptData {f : Frame} (ht : acceptData f s = .ok t) : P t := by
  unfold Machine.acceptData at ht
  cases ha : addressFault s.cfg f <;> rw [ha] at ht
  case some c => cases ht; exact hP.drop hs _ _ _
  case none =>
    obtain ⟨_, _, hself⟩ := addressFault_eq_none.mp ha
    exact hP.place hself hs ht

theorem KeptByParts.acceptAck {f : Frame} (ht : acceptAck f s = .ok t) : P t := by
  unfold Machine.acceptAck at ht
  cases ha : addressFault s.cfg f <;> rw [ha] at ht
  case some c => cases ht; exact hP.drop hs _ _ _
  case none =>
    obtain ⟨_, _, hself⟩ := addressFault_eq_none.mp ha
    exact hP.onAck hself hs ht

theorem KeptByParts.routeFrame {f : Frame} (ht : routeFrame f s = .ok t) : P t := by
  unfold Machine.routeFrame at ht
  split at ht
  · cases ht; exact hP.drop hs _ _ _
  · split at ht
    · exact hP.acceptAck hs ht
    · exact hP.acceptData hs ht

theorem KeptByParts.processCmd {c : Command} (ht : processCmd c s = .ok t) : P t := by
  unfold Machine.processCmd at ht
  split at ht
  next => cases ht; exact hP.drop hs _ _ _
  next hdst =>
    obtain ⟨_, hself⟩ := badDst_eq_false.mp (Bool.eq_false_iff.mpr hdst)
    refine (forEach_ok_keeps (P := fun u => u.cfg = s.cfg ∧ P u) ?_ ⟨rfl, hs⟩ ht).2
    rintro f _ a b ⟨hcfg, ha⟩ hb
    have hinner := inner_enqueue c.dst f a
    rw [hb] at hinner
    exact ⟨hinner.cfg.trans hcfg, hP.enqueue (hcfg ▸ hself) ha hb⟩

/-- R355: the frames, the commands and the admissions, from the state with both queues empty. -/
theorem KeptByParts.drain (ht : drain s = .ok t) : P t := by
  obtain ⟨a, b, c, ha, hb, hc, rfl⟩ := (drain_parts s).1 t ht
  have hPa : P a := forEach_ok_keeps (fun _ _ _ _ h => hP.routeFrame h) (hP.flush hs) ha
  have hPb : P b := forEach_ok_keeps (fun _ _ _ _ h => hP.processCmd h) hPa hb
  have hPc : P c := forEach_ok_keeps (fun _ _ _ _ => hP.admission) hPb hc
  exact hP.stores hPc (sameStores_goto c _)

theorem KeptByParts.timeouts (ht : timeouts s = .ok t) : P t := by
  obtain ⟨c, hc, rfl⟩ := timeouts_eq_ok ht
  have hPc : P c := forEach_ok_keeps (fun _ _ _ _ => hP.checkTimeouts) hs hc
  exact hP.stores hPc (sameStores_goto c _)

/-- Every operation of a port keeps `P`. -/
theorem KeptByParts.opRun_port {i : Instr} (hvalid : s.cfg.Valid) (hport : isInternal i = false)
    (hfit : TextFits s.cfg i) (ht : opRun i s = .ok t) : P t := by
  cases i with
  | rxPush f => exact hP.rxPush hs ht
  | cmdPush c => exact hP.cmdPush hfit hs ht
  | drain => exact hP.drain hs ht
  | reset => cases ht; exact hP.reset hvalid
  | arbitrate =>
    simp only [opRun, arbitrate] at ht
    split at ht <;> cases ht
    exact hP.stores hs ⟨rfl, rfl, rfl, rfl, rfl, rfl⟩
  | wait =>
    cases ht
    split
    · exact hP.stores hs (sameStores_goto s _)
    · exact hs
  | transmit =>
    cases ht
    unfold transmit
    split
    · exact hP.stores hs (sameStores_goto s _)
    · split
      · exact hP.stores hs ⟨rfl, rfl, rfl, rfl, rfl, rfl⟩
      · exact hs
  | sample | segment _ _ | computeFcs _ | isCorrupted _ | slotIndex _ _ =>
    cases ht
    exact hP.stores hs ⟨rfl, rfl, rfl, rfl, rfl, rfl⟩
  | _ => cases hport
end

/-- A predicate kept by the parts of a step, and by the internal operations where one may be fetched alone
(notes/assumptions/5.md), holds after every step that ends live, where it held before if that was live. -/
theorem KeptByParts.step {P : State → Prop} (hP : KeptByParts P) {s t : State} (hvalid : s.cfg.Valid)
    (hinternal : s.PortDriven ∨ ∀ i u v, isInternal i = true → P u → opRun i u = .ok v → P v)
    (hs : s.Live → P s) (h : step s = .next t) (hlive : t.Live) : P t := by
  have hpop : s.popped.Live → P s.popped := fun hl => hP.stores (hs hl) ⟨rfl, rfl, rfl, rfl, rfl, rfl⟩
  cases step_kind h with
  | idle h => exact hP.stores (hpop (by rwa [State.Live, ← h.phase])) h.toSameStores
  | reset => exact hP.reset hvalid
  | timeouts hl hrun =>
    rcases commit_cases hrun with hok | ⟨c, u, _, rfl⟩
    · exact hP.timeouts (hpop hl) hok
    · exact absurd rfl hlive
  | op i hport hl hfit hrun =>
    rcases commit_cases hrun with hok | ⟨c, u, _, rfl⟩
    · cases hi : isInternal i with
      | false => exact hP.opRun_port (hpop hl) hvalid hi hfit hok
      | true =>
        rcases hinternal with hd | hint
        · simp [hport hd] at hi
        · exact hint i _ t hi (hpop hl) hok
    · exact absurd rfl hlive

/-! ## The invariant of the machine -/

theorem sound_keptByParts : KeptByParts State.Sound where
  stores := State.Sound.of_sameStores
  flush h := { h with
    rxq := Nat.zero_le _
    cmdq := Nat.zero_le _
    texts := fun _ hc => absurd hc List.not_mem_nil }
  place _ := place_sound
  onAck _ := onAck_sound
  enqueue _ := enqueue_sound
  admission := admitPending_sound
  checkTimeouts := checkTimeouts_sound
  rxPush := rxPush_sound
  cmdPush hc h := cmdPush_sound h hc
  reset := State.reset_sound

/-- An internal operation fetched alone, with any operand, keeps soundness. -/
theorem opRun_internal_sound (i : Instr) (s t : State) (hi : isInternal i = true) (h : s.Sound)
    (ht : opRun i s = .ok t) : t.Sound := by
  cases i with
  | dataMiddle f | dataHead f | dataTail f | dataUnseg f => exact sound_keptByParts.acceptData h ht
  | ack f => exact sound_keptByParts.acceptAck h ht
  | routeFrame f => exact sound_keptByParts.routeFrame h ht
  | processCmd c => exact sound_keptByParts.processCmd h ht
  | enqueue p f => exact enqueue_sound h ht
  | admitFrames p => exact admitPending_sound h ht
  | onAck p a => exact onAck_sound h ht
  | slideTx p => exact slideTx_sound h ht
  | checkTimeouts p => exact checkTimeouts_sound h ht
  | place p f => exact place_sound h ht
  | genAck p n => cases ht; exact h.append _
  | deliveryScan p => exact deliveryScan_sound h ht
  | reassemble p f => exact reassemble_sound h ht
  | _ => cases hi

theorem State.inv_iff_sound {s : State} : s.Inv ↔
    s.cfg.Valid ∧ s.Sized ∧ (s.fatalCode = .none ↔ s.Live) ∧ (s.Live → s.Sound) := by
  constructor
  · rintro ⟨hvalid, hsized, hcode, hlive⟩
    refine ⟨hvalid, hsized, hcode, fun hl => ?_⟩
    obtain ⟨hsnd, hrcv, hasm, hrxq, hcmdq, htexts⟩ := hlive hl
    exact ⟨hvalid, hsnd, hrcv, hasm, hrxq, hcmdq, htexts⟩
  · rintro ⟨hvalid, hsized, hcode, hlive⟩
    refine ⟨hvalid, hsized, hcode, fun hl => ?_⟩
    obtain ⟨_, hsnd, hrcv, hasm, hrxq, hcmdq, htexts⟩ := hlive hl
    exact ⟨hsnd, hrcv, hasm, hrxq, hcmdq, htexts⟩

/-- Settles O57: `Sound` is kept by every part of a step, the windows one write at a time, and so by every
step that ends live; the frame of a step gives the rest. -/
theorem invariantKept : Obligations.InvariantKept := by
  unfold Obligations.InvariantKept
  intro s t hs ht
  obtain ⟨hvalid, hsized, hcode, hsound⟩ := State.inv_iff_sound.mp hs
  have hframe := step_frame ht
  exact State.inv_iff_sound.mpr ⟨hframe.cfg ▸ hvalid, hframe.sized hsized, hframe.code hcode,
    sound_keptByParts.step hvalid (.inr opRun_internal_sound) hsound ht⟩

end Sys2Proof.Machine
end

section
/-! PROOFS. R63: while only port events occur, no step writes the windows of `SELF_ID`. -/

namespace Sys2Proof.Machine
open Sys2Proof

/-! ## The windows of the entity itself -/

/-- R63: the windows and the reassembler of `SELF_ID` hold their reset values. -/
structure State.SelfAtReset (s : State) : Prop where
  sender : s.sender s.cfg.selfId = SenderWindow.reset
  receiver : s.receiver s.cfg.selfId = ReceiverWindow.reset
  reasm : s.reasm s.cfg.selfId = Reassembler.reset

/-- From `s` to `t` the configuration stayed, and so did every window and reassembler of a peer but `p`. -/
structure OnlyPeer (p : Byte) (s t : State) : Prop where
  cfg : t.cfg = s.cfg
  sender : ∀ q, q ≠ p → t.sender q = s.sender q
  receiver : ∀ q, q ≠ p → t.receiver q = s.receiver q
  reasm : ∀ q, q ≠ p → t.reasm q = s.reasm q

theorem OnlyPeer.trans {p : Byte} {a b c : State} (h : OnlyPeer p a b) (k : OnlyPeer p b c) : OnlyPeer p a c :=
  ⟨k.cfg.trans h.cfg, fun q hq => (k.sender q hq).trans (h.sender q hq),
    fun q hq => (k.receiver q hq).trans (h.receiver q hq), fun q hq => (k.reasm q hq).trans (h.reasm q hq)⟩

theorem SameStores.onlyPeer {s t : State} (h : SameStores s t) (p : Byte) : OnlyPeer p s t :=
  ⟨h.cfg, fun q _ => State.sender_congr h.snd q, fun q _ => State.receiver_congr h.rcv q,
    fun q _ => State.reasm_congr h.asm q⟩

theorem onlyPeer_setSender (s : State) (p : Byte) (w : SenderWindow) : OnlyPeer p s (s.setSender p w) :=
  ⟨rfl, fun _ hq => State.sender_setSender_other hq w, fun _ _ => rfl, fun _ _ => rfl⟩

theorem onlyPeer_setReceiver (s : State) (p : Byte) (w : ReceiverWindow) : OnlyPeer p s (s.setReceiver p w) :=
  ⟨rfl, fun _ _ => rfl, fun _ hq => State.receiver_setReceiver_other hq w, fun _ _ => rfl⟩

theorem Scanned.onlyPeer {p : Byte} {s t : State} (h : Scanned p s t) : OnlyPeer p s t where
  cfg := h.cfg
  sender q _ := State.sender_congr h.snd q
  receiver q hq := by
    rw [State.receiver_congr (s := s.setReceiver p _) h.rcv, State.receiver_setReceiver_other hq]
  reasm := h.reasm

section
variable {p : Byte} {s t : State}

theorem place_onlyPeer {f : Frame} (ht : place p f s = .ok t) : OnlyPeer p s t := by
  have hack : SameStores s (if ackDue f.seq (s.receiver p).left then s.append [mkAck s.cfg p f.seq] else s) := by
    split
    · exact sameStores_append s _
    · exact SameStores.refl s
  rcases place_cases p f s with ⟨_, e⟩ | ⟨_, _, ⟨_, e⟩ | ⟨_, e⟩⟩ <;> rw [e] at ht
  · cases ht; exact (hack.trans (sameStores_drop _ _ _ _)).onlyPeer p
  · cases ht; exact (hack.trans (sameStores_drop _ _ _ _)).onlyPeer p
  · exact ((hack.onlyPeer p).trans (onlyPeer_setReceiver _ p _)).trans (deliveryScan_scanned ht).onlyPeer

theorem onAck_onlyPeer {a : Byte} (ht : onAck p a s = .ok t) : OnlyPeer p s t := by
  rcases onAck_cases p a s with ⟨_, e⟩ | ⟨_, _, e⟩ <;> rw [e] at ht <;> cases ht
  · exact (sameStores_drop s _ _ _).onlyPeer p
  · exact onlyPeer_setSender s p _

theorem enqueue_onlyPeer {f : Frame} (ht : enqueue p f s = .ok t) : OnlyPeer p s t := by
  rcases enqueue_cases p f s with ⟨_, e⟩ | ⟨_, e⟩ <;> rw [e] at ht <;> cases ht
  exact onlyPeer_setSender s p _

theorem State.SelfAtReset.of_onlyPeer (h : s.SelfAtReset) (hp : p ≠ s.cfg.selfId) (hst : OnlyPeer p s t) :
    t.SelfAtReset := by
  constructor <;> rw [hst.cfg]
  · rw [hst.sender _ hp.symm, h.sender]
  · rw [hst.receiver _ hp.symm, h.receiver]
  · rw [hst.reasm _ hp.symm, h.reasm]

theorem State.SelfAtReset.of_sameStores (h : s.SelfAtReset) (hst : SameStores s t) : t.SelfAtReset := by
  constructor <;> rw [hst.cfg]
  · rw [State.sender_congr hst.snd, h.sender]
  · rw [State.receiver_congr hst.rcv, h.receiver]
  · rw [State.reasm_congr hst.asm, h.reasm]

/-- A write of the sender window of `p` leaves the windows of `SELF_ID` at reset where it writes the reset
value in case `p` is `SELF_ID`. -/
theorem State.SelfAtReset.setSender (h : s.SelfAtReset) {w : SenderWindow}
    (hw : s.sender p = SenderWindow.reset → w = SenderWindow.reset) : (s.setSender p w).SelfAtReset := by
  by_cases hp : p = s.cfg.selfId
  · have hread : s.sender p = SenderWindow.reset := hp ▸ h.sender
    rw [hw hread, ← hread, State.setSender_sender]
    exact h
  · exact h.of_onlyPeer hp (onlyPeer_setSender s p w)

/-- R263: a window at reset has nothing pending, so ADMIT leaves it so. -/
theorem admitPending_selfAtReset (h : s.SelfAtReset) (ht : admitPending p s = .ok t) : t.SelfAtReset := by
  rcases admit_cases p s with ⟨_, e⟩ | ⟨_, e⟩ <;> rw [e] at ht <;> cases ht
  refine (h.setSender (p := p) fun hw => ?_).of_sameStores (sameStores_append _ _)
  rw [hw]
  rfl

/-- R270: no slot of a window at reset is in use, so none fires. -/
theorem SenderWindow.reset_rearmed (t e : Time) : SenderWindow.reset.rearmed t e = SenderWindow.reset := by
  have hfires : ∀ i, SenderWindow.reset.fires t i = false := fun i => by
    simp [SenderWindow.fires, SenderWindow.armed, SenderWindow.reset]
  have hexpiry : (SenderWindow.reset.rearmed t e).expiry = SenderWindow.reset.expiry := by
    ext i hi
    simp [SenderWindow.rearmed, hfires]
  exact congrArg (fun x => { SenderWindow.reset with expiry := x }) hexpiry

theorem checkTimeouts_selfAtReset (h : s.SelfAtReset) (ht : checkTimeouts p s = .ok t) : t.SelfAtReset := by
  rcases checkTimeouts_cases p s with ⟨e, _, hr⟩ | ⟨_, _, hr⟩ | ⟨_, _, _, _, hr⟩ <;>
    rw [hr] at ht <;> cases ht
  · refine (h.setSender (p := p) fun hw => ?_).of_sameStores (sameStores_append _ _)
    rw [hw, SenderWindow.reset_rearmed]
  · exact h

theorem State.reset_selfAtReset (s : State) : s.afterReset.SelfAtReset := by
  constructor
  · exact getD_of_forall_mem (Q := (· = SenderWindow.reset)) (fun _ => List.eq_of_mem_replicate) rfl _
  · exact getD_of_forall_mem (Q := (· = ReceiverWindow.reset)) (fun _ => List.eq_of_mem_replicate) rfl _
  · exact getD_of_forall_mem (Q := (· = Reassembler.reset)) (fun _ => List.eq_of_mem_replicate) rfl _

end

theorem selfAtReset_keptByParts : KeptByParts State.SelfAtReset where
  stores := State.SelfAtReset.of_sameStores
  flush h := ⟨h.sender, h.receiver, h.reasm⟩
  place hp h ht := h.of_onlyPeer hp (place_onlyPeer ht)
  onAck hp h ht := h.of_onlyPeer hp (onAck_onlyPeer ht)
  enqueue hp h ht := h.of_onlyPeer hp (enqueue_onlyPeer ht)
  admission := admitPending_selfAtReset
  checkTimeouts := checkTimeouts_selfAtReset
  rxPush h ht := by
    unfold rxPush at ht
    split at ht <;> cases ht
    exact ⟨h.sender, h.receiver, h.reasm⟩
  cmdPush _ h ht := by
    unfold cmdPush at ht
    split at ht <;> cases ht
    exact ⟨h.sender, h.receiver, h.reasm⟩
  reset _ := State.reset_selfAtReset _

/-- Settles O60: the operations of a step go to other peers, but for ADMIT and CHECK_TIMEOUTS, which leave a
window at reset as it is. -/
theorem selfWindowsStayAtReset : Obligations.SelfWindowsStayAtReset := by
  unfold Obligations.SelfWindowsStayAtReset
  intro s t hvalid hsized hport hself ht
  obtain ⟨hcfg, hagenda, hsized', _⟩ := step_frame ht
  refine ⟨hsized' hsized, fun e he => ?_, fun hl => ?_⟩
  · rw [hagenda] at he
    rw [hcfg]
    exact hport e (List.mem_of_mem_tail he)
  · have hlive : s.Live → s.SelfAtReset := fun hl =>
      have ⟨hsnd, hrcv, hasm⟩ := hself hl
      ⟨hsnd, hrcv, hasm⟩
    obtain ⟨hsnd, hrcv, hasm⟩ := selfAtReset_keptByParts.step hvalid (.inl hport) hlive ht hl
    exact ⟨hsnd, hrcv, hasm⟩

end Sys2Proof.Machine
end

section
/-! PROOFS. The laws of the sequence space (R161 to R164): each test is its bound on the slot index, and a slot's
number and its index undo each other. -/

namespace Sys2Proof.Machine
open Sys2Proof

theorem inWindow_iff (n base : Byte) : inWindow n base = true ↔ (slotIndex n base).toNat < 8 :=
  decide_eq_true_iff

theorem justBehind_iff (n base : Byte) : justBehind n base = true ↔ 248 ≤ (slotIndex n base).toNat :=
  decide_eq_true_iff

/-- R164: the numbers just behind the base are out of the window. -/
theorem not_inWindow_and_justBehind (n base : Byte) : ¬ (inWindow n base = true ∧ justBehind n base = true) := by
  rw [inWindow_iff, justBehind_iff]
  omega

theorem seqAt_toNat (base : Byte) (i : Nat) : (seqAt base i).toNat = (base.toNat + i) % 256 := by
  simp [seqAt]

theorem advance_toNat (base : Byte) (k : Nat) : (advance base k).toNat = (base.toNat + k) % 256 := by
  simp [advance]

/-- R162: subtracting the base cancels it; the index is left modulo 256. -/
theorem slotIndex_seqAt (base : Byte) (i : Nat) : slotIndex (seqAt base i) base = BitVec.ofNat 8 i :=
  add_sub_cancel_left base _

theorem slotIndex_seqAt_toNat (base : Byte) {i : Nat} (hi : i < 256) :
    (slotIndex (seqAt base i) base).toNat = i := by
  rw [slotIndex_seqAt, BitVec.toNat_ofNat, Nat.mod_eq_of_lt hi]

/-- Settles O12: the tests compare the slot index with 8 and with 248, which no index meets both ways, and the
slot's number adds modulo 256 what the index subtracts. -/
theorem sequenceSpaceLaws : Obligations.SequenceSpaceLaws := by
  unfold Obligations.SequenceSpaceLaws
  intro n base i
  exact ⟨inWindow_iff n base, justBehind_iff n base, not_inWindow_and_justBehind n base,
    seqAt_toNat base i, advance_toNat base i, seqAt_slotIndex n base, slotIndex_seqAt_toNat base⟩

end Sys2Proof.Machine
end

section
/-! PROOFS. The codec (R185, R187, R189, R190): a byte enters the CRC register linearly over XOR, and what a
marshalled frame holds. -/

namespace Sys2Proof.Machine
open Sys2Proof

/-- Settles O5: the CRC of a string followed by its own CRC is 0. -/
theorem stampedFramesAreValid : Obligations.StampedFramesAreValid := by
  unfold Obligations.StampedFramesAreValid
  exact isCorrupted_stampFCS

/-! ## The CRC is linear -/

/-- R180: a shift of the register is linear, as the polynomial enters once for each top bit that leaves. -/
theorem crcBit_xor (r q : BitVec 16) : crcBit (r ^^^ q) = crcBit r ^^^ crcBit q := by
  simp only [crcBit, BitVec.getLsbD_xor, BitVec.shiftLeft_xor_distrib]
  cases r.getLsbD 15 <;> cases q.getLsbD 15
  · rfl
  · exact BitVec.xor_assoc ..
  · change r <<< 1 ^^^ q <<< 1 ^^^ 0x1021#16 = r <<< 1 ^^^ 0x1021#16 ^^^ q <<< 1
    ac_rfl
  · change r <<< 1 ^^^ q <<< 1 = r <<< 1 ^^^ 0x1021#16 ^^^ (q <<< 1 ^^^ 0x1021#16)
    have hcancel : r <<< 1 ^^^ 0x1021#16 ^^^ (q <<< 1 ^^^ 0x1021#16) =
        r <<< 1 ^^^ q <<< 1 ^^^ (0x1021#16 ^^^ 0x1021#16) := by ac_rfl
    rw [hcancel, BitVec.xor_self, BitVec.xor_zero]

/-- R180: one byte enters linearly in the register and the byte. -/
theorem crcByte_xor (r q : BitVec 16) (b c : Byte) : crcByte (r ^^^ q) (b ^^^ c) = crcByte r b ^^^ crcByte q c := by
  have henter : r ^^^ q ^^^ (b ^^^ c).zeroExtend 16 <<< 8 =
      (r ^^^ b.zeroExtend 16 <<< 8) ^^^ (q ^^^ c.zeroExtend 16 <<< 8) := by
    simp only [BitVec.truncate_eq_setWidth, BitVec.setWidth_xor, BitVec.shiftLeft_xor_distrib]
    ac_rfl
  simp only [crcByte, henter, crcBit_xor]

/-! ## The table-driven CRC -/

/-- Moving up by a byte keeps the low half alone. -/
theorem zeroExtend_low_shiftLeft (r : BitVec 16) : (r.extractLsb' 0 8).zeroExtend 16 <<< 8 = r <<< 8 := by
  ext i hi
  by_cases h : i < 8
  · simp [h]
  · have hlow : i - 8 < 8 := by omega
    simp [h, hlow, BitVec.getLsbD_eq_getElem (show i - 8 < 16 by omega)]

/-- R190: the byte that meets the high half of the register splits into that half, which only moves the low half
up, and the table's index, which enters as if the register were 0. -/
theorem crcByteByTable_eq (r : BitVec 16) (b : Byte) : crcByteByTable r b = crcByte r b := by
  have hsplit : r.extractLsb' 8 8 ^^^ (r.extractLsb' 8 8 ^^^ b) = b := by
    rw [← BitVec.xor_assoc, BitVec.xor_self, BitVec.zero_xor]
  calc crcByteByTable r b
      = crcByte r (r.extractLsb' 8 8) ^^^ crcByte 0 (r.extractLsb' 8 8 ^^^ b) := by
        rw [crcByte_high, zeroExtend_low_shiftLeft, crcByteByTable, crcTable]
    _ = crcByte (r ^^^ 0) (r.extractLsb' 8 8 ^^^ (r.extractLsb' 8 8 ^^^ b)) := (crcByte_xor ..).symm
    _ = crcByte r b := by rw [hsplit, show r ^^^ 0 = r from BitVec.xor_zero]

/-- Settles O7: the two CRCs take each byte in the same way. -/
theorem tableDrivenCrcAgrees : Obligations.TableDrivenCrcAgrees := by
  unfold Obligations.TableDrivenCrcAgrees
  have hbyte : crcByteByTable = crcByte := funext₂ crcByteByTable_eq
  refine ⟨fun _ => rfl, by decide, by decide, fun init s => ?_⟩
  rw [crc16ByTable, hbyte, crc16]

/-! ## Known values -/

/-- Settles O8: fixed frames and strings, by evaluation; the empty string leaves the register at its start. -/
theorem crcKnownValues : Obligations.CrcKnownValues := by
  unfold Obligations.CrcKnownValues
  exact ⟨by decide +kernel, by decide +kernel, by decide +kernel, rfl, rfl, rfl,
    by decide +kernel, by decide +kernel, by decide, crc16_nil⟩

/-! ## Marshalled frames -/

@[simp] theorem marshal_fcs (src dst seq ack flag : Byte) (ch : List Byte) :
    (marshal src dst seq ack flag ch).fcs = 0 := by simp [Frame.fcs, getElem_marshal]

/-- Settles O9: each field of a marshalled frame. -/
theorem marshalledFields : Obligations.MarshalledFields := by
  unfold Obligations.MarshalledFields
  intro src dst seq ack flag ch hch
  exact ⟨marshal_src .., marshal_dst .., marshal_seq .., marshal_ack .., marshal_flag ..,
    marshal_payload src dst seq ack flag hch, marshal_fcs ..⟩

end Sys2Proof.Machine
end

section
/-! PROOFS. Segmentation and reassembly (R220 to R231): what REASSEMBLE does with a frame of each role, and the
reassembly of the frames of one message, whose state after `j` frames holds the first `57 * j` bytes of it. -/

namespace Sys2Proof.Machine
open Sys2Proof

/-! ## The tail part -/

theorem tailPart_of_not_mem {pl : List Byte} (h : (0 : Byte) ∉ pl) : tailPart pl = pl := by
  induction pl with
  | nil => rfl
  | cons b bs ih =>
    obtain ⟨hb, hbs⟩ := List.ne_and_not_mem_of_not_mem_cons h
    rw [tailPart, if_neg (Ne.symm hb), ih hbs]

theorem tailPart_append_nul {a : List Byte} (h : (0 : Byte) ∉ a) (b : List Byte) :
    tailPart (a ++ 0 :: b) = a ++ [0] := by
  induction a with
  | nil => rfl
  | cons c a ih =>
    obtain ⟨hc, ha⟩ := List.ne_and_not_mem_of_not_mem_cons h
    rw [List.cons_append, tailPart, if_neg (Ne.symm hc), ih ha, List.cons_append]

/-- Settles O17: by induction on the bytes before the first NUL. -/
theorem tailPartEndsAtFirstNul : Obligations.TailPartEndsAtFirstNul := by
  unfold Obligations.TailPartEndsAtFirstNul
  refine fun pl => ⟨tailPart_of_not_mem, fun a b hpl ha => ?_⟩
  rw [hpl, tailPart_append_nul ha]

/-! ## One frame, by its role -/

/-- R226, R227: the report of a message in progress that a frame with sequence number `n` abandons. -/
def State.abandon (s : State) (p n : Byte) : State :=
  { s with trlog := if (s.reasm p).active then s.trlog ++ [⟨.reasmOrphan, p, n⟩] else s.trlog }

@[simp] theorem State.abandon_cfg (s : State) (p n : Byte) : (s.abandon p n).cfg = s.cfg := rfl
@[simp] theorem State.abandon_asm (s : State) (p n : Byte) : (s.abandon p n).asm = s.asm := rfl

section byRole
variable {p : Byte} {f : Frame} {s : State}

theorem reassemble_unsegmented (hr : f.role = .unsegmented) :
    reassemble p f s = .ok ({ s.abandon p f.seq with
      asm := if (s.reasm p).active then s.asm.set p.toNat ⟨false, []⟩ else s.asm }.deliver p (tailPart f.payload)) := by
  cases ha : (s.reasm p).active <;> simp [reassemble, hr, ha, State.abandon, State.drop, State.setReasm]

theorem reassemble_head (hr : f.role = .head) :
    reassemble p f s = .ok ((s.abandon p f.seq).setReasm p ⟨true, f.payload⟩) := by
  cases ha : (s.reasm p).active <;> simp [reassemble, hr, ha, State.abandon, State.drop, State.setReasm]

theorem reassemble_orphan (hr : f.role = .middle ∨ f.role = .tail) (ha : (s.reasm p).active = false) :
    reassemble p f s = .ok (s.drop .reasmOrphan p f.seq) := by
  rcases hr with hr | hr <;> simp [reassemble, hr, ha]

theorem reassemble_middle (hr : f.role = .middle) (ha : (s.reasm p).active = true)
    (hroom : (s.reasm p).acc.length + 57 ≤ s.cfg.maxMsgLen) :
    reassemble p f s = .ok (s.setReasm p ⟨true, (s.reasm p).acc ++ f.payload⟩) := by
  simp [reassemble, hr, ha, hroom]

theorem reassemble_tail (hr : f.role = .tail) (ha : (s.reasm p).active = true)
    (hroom : (s.reasm p).acc.length + (tailPart f.payload).length ≤ s.cfg.maxMsgLen) :
    reassemble p f s =
      .ok ((s.deliver p ((s.reasm p).acc ++ tailPart f.payload)).setReasm p ⟨false, []⟩) := by
  simp [reassemble, hr, ha, hroom]

theorem reassemble_overflow (hr : f.role = .middle ∨ f.role = .tail) (ha : (s.reasm p).active = true)
    (hfull : s.cfg.maxMsgLen <
      (s.reasm p).acc.length + (if f.role = .middle then 57 else (tailPart f.payload).length)) :
    reassemble p f s = .fatal .reasmOverflow s := by
  rcases hr with hr | hr
  · rw [if_pos hr] at hfull
    simp [reassemble, hr, ha, hfull]
  · rw [if_neg (by simp [hr])] at hfull
    simp [reassemble, hr, ha, hfull]

/-- REASSEMBLE where it is enabled, for a peer that has a window. -/
theorem exec_reassemble (hd : s.phase = .drain) (hp : p.toNat < s.cfg.peerCount) :
    exec (.reassemble p f) s = (reassemble p f s).commit := by
  rw [exec, execReassemble, inPhase_of_eq hd, withPeer_of_lt hp]

end byRole

/-- Settles O15: the two roles that abandon a message in progress. -/
theorem reassembleUnsegmentedOrHead : Obligations.ReassembleUnsegmentedOrHead := by
  unfold Obligations.ReassembleUnsegmentedOrHead
  intro p f s hd hp
  rw [exec_reassemble hd hp]
  exact ⟨fun hr => by rw [reassemble_unsegmented hr]; rfl, fun hr => by rw [reassemble_head hr]; rfl⟩

/-- Settles O16: the two roles that need a message in progress. -/
theorem reassembleMiddleOrTail : Obligations.ReassembleMiddleOrTail := by
  unfold Obligations.ReassembleMiddleOrTail
  intro p f s hd hp hr
  rw [exec_reassemble hd hp]
  refine ⟨fun ha => ?_, fun ha hm hroom => ?_, fun ha ht hroom => ?_, fun ha hfull => ?_⟩
  · rw [reassemble_orphan hr ha]; rfl
  · rw [reassemble_middle hm ha hroom]; rfl
  · rw [reassemble_tail ht ha hroom]; rfl
  · exact ⟨raiseFatal .reasmOverflow s, by rw [reassemble_overflow hr ha hfull, commit_fatal],
      rfl, rfl, rfl, rfl, rfl⟩

/-! ## The frames of a message -/

/-- R224: frame `j` of the `k` frames of the message `m`. -/
def messageFrame (cfg : Config) (dst : Byte) (m : List Byte) (k j : Nat) : Frame :=
  marshal cfg.selfId dst 0 0 (chunkRole k j).flag (chunk m j)

theorem segment_eq_map_messageFrame (cfg : Config) (dst : Byte) (text : List Byte) {k : Nat}
    (hk : frameCount (messageOf text).length = k) :
    segment cfg dst text = (List.range k).map (messageFrame cfg dst (messageOf text) k) := by
  subst hk; rfl

theorem chunk_length_le (m : List Byte) (j : Nat) : (chunk m j).length ≤ 57 := List.length_take_le ..

theorem take_append_chunk (m : List Byte) (j : Nat) : m.take (j * 57) ++ chunk m j = m.take ((j + 1) * 57) := by
  rw [chunk, ← List.take_add, Nat.succ_mul]

/-- R221: the frames but the last are full, and the last one holds at least the NUL. -/
theorem exists_frameCount_messageOf (text : List Byte) :
    ∃ i, frameCount (messageOf text).length = i + 1 ∧ i * 57 ≤ text.length ∧ text.length < (i + 1) * 57 := by
  refine ⟨text.length / 57, ?_, by omega, by omega⟩
  rw [messageOf, List.length_append, List.length_singleton, frameCount]
  split <;> omega

/-- R122: a frame's role is the one its flag was made for. -/
theorem role_of_flag {f : Frame} {r : Role} (h : f.flag = r.flag) : f.role = r := by
  rw [Frame.role, h]
  cases r <;> rfl

section messageFrame
variable {cfg : Config} {dst : Byte} {m : List Byte} {k j : Nat}

@[simp] theorem messageFrame_seq : (messageFrame cfg dst m k j).seq = 0 := marshal_seq ..

theorem messageFrame_role : (messageFrame cfg dst m k j).role = chunkRole k j := role_of_flag (marshal_flag ..)

theorem messageFrame_payload : (messageFrame cfg dst m k j).payload =
    chunk m j ++ List.replicate (57 - (chunk m j).length) 0 := marshal_payload _ _ _ _ _ (chunk_length_le m j)

theorem messageFrame_payload_of_full (h : (j + 1) * 57 ≤ m.length) :
    (messageFrame cfg dst m k j).payload = chunk m j := by
  have hlen : (chunk m j).length = 57 := by rw [chunk, List.length_take, List.length_drop]; omega
  rw [messageFrame_payload, hlen, Nat.sub_self, List.replicate_zero, List.append_nil]

end messageFrame

/-- R230, D12: the tail part of the last frame is the rest of the message: the NUL ends it and the zero bytes
after it are cut off. -/
theorem tailPart_messageFrame (cfg : Config) (dst : Byte) (k : Nat) {text : List Byte} {j : Nat}
    (h0 : (0 : Byte) ∉ text) (hlo : j * 57 ≤ text.length) (hhi : text.length < (j + 1) * 57) :
    tailPart (messageFrame cfg dst (messageOf text) k j).payload = (messageOf text).drop (j * 57) := by
  have hrest : (messageOf text).drop (j * 57) = text.drop (j * 57) ++ [0] := List.drop_append_of_le_length hlo
  have hchunk : chunk (messageOf text) j = text.drop (j * 57) ++ [0] := by
    rw [chunk, hrest, List.take_of_length_le]
    rw [List.length_append, List.length_drop, List.length_singleton]
    omega
  rw [messageFrame_payload, hchunk, hrest, List.append_assoc, List.singleton_append]
  exact tailPart_append_nul (fun h => h0 (List.mem_of_mem_drop h)) _

/-! ## The round trip -/

/-- R56: ending a message where none is in progress changes nothing. -/
theorem asm_set_of_idle {s : State} {p : Byte} (ha : (s.reasm p).active = false)
    (hacc : (s.reasm p).active = false → (s.reasm p).acc = []) : s.asm.set p.toNat ⟨false, []⟩ = s.asm := by
  have hidle : s.reasm p = ⟨false, []⟩ := by rw [← ha, ← hacc ha]
  rw [← hidle]
  exact congrArg State.asm (s.setReasm_reasm p)

/-- R227, R228: after `j + 1` of `k` frames, the last not among them, the reassembler holds the bytes of those. -/
theorem reassemble_messageFrames (cfg : Config) (dst : Byte) {p : Byte} {m : List Byte} {s : State} {k j : Nat}
    (hp : p.toNat < s.asm.length) (hmax : m.length ≤ s.cfg.maxMsgLen) (hj : j + 1 < k)
    (hfull : (j + 1) * 57 ≤ m.length) :
    forEach (reassemble p) ((List.range (j + 1)).map (messageFrame cfg dst m k)) s =
      .ok ((s.abandon p 0).setReasm p ⟨true, m.take ((j + 1) * 57)⟩) := by
  induction j with
  | zero =>
    have hr : (messageFrame cfg dst m k 0).role = .head := by
      rw [messageFrame_role, chunkRole, if_neg (by omega), if_pos rfl]
    have hbytes : chunk m 0 = m.take ((0 + 1) * 57) := take_append_chunk m 0
    rw [Nat.zero_add, List.range_one, List.map_singleton, forEach_cons, reassemble_head hr,
      messageFrame_payload_of_full hfull, messageFrame_seq, hbytes, andThen_ok, forEach_nil]
  | succ j ih =>
    have ih := ih (by omega) ((Nat.mul_le_mul_right 57 (j + 1).le_succ).trans hfull)
    have hr : (messageFrame cfg dst m k (j + 1)).role = .middle := by
      rw [messageFrame_role, chunkRole, if_neg (by omega), if_neg (by omega), if_neg (by omega)]
    have hheld := State.reasm_setReasm_self (s := s.abandon p 0) hp ⟨true, m.take ((j + 1) * 57)⟩
    have hroom : (m.take ((j + 1) * 57)).length + 57 ≤ s.cfg.maxMsgLen := by rw [List.length_take]; omega
    rw [List.range_succ, List.map_append, forEach_append, ih, andThen_ok, List.map_singleton,
      forEach_cons, reassemble_middle hr (by rw [hheld]) (by rw [hheld]; exact hroom), hheld,
      messageFrame_payload_of_full hfull, take_append_chunk]
    simp [State.setReasm]

/-- Settles O14: a text of one frame is delivered by it; of a longer one, the HEAD and the MIDDLE frames leave in
the reassembler what the TAIL does not bring. -/
theorem segmentationRoundTrip : Obligations.SegmentationRoundTrip := by
  unfold Obligations.SegmentationRoundTrip
  intro cfg dst p text s h0 hmax hp hidle
  obtain ⟨i, hk, hlo, hhi⟩ := exists_frameCount_messageOf text
  have htail := tailPart_messageFrame cfg dst (i + 1) h0 hlo hhi
  have hlen : (messageOf text).length = text.length + 1 := List.length_append
  rw [segment_eq_map_messageFrame cfg dst text hk]
  cases i with
  | zero =>
    have hr : (messageFrame cfg dst (messageOf text) 1 0).role = .unsegmented := by
      rw [messageFrame_role, chunkRole, if_pos rfl]
    have hasm : (if (s.reasm p).active then s.asm.set p.toNat ⟨false, []⟩ else s.asm) =
        s.asm.set p.toNat ⟨false, []⟩ :=
      ite_eq_left_iff.mpr fun ha => (asm_set_of_idle (Bool.eq_false_iff.mpr ha) hidle).symm
    rw [Nat.zero_add, List.range_one, List.map_singleton, forEach_cons, reassemble_unsegmented hr, htail, hasm,
      messageFrame_seq, andThen_ok, forEach_nil]
    rfl
  | succ n =>
    have hr : (messageFrame cfg dst (messageOf text) (n + 2) (n + 1)).role = .tail := by
      rw [messageFrame_role, chunkRole, if_neg (by omega), if_neg (by omega), if_pos rfl]
    have hheld := State.reasm_setReasm_self (s := s.abandon p 0) hp ⟨true, (messageOf text).take ((n + 1) * 57)⟩
    have hroom : ((messageOf text).take ((n + 1) * 57)).length + ((messageOf text).drop ((n + 1) * 57)).length ≤
        s.cfg.maxMsgLen := by
      rw [← List.length_append, List.take_append_drop, hlen]
      exact hmax
    rw [List.range_succ, List.map_append, forEach_append,
      reassemble_messageFrames cfg dst hp (by omega) (by omega) (hlo.trans (by omega)), andThen_ok, List.map_singleton,
      forEach_cons, reassemble_tail hr (by rw [hheld]) (by rw [hheld, htail]; exact hroom), hheld, htail,
      List.take_append_drop]
    simp [State.setReasm, State.deliver, State.abandon, messageOf]

end Sys2Proof.Machine
end

section
/-! PROOFS. The sender window (R263 to R273): what ON_ACK, ADMIT and CHECK_TIMEOUTS do to the window of their peer,
slot by slot, and what they send. -/

namespace Sys2Proof.Machine
open Sys2Proof

/-! ## Acks (R265 to R269) -/

/-- R160 as the spec writes it. -/
theorem slotIndex_toNat_eq (n base : Byte) : (slotIndex n base).toNat = (n.toNat + 256 - base.toNat) % 256 := by
  have := base.isLt
  rw [slotIndex_toNat]
  congr 1
  omega

/-- ON_ACK where it is enabled, for a peer that has a window. -/
theorem exec_onAck {p a : Byte} {s : State} (hd : s.phase = .drain) (hp : p.toNat < s.cfg.peerCount) :
    exec (.onAck p a) s = (onAck p a s).commit := by
  rw [exec, execOnAck, inPhase_of_eq hd, withPeer_of_lt hp]

/-- R265: an ack of no slot is reported and dropped. -/
theorem onAck_outside {p a : Byte} {s : State} (h : 8 ≤ (slotIndex a (s.sender p).left).toNat) :
    onAck p a s = .ok (s.drop .ackOutOfWindow p a) := by
  rw [onAck, slotOf_eq_none_iff.mpr h]

/-- R266, R267: an ack of a slot, recorded before the slide. -/
theorem onAck_inside {p a : Byte} {s : State} {i : Fin 8} (h : (slotIndex a (s.sender p).left).toNat = i.val) :
    onAck p a s = .ok (s.setSender p ((s.sender p).record i).slide) := by
  rw [onAck, slotOf_eq_some_iff.mpr h]

/-- Settles O20: no slot has the index of an ack outside the window. -/
theorem onAckOutsideWindowIsDropped : Obligations.OnAckOutsideWindowIsDropped := by
  unfold Obligations.OnAckOutsideWindowIsDropped
  intro p a s hd hp hidx
  rw [← slotIndex_toNat_eq] at hidx
  rw [exec_onAck hd hp, onAck_outside hidx, commit_ok]
  rfl

/-- R267: the model's count of leading acked slots is the run the spec defines. -/
theorem SenderWindow.isAckRun_ackRun (w : SenderWindow) : w.IsAckRun w.ackRun := by
  refine ⟨w.ackRun_le_firstFree, w.ackRun_le_eight, fun i hi => acked_of_lt_ackRun hi, fun i hi hfree => ?_⟩
  have h8 : w.ackRun < 8 := hi ▸ i.isLt
  simpa only [Fin.getElem_fin, hi] using w.not_acked_ackRun hfree h8

/-- R268: the model's slide is the one the spec defines, slot by slot. -/
theorem SenderWindow.slidBy_slideBy (w : SenderWindow) (k : Nat) : w.SlidBy (w.slideBy k) k := by
  refine ⟨rfl, rfl, rfl, fun j hj => ?_, fun j hj => ?_⟩
  · simp [getElem_shifted, hj]
  · simp [getElem_shifted, Nat.not_lt.mpr hj]

/-- Settles O21: the recorded window slides by its own ack run. -/
theorem onAckRecordsAndSlides : Obligations.OnAckRecordsAndSlides := by
  unfold Obligations.OnAckRecordsAndSlides
  intro p a i s hd hp hidx
  rw [← slotIndex_toNat_eq] at hidx
  let w := (s.sender p).record i
  refine ⟨w.ackRun, w.slideBy w.ackRun, ?_, w.isAckRun_ackRun, w.slidBy_slideBy _⟩
  rw [exec_onAck hd hp, onAck_inside hidx, SenderWindow.slide_eq, commit_ok]
  rfl

/-- R266: an ack recorded before changes nothing. -/
theorem SenderWindow.record_of_acked {w : SenderWindow} {i : Fin 8} (h : w.acked[i] = true) : w.record i = w := by
  have hacked : w.acked.set i.val true = w.acked := by rw [← h]; exact Vector.set_getElem_self _
  rw [SenderWindow.record, hacked]

/-- R267: there is nothing to slide by where slot 0 is not acked or not in use. -/
theorem SenderWindow.slide_of_base {w : SenderWindow} (h : w.firstFree = 0 ∨ w.acked[0] = false) : w.slide = w := by
  have hrun : w.ackRun = 0 := by
    by_contra hne
    have hpos : 0 < w.ackRun := Nat.pos_of_ne_zero hne
    rcases h with hfree | hacked
    · exact hne (Nat.le_zero.mp (hfree ▸ w.ackRun_le_firstFree))
    · exact absurd (acked_of_lt_ackRun hpos) (Bool.eq_false_iff.mp hacked)
  rw [SenderWindow.slide, if_pos hrun]

/-- R269: an ack that fell in the window slid by a run: after the slide its slot is out of the window, or the
slot, now lower by the run, is acked still. -/
theorem slotIndex_slide {w : SenderWindow} {a : Byte} {i : Fin 8} (hidx : (slotIndex a w.left).toNat = i.val) :
    8 ≤ (slotIndex a (w.record i).slide.left).toNat ∨
    ∃ j : Fin 8, (slotIndex a (w.record i).slide.left).toNat = j.val ∧ (w.record i).slide.acked[j] = true := by
  have h8 := (w.record i).ackRun_le_eight
  have hslid : (slotIndex a (w.record i).slide.left).toNat = (i.val + (256 - (w.record i).ackRun % 256)) % 256 := by
    rw [SenderWindow.slide_eq, SenderWindow.slideBy_left, SenderWindow.record_left, slotIndex_advance_toNat, hidx]
  rw [hslid]
  by_cases hlt : i.val < (w.record i).ackRun
  · left; omega
  · right
    have hback : i.val - (w.record i).ackRun + (w.record i).ackRun = i.val := by omega
    refine ⟨⟨i.val - (w.record i).ackRun, by omega⟩, by simp only; omega, ?_⟩
    simp only [SenderWindow.slide_eq, SenderWindow.slideBy_acked, Fin.getElem_fin, getElem_shifted, hback, i.isLt,
      dif_pos, SenderWindow.getElem_record_acked, if_pos]

/-- R269: an ack for a slot that is acked already changes nothing where no slide is due. -/
theorem onAck_acked {p a : Byte} {s : State} {w : SenderWindow} {j : Fin 8} (hw : s.sender p = w)
    (hidx : (slotIndex a w.left).toNat = j.val) (hacked : w.acked[j] = true)
    (hbase : w.firstFree = 0 ∨ w.acked[0] = false) : onAck p a s = .ok s := by
  subst hw
  rw [onAck_inside hidx, SenderWindow.record_of_acked hacked, SenderWindow.slide_of_base hbase,
    State.setSender_sender]

/-- R269: the same number again changes nothing, or is dropped. -/
theorem onAck_again {p a : Byte} {s t : State} (hp : p.toNat < s.snd.length) (h : onAck p a s = .ok t) :
    onAck p a t = .ok t ∨ onAck p a t = .ok (t.drop .ackOutOfWindow p a) := by
  rcases onAck_cases p a s with ⟨hout, e⟩ | ⟨i, hidx, e⟩ <;> rw [e] at h <;> cases h
  · exact .inr (onAck_outside hout)
  · have hread := State.sender_setSender_self hp ((s.sender p).record i).slide
    rcases slotIndex_slide hidx with hout | ⟨j, hj, hacked⟩
    · exact .inr (onAck_outside (by rwa [hread]))
    · exact .inl (onAck_acked hread hj hacked (SenderWindow.slide_base _))

/-- Settles O23: both calls go on, and the second one as `onAck_again` says. -/
theorem onAckIsIdempotent : Obligations.OnAckIsIdempotent := by
  unfold Obligations.OnAckIsIdempotent
  intro p a s hd hp ⟨hsnd, _, _⟩
  obtain ⟨t, ht⟩ : ∃ t, onAck p a s = .ok t := by
    rcases onAck_cases p a s with ⟨_, e⟩ | ⟨_, _, e⟩ <;> exact ⟨_, e⟩
  have hinner := inner_onAck p a s
  rw [ht] at hinner
  have hd' : t.phase = .drain := hinner.phase.trans hd
  have hp' : p.toNat < t.cfg.peerCount := hinner.cfg.symm ▸ hp
  rw [exec_onAck hd hp, ht]
  rcases onAck_again (hsnd ▸ hp) ht with e | e
  · exact ⟨t, t, rfl, by rw [exec_onAck hd' hp', e, commit_ok], rfl⟩
  · exact ⟨t, t.drop .ackOutOfWindow p a, rfl, by rw [exec_onAck hd' hp', e, commit_ok], rfl⟩

/-! ## Timers (R270 to R272) -/

/-- CHECK_TIMEOUTS where it is enabled, for a peer that has a window. -/
theorem exec_checkTimeouts {p : Byte} {s : State} (hd : s.phase = .timeouts) (hp : p.toNat < s.cfg.peerCount) :
    exec (.checkTimeouts p) s = (checkTimeouts p s).commit := by
  rw [exec, execCheckTimeouts, inPhase_of_eq hd, withPeer_of_lt hp]

theorem exists_addTime_eq_some {t : Time} {d : Nat} (h : t.toNat + d < 2 ^ 64) :
    ∃ e, addTime t d = some e ∧ e.toNat = t.toNat + d := by
  have hsome : addTime t d ≠ none := fun hn => Nat.not_le.mpr h (addTime_eq_none.mp hn)
  obtain ⟨e, he⟩ := Option.ne_none_iff_exists'.mp hsome
  exact ⟨e, he, (addTime_eq_some he).2⟩

theorem checkTimeouts_of_addTime {p : Byte} {s : State} {e : Time} (h : addTime s.tNow s.cfg.rto = some e) :
    checkTimeouts p s =
      .ok ((s.setSender p ((s.sender p).rearmed s.tNow e)).append ((s.sender p).expired s.tNow)) := by
  rw [checkTimeouts, h]

section rearmed
variable (w : SenderWindow) (t e : Time)

theorem SenderWindow.getElem_rearmed_expiry (i : Fin 8) :
    (w.rearmed t e).expiry[i] = if w.fires t i then e else w.expiry[i] := by
  simp [SenderWindow.rearmed]

theorem SenderWindow.fires_eq (i : Fin 8) :
    w.fires t i = decide (i.val < w.firstFree ∧ w.acked[i] = false ∧ w.expiry[i].toNat ≤ t.toNat) := by
  simp [SenderWindow.fires, SenderWindow.armed, BitVec.le_def, Bool.and_assoc]

end rearmed

/-- Settles O25: the due slots are those that fire. -/
theorem checkTimeoutsSendsExpiredSlots : Obligations.CheckTimeoutsSendsExpiredSlots := by
  unfold Obligations.CheckTimeoutsSendsExpiredSlots
  intro p s hd hp hlt
  obtain ⟨e, he, hval⟩ := exists_addTime_eq_some hlt
  simp only [← SenderWindow.fires_eq]
  refine ⟨((s.sender p).rearmed s.tNow e).expiry, ?_, fun i => ⟨fun hi => ?_, fun hi => ?_⟩⟩
  · rw [exec_checkTimeouts hd hp, checkTimeouts_of_addTime he, commit_ok]
    rfl
  · rw [SenderWindow.getElem_rearmed_expiry, if_pos hi, hval]
  · rw [SenderWindow.getElem_rearmed_expiry, if_neg (Bool.eq_false_iff.mp hi)]

theorem SenderWindow.mem_firing {w : SenderWindow} {t : Time} {i : Fin 8} : i ∈ w.firing t ↔ w.fires t i = true := by
  simp [SenderWindow.firing]

/-- R270: no slot stands twice in the list of those that fire. -/
theorem SenderWindow.nodup_firing (w : SenderWindow) (t : Time) : (w.firing t).Nodup :=
  (List.nodup_finRange 8).filter _

/-- Settles O26: the firing slots stand once each in `firing`, `expired` holds their frames, and the new expiry is
past `t_now`, which the old one is not. -/
theorem retransmissionRenewsExpiry : Obligations.RetransmissionRenewsExpiry := by
  unfold Obligations.RetransmissionRenewsExpiry
  intro p i s hd hp ⟨hsnd, _, _⟩ hrto hlt harmed hdue
  obtain ⟨e, he, hval⟩ := exists_addTime_eq_some hlt
  have hfires : (s.sender p).fires s.tNow i = true := by
    rw [SenderWindow.fires, harmed, Bool.true_and, decide_eq_true_iff, BitVec.le_def]
    exact hdue
  have hmem := SenderWindow.mem_firing.mpr hfires
  have hread : ((s.setSender p ((s.sender p).rearmed s.tNow e)).append ((s.sender p).expired s.tNow)).sender p =
      (s.sender p).rearmed s.tNow e := State.sender_setSender_self (hsnd ▸ hp) _
  refine ⟨List.count_eq_one_of_mem ((s.sender p).nodup_firing s.tNow) hmem, _,
    by rw [exec_checkTimeouts hd hp, checkTimeouts_of_addTime he, commit_ok], ?_, ?_, ?_⟩
  · exact List.mem_append_right _ (List.mem_map_of_mem (f := fun i => (s.sender p).buffer[i]) hmem)
  · rw [State.append_batch, State.setSender_batch, List.length_append, SenderWindow.expired, List.length_map]
  · rw [hread, SenderWindow.getElem_rearmed_expiry, if_pos hfires, hval]
    omega

/-! ## Admission (R263, R264) -/

/-- ADMIT where it is enabled, for a peer that has a window. -/
theorem exec_admitFrames {p : Byte} {s : State} (hd : s.phase = .drain) (hp : p.toNat < s.cfg.peerCount) :
    exec (.admitFrames p) s = (admitPending p s).commit := by
  rw [exec, execAdmit, inPhase_of_eq hd, withPeer_of_lt hp]

/-- R263, R264: `f` moved into slot `firstFree`, its expiry `t`, and `rest` still pending. -/
def SenderWindow.admitOne (w : SenderWindow) (init : BitVec 16) (t : Time) (f : Frame) (rest : List Frame)
    (h : w.firstFree < 8) : SenderWindow :=
  { w with
    pending := rest
    buffer := w.buffer.set w.firstFree (w.stamped init f) h
    acked := w.acked.set w.firstFree false h
    expiry := w.expiry.set w.firstFree t h
    firstFree := w.firstFree + 1 }

section admitLoop
variable {init : BitVec 16} {t : Time} {w : SenderWindow}

theorem admitLoop_of_room (f : Frame) (rest : List Frame) (h : w.firstFree < 8) :
    (admitLoop init (some t) (f :: rest) w).window =
      (admitLoop init (some t) rest (w.admitOne init t f rest h)).window := by
  rw [admitLoop, dif_pos h]
  rfl

theorem admitLoop_of_full (q : List Frame) (h : ¬ w.firstFree < 8) : (admitLoop init (some t) q w).window = w := by
  cases q with
  | nil => rfl
  | cons f rest => rw [admitLoop, dif_neg h]

/-- R263: what is not admitted stays pending. -/
theorem admitLoop_pending {q : List Frame} (hq : w.pending = q) :
    (admitLoop init (some t) q w).window.pending = q.drop (min (8 - w.firstFree) q.length) := by
  induction q generalizing w with
  | nil => rw [List.drop_nil]; exact hq
  | cons f rest ih =>
    by_cases h : w.firstFree < 8
    · have hcount : min (8 - w.firstFree) (rest.length + 1) = min (8 - (w.firstFree + 1)) rest.length + 1 := by omega
      rw [admitLoop_of_room f rest h, ih rfl, List.length_cons, hcount, List.drop_succ_cons]
      rfl
    · rw [admitLoop_of_full _ h, Nat.sub_eq_zero_of_le (Nat.not_lt.mp h), Nat.zero_min, List.drop_zero, hq]

/-- R263: the slots in use before, and those past the last one filled, stay. -/
theorem admitLoop_slot_kept {q : List Frame} {i : Fin 8} (hi : i.val < w.firstFree ∨ w.firstFree + q.length ≤ i.val) :
    (admitLoop init (some t) q w).window.buffer[i] = w.buffer[i] ∧
    (admitLoop init (some t) q w).window.acked[i] = w.acked[i] ∧
    (admitLoop init (some t) q w).window.expiry[i] = w.expiry[i] := by
  induction q generalizing w with
  | nil => exact ⟨rfl, rfl, rfl⟩
  | cons f rest ih =>
    by_cases h : w.firstFree < 8
    · rw [List.length_cons] at hi
      have hne : w.firstFree ≠ i.val := by omega
      have hrest := ih (w := w.admitOne init t f rest h) (by simp only [SenderWindow.admitOne]; omega)
      rw [admitLoop_of_room f rest h]
      simpa [SenderWindow.admitOne, Vector.getElem_set, hne] using hrest
    · rw [admitLoop_of_full _ h]
      exact ⟨rfl, rfl, rfl⟩

/-- R263, R264: slot `firstFree + j` holds the `j`-th pending frame, stamped with the slot's number, un-acked and
with the new expiry. -/
theorem admitLoop_slot_filled {q : List Frame} {i : Fin 8} (hi : w.firstFree ≤ i.val)
    (hq : i.val - w.firstFree < q.length) :
    (admitLoop init (some t) q w).window.buffer[i] =
      stampFCS init (q[i.val - w.firstFree].set 2 (w.left + BitVec.ofNat 8 i.val)) ∧
    (admitLoop init (some t) q w).window.acked[i] = false ∧
    (admitLoop init (some t) q w).window.expiry[i] = t := by
  induction q generalizing w with
  | nil => exact absurd hq (Nat.not_lt_zero _)
  | cons f rest ih =>
    have h : w.firstFree < 8 := by omega
    rw [admitLoop_of_room f rest h]
    rcases Nat.eq_or_lt_of_le hi with heq | hlt
    · have hkept := admitLoop_slot_kept (init := init) (t := t) (w := w.admitOne init t f rest h) (q := rest) (i := i)
        (.inl (by simp only [SenderWindow.admitOne]; omega))
      simpa [SenderWindow.admitOne, SenderWindow.stamped, Frame.setSeq, seqAt, heq] using hkept
    · have hsub : i.val - w.firstFree = (i.val - (w.firstFree + 1)) + 1 := by omega
      have hrest := ih (w := w.admitOne init t f rest h) hlt (by
        simp only [SenderWindow.admitOne, List.length_cons] at hq ⊢; omega)
      simp only [hsub, List.getElem_cons_succ]
      exact hrest

/-- R263: what is sent is what the slots now hold. -/
theorem getElem_admitLoop_sent {q : List Frame} {i : Fin 8} (hi : w.firstFree ≤ i.val)
    (hs : i.val - w.firstFree < (admitLoop init (some t) q w).sent.length) (hq : i.val - w.firstFree < q.length) :
    (admitLoop init (some t) q w).sent[i.val - w.firstFree] = (admitLoop init (some t) q w).window.buffer[i] := by
  rw [(admitLoop_slot_filled hi hq).1, List.getElem_of_eq (admitLoop_sent init t q w) hs, List.getElem_mapIdx,
    List.getElem_take, Nat.add_sub_of_le hi]

end admitLoop

/-- ADMIT goes on where `t_now + RTO` does not overflow. -/
theorem admitPending_of_addTime {p : Byte} {s : State} {t : Time} (h : addTime s.tNow s.cfg.rto = some t) :
    let a := admitLoop s.cfg.crcInit (some t) (s.sender p).pending (s.sender p)
    admitPending p s = .ok ((s.setSender p a.window).append a.sent) := by
  intro a
  have hgoes : a.overflow = false := (admitLoop_counts ..).1
  rcases admit_cases p s with ⟨_, e⟩ | ⟨ho, _⟩
  · rwa [h] at e
  · rw [h] at ho
    exact absurd ho (Bool.eq_false_iff.mp hgoes)

/-- Settles O19: what the loop of R263 does to `pending`, to each slot and to the batch. -/
theorem admitFillsFreeSlots : Obligations.AdmitFillsFreeSlots := by
  unfold Obligations.AdmitFillsFreeSlots
  intro p s hd hp _ hlt w n
  obtain ⟨t, ht, hval⟩ := exists_addTime_eq_some hlt
  let a := admitLoop s.cfg.crcInit (some t) w.pending w
  obtain ⟨_, hcount, hlen, hleft⟩ := admitLoop_counts s.cfg.crcInit t w.pending w
  refine ⟨a.window, a.sent, ?_, hleft, hcount, admitLoop_pending rfl, hlen,
    fun i hi => admitLoop_slot_kept ?_, fun i h1 h2 h3 => ?_⟩
  · rw [exec_admitFrames hd hp, admitPending_of_addTime ht, commit_ok]
    rfl
  · omega
  · obtain ⟨hbuffer, hacked, hexpiry⟩ := admitLoop_slot_filled (init := s.cfg.crcInit) (t := t) h1 h3
    exact ⟨getElem_admitLoop_sent h1 h2 h3, hbuffer, hacked, by rw [hexpiry, hval]⟩

end Sys2Proof.Machine
end

section
/-! PROOFS. The receiver window (R310 to R316): the ends of PLACE by slot index, and DELIVERY_SCAN as the reassembly
of the run followed by the slide. -/

namespace Sys2Proof.Machine
open Sys2Proof

/-- R420: an atomic step always answers a next state. -/
theorem exists_commit_eq_next (r : Run) : ∃ t, r.commit = .next t := by
  cases r with
  | ok s => exact ⟨s, rfl⟩
  | fatal c s => exact ⟨raiseFatal c s, rfl⟩

/-! ## PLACE by slot index (R310 to R312) -/

section place
variable {p : Byte} {f : Frame} {s : State}

/-- PLACE where it is enabled, for a peer that has a window. -/
theorem exec_place (hd : s.phase = .drain) (hp : p.toNat < s.cfg.peerCount) :
    exec (.place p f) s = (place p f s).commit := by
  rw [exec, execPlace, inPhase_of_eq hd, withPeer_of_lt hp]

/-- R312: neither in the window nor just behind it, no ack is due. -/
theorem place_ahead (h8 : 8 ≤ (slotIndex f.seq (s.receiver p).left).toNat)
    (h248 : (slotIndex f.seq (s.receiver p).left).toNat < 248) :
    place p f s = .ok (s.drop .dataOutOfWindow p f.seq) := by
  have hack : ackDue f.seq (s.receiver p).left = false := by
    rw [Bool.eq_false_iff, ne_eq, ackDue_iff]
    omega
  simp [place, hack, slotOf_eq_none_iff.mpr h8]

/-- R312: just behind the window the ack is due, and the frame is dropped still. -/
theorem place_justBehind (h248 : 248 ≤ (slotIndex f.seq (s.receiver p).left).toNat) :
    place p f s = .ok ((s.append [mkAck s.cfg p f.seq]).drop .dataOutOfWindow p f.seq) := by
  have h8 : 8 ≤ (slotIndex f.seq (s.receiver p).left).toNat := Nat.le_trans (by decide) h248
  simp [place, ackDue_iff.mpr (.inr h248), slotOf_eq_none_iff.mpr h8]

variable {i : Fin 8} (hi : (slotIndex f.seq (s.receiver p).left).toNat = i.val)
include hi

theorem ackDue_of_slot : ackDue f.seq (s.receiver p).left = true := ackDue_iff.mpr (.inl (hi ▸ i.isLt))

/-- R311: a frame for a slot that holds one is acked and dropped. -/
theorem place_duplicate (hpresent : (s.receiver p).present[i] = true) :
    place p f s = .ok ((s.append [mkAck s.cfg p f.seq]).drop .dataDuplicate p f.seq) := by
  simp only [place, ackDue_of_slot hi, slotOf_eq_some_iff.mpr hi, hpresent, if_true]

/-- R311: a frame for an empty slot is acked and stored, and the window scanned. -/
theorem place_new (hempty : (s.receiver p).present[i] = false) :
    place p f s =
      deliveryScan p ((s.append [mkAck s.cfg p f.seq]).setReceiver p ((s.receiver p).store i f)) := by
  simp only [place, ackDue_of_slot hi, slotOf_eq_some_iff.mpr hi, hempty, if_true, if_false, Bool.false_eq_true]

end place

/-- Settles O28: no slot has an index of 8 or more, and an ack is due from 248 on. -/
theorem placeOutsideWindowIsDropped : Obligations.PlaceOutsideWindowIsDropped := by
  unfold Obligations.PlaceOutsideWindowIsDropped
  intro p f s hd hp
  rw [← slotIndex_toNat_eq, exec_place hd hp]
  exact ⟨fun h8 h248 => by rw [place_ahead h8 h248]; rfl, fun h248 => by rw [place_justBehind h248]; rfl⟩

/-! ## DELIVERY_SCAN (R315, R316) -/

/-- DELIVERY_SCAN where it is enabled, for a peer that has a window. -/
theorem exec_deliveryScan {p : Byte} {s : State} (hd : s.phase = .drain) (hp : p.toNat < s.cfg.peerCount) :
    exec (.deliveryScan p) s = (deliveryScan p s).commit := by
  rw [exec, execDeliveryScan, inPhase_of_eq hd, withPeer_of_lt hp]

/-- Settles O29: PLACE of a new frame is DELIVERY_SCAN from the state with the frame stored, so the two end alike,
in `FATAL` too. -/
theorem placeInWindowStoresThenScans : Obligations.PlaceInWindowStoresThenScans := by
  unfold Obligations.PlaceInWindowStoresThenScans
  intro p f i s hd hp hidx
  rw [← slotIndex_toNat_eq] at hidx
  rw [exec_place hd hp]
  refine ⟨fun hpresent => by rw [place_duplicate hidx hpresent]; rfl, ?_⟩
  intro hempty stored
  have hplace : place p f s = deliveryScan p stored := place_new hidx hempty
  have hscan : exec (.deliveryScan p) stored = (deliveryScan p stored).commit := exec_deliveryScan hd hp
  obtain ⟨u, hu⟩ := exists_commit_eq_next (deliveryScan p stored)
  exact ⟨u, u, by rw [hplace, hu], by rw [hscan, hu], fun _ => rfl, fun hfatal => ⟨hfatal, rfl, rfl, rfl, rfl⟩⟩

/-- R315: the model's count of leading present slots is the run the spec defines. -/
theorem ReceiverWindow.isRun_run (w : ReceiverWindow) : w.IsRun w.run := by
  refine ⟨w.run_le_eight, fun i hi => present_of_lt_run hi, fun i hi => ?_⟩
  have h8 : w.run < 8 := hi ▸ i.isLt
  simpa only [Fin.getElem_fin, hi] using w.not_present_run h8

/-- R316: the model's slide is the one the spec defines, slot by slot. -/
theorem ReceiverWindow.slidBy_slideBy (w : ReceiverWindow) (k : Nat) : w.SlidBy (w.slideBy k) k := by
  refine ⟨rfl, fun j hj => ?_, fun j hj => ?_⟩
  · simp [getElem_shifted, hj]
  · simp [getElem_shifted, Nat.not_lt.mpr hj]

/-- R316: the scan slides in every case, as a slide by an empty run writes the window back. -/
theorem deliveryScan_eq (p : Byte) (s : State) :
    deliveryScan p s = (forEach (reassemble p) (s.receiver p).deliverable s).andThen fun u =>
      .ok (u.setReceiver p ((s.receiver p).slideBy (s.receiver p).run)) := by
  by_cases hrun : 0 < (s.receiver p).run
  · simp only [deliveryScan, hrun, if_true]
  · have h0 : (s.receiver p).run = 0 := Nat.eq_zero_of_not_pos hrun
    simp [deliveryScan, ReceiverWindow.deliverable, h0, State.setReceiver_receiver]

/-! ## Room for what is reassembled -/

theorem tailPart_length_le (pl : List Byte) : (tailPart pl).length ≤ pl.length := by
  induction pl with
  | nil => exact Nat.le_refl _
  | cons b bs ih =>
    rw [tailPart]
    split
    · exact Nat.succ_le_succ (Nat.zero_le _)
    · exact Nat.succ_le_succ ih

/-- R228, R229: where `acc` has room for one payload no frame raises, and `acc` grows by at most one payload. -/
theorem reassemble_of_room {p : Byte} (f : Frame) {s : State} (hp : p.toNat < s.asm.length)
    (hroom : (s.reasm p).acc.length + 57 ≤ s.cfg.maxMsgLen) :
    ∃ t, reassemble p f s = .ok t ∧ (t.reasm p).acc.length ≤ (s.reasm p).acc.length + 57 := by
  have htail : (tailPart f.payload).length ≤ 57 := (tailPart_length_le _).trans_eq (length_payload f)
  have hwritten (a : Reassembler) (ha : a.acc.length ≤ (s.reasm p).acc.length + 57) :
      ((s.setReasm p a).reasm p).acc.length ≤ (s.reasm p).acc.length + 57 := by
    rwa [State.reasm_setReasm_self hp]
  rcases reassemble_cases p f s with ⟨_, _, e⟩ | ⟨_, _, e⟩ | ⟨_, _, e⟩ | ⟨_, _, e⟩ | ⟨_, _, e⟩ |
    ⟨_, _, _, e⟩ | ⟨_, _, _, e⟩ | ⟨_, _, hfull⟩
  · exact ⟨_, e, Nat.le_add_right _ _⟩
  · exact ⟨_, e, hwritten ⟨false, []⟩ (Nat.zero_le _)⟩
  · exact ⟨_, e, hwritten ⟨true, f.payload⟩ (by simp)⟩
  · exact ⟨_, e, hwritten ⟨true, f.payload⟩ (by simp)⟩
  · exact ⟨_, e, Nat.le_add_right _ _⟩
  · exact ⟨_, e, hwritten ⟨true, (s.reasm p).acc ++ f.payload⟩ (by simp)⟩
  · exact ⟨_, e, hwritten ⟨false, []⟩ (Nat.zero_le _)⟩
  · omega

/-- `acc` with room for a payload per frame takes them all. -/
theorem reassembleAll_of_room {p : Byte} {fs : List Frame} {s : State} (hp : p.toNat < s.asm.length)
    (hroom : (s.reasm p).acc.length + fs.length * 57 ≤ s.cfg.maxMsgLen) :
    ∃ u, forEach (reassemble p) fs s = .ok u := by
  induction fs generalizing s with
  | nil => exact ⟨s, rfl⟩
  | cons f fs ih =>
    rw [List.length_cons, Nat.succ_mul] at hroom
    obtain ⟨t, ht, hgrown⟩ := reassemble_of_room f hp (by omega)
    have hinner := inner_reassemble p f s
    rw [ht] at hinner
    have hasm : t.asm.length = s.asm.length := hinner.asm
    have hcfg : t.cfg = s.cfg := hinner.cfg
    rw [forEach_cons, ht]
    exact ih (hasm ▸ hp) (by rw [hcfg]; omega)

/-- Settles O30: the run and the slide are the model's, and 8 payloads are room for every run. -/
theorem deliveryScanReleasesRun : Obligations.DeliveryScanReleasesRun := by
  unfold Obligations.DeliveryScanReleasesRun
  intro p s hd hp hsized
  obtain ⟨_, _, hasm⟩ := hsized
  refine ⟨(s.receiver p).run, _, (s.receiver p).isRun_run, (s.receiver p).slidBy_slideBy _, ?_⟩
  rw [exec_deliveryScan hd hp, deliveryScan_eq]
  intro delivery
  have hdelivery : forEach (reassemble p) (s.receiver p).deliverable s = delivery := rfl
  have hkeeps := reassembleAll_keeps p (s.receiver p).deliverable s
  have hinner := inner_reassembleAll p (s.receiver p).deliverable s
  rw [hdelivery] at hkeeps hinner ⊢
  obtain ⟨hsnd, hrcv, _, _, hbatch, _⟩ := hkeeps
  refine ⟨fun u hu => ?_, fun c u hu => ?_, fun hroom => ?_⟩
  · have hsame : u.rcv = s.rcv := by rwa [hu] at hrcv
    rw [hu, andThen_ok, commit_ok, State.setReceiver, hsame]
  · rw [hu, andThen_fatal, commit_fatal]
    exact ⟨raiseFatal c u, rfl, rfl, rfl, rfl, rfl, rfl⟩
  · have hlen : (s.receiver p).deliverable.length ≤ 8 := List.length_take_le' .. |>.trans_eq Vector.length_toList
    obtain ⟨u, hu⟩ := reassembleAll_of_room (fs := (s.receiver p).deliverable) (hasm ▸ hp)
      (Nat.le_trans (Nat.add_le_add_left (Nat.mul_le_mul_right 57 hlen) _) hroom)
    rw [← hdelivery, hu] at hsnd hrcv hbatch hinner ⊢
    exact ⟨u, rfl, hrcv, hsnd, hbatch, hinner.phase.trans hd⟩

end Sys2Proof.Machine
end

section
/-! PROOFS. The router (R356), the refused commands (R358), the loop steps (R351 to R354, R360 to R362), the pushes
(R363, R364) and `FATAL` (R368): what each operation answers where it is enabled. -/

namespace Sys2Proof.Machine
open Sys2Proof

/-! ## Router and commands (R356, R358) -/

/-- ROUTE_FRAME where it is enabled. -/
theorem exec_routeFrame {f : Frame} {s : State} (hd : s.phase = .drain) :
    exec (.routeFrame f) s = (routeFrame f s).commit := by
  rw [exec, execRouteFrame, inPhase_of_eq hd]

/-- PROCESS_CMD where it is enabled. -/
theorem exec_processCmd {c : Command} {s : State} (hd : s.phase = .drain) :
    exec (.processCmd c) s = (processCmd c s).commit := by
  rw [exec, execProcessCmd, inPhase_of_eq hd]

theorem addressFault_of_dst {cfg : Config} {f : Frame} (h : f.dst ≠ cfg.selfId) :
    addressFault cfg f = some .misdirected := by rw [addressFault, if_pos h]

theorem addressFault_of_src {cfg : Config} {f : Frame} (hdst : f.dst = cfg.selfId)
    (h : cfg.peerCount ≤ f.src.toNat ∨ f.src = cfg.selfId) : addressFault cfg f = some .badSrc := by
  rw [addressFault, if_neg (not_not.mpr hdst), if_pos h]

section routeFrame
variable {f : Frame} {s : State}

theorem routeFrame_corrupted (h : isCorrupted s.cfg.crcInit f = true) :
    routeFrame f s = .ok (s.drop .corrupt 0 0) := by rw [routeFrame, if_pos h]

variable (hvalid : isCorrupted s.cfg.crcInit f = false)
include hvalid

/-- R403, R404: the address tests drop alike whatever the kind. -/
theorem routeFrame_of_addressFault {c : DropCode} (h : addressFault s.cfg f = some c) :
    routeFrame f s = .ok (s.drop c f.src f.seq) := by
  cases hk : f.kind <;> simp [routeFrame, acceptAck, acceptData, hvalid, hk, h]

/-- R356: a frame that passes the tests goes to ON_ACK or to PLACE by its kind. -/
theorem routeFrame_of_addressed (h : addressFault s.cfg f = none) :
    routeFrame f s = if f.kind then onAck f.src f.ack s else place f.src f s := by
  simp [routeFrame, acceptAck, acceptData, hvalid, h]

end routeFrame

/-- Settles O33: the tests in the order of `routeFrame`, each of its ends named above. -/
theorem routeFrameTestsThenDispatches : Obligations.RouteFrameTestsThenDispatches := by
  unfold Obligations.RouteFrameTestsThenDispatches
  intro f s hd
  rw [exec_routeFrame hd]
  refine ⟨fun hc => by rw [routeFrame_corrupted hc]; rfl, fun hvalid => ⟨fun hdst => ?_, fun hdst hsrc => ?_,
    fun hdst hpeer hself => ?_⟩⟩
  · rw [routeFrame_of_addressFault hvalid (addressFault_of_dst hdst)]
    rfl
  · rw [routeFrame_of_addressFault hvalid (addressFault_of_src hdst hsrc)]
    rfl
  · rw [routeFrame_of_addressed hvalid (addressFault_eq_none.mpr ⟨hdst, hpeer, hself⟩), exec_onAck hd hpeer,
      exec_place hd hpeer]
    refine ⟨fun hk => ?_, fun hk => ?_⟩
    · rw [if_pos (c := f.kind = true) hk]
    · rw [if_neg (c := f.kind = true) (Bool.eq_false_iff.mp hk)]

/-- Settles O37: the test of the destination comes before segmentation. -/
theorem processCmdBadDestinationIsDropped : Obligations.ProcessCmdBadDestinationIsDropped := by
  unfold Obligations.ProcessCmdBadDestinationIsDropped
  intro c s hd hdst
  have hbad : badDst s.cfg c.dst = true := by simpa [badDst] using hdst
  rw [exec_processCmd hd, processCmd, if_pos hbad]
  rfl

/-! ## Pushes (R363, R364) -/

/-- R368: in `FATAL` an operation that is enabled in every other phase changes nothing. -/
theorem unlessFatal_of_fatal {s : State} (h : s.phase = .fatal) (k : Host.Outcome State Fault Refusal) :
    unlessFatal s k = .next s := if_pos h

/-- Settles O39: the gate of `FATAL`, then the test of the depth. -/
theorem rxPushAppendsOrOverflows : Obligations.RxPushAppendsOrOverflows := by
  unfold Obligations.RxPushAppendsOrOverflows
  intro f s
  refine ⟨fun hfatal => unlessFatal_of_fatal hfatal _, fun hlive hroom => ?_, fun hlive hfull => ?_⟩
  all_goals rw [exec, execRxPush, unlessFatal_of_live hlive, rxPush]
  · rw [if_neg (Nat.not_le.mpr hroom), commit_ok]
  · rw [if_pos hfull.ge]
    exact ⟨raiseFatal .rxqOverflow s, rfl, rfl, rfl, rfl, rfl, rfl⟩

/-- Settles O40: the gate of `FATAL`, then the test of the text, then the test of the depth. -/
theorem cmdPushAppendsOrOverflows : Obligations.CmdPushAppendsOrOverflows := by
  unfold Obligations.CmdPushAppendsOrOverflows
  intro c s
  refine ⟨fun hfatal => unlessFatal_of_fatal hfatal _, fun hlive htext hroom => ?_, fun hlive htext hfull => ?_⟩
  all_goals rw [exec, execCmdPush, unlessFatal_of_live hlive, if_neg (Nat.not_lt.mpr htext), cmdPush]
  · rw [if_neg (Nat.not_le.mpr hroom), commit_ok]
  · rw [if_pos hfull.ge]
    exact ⟨raiseFatal .cmdqOverflow s, rfl, rfl, rfl, rfl, rfl, rfl⟩

/-! ## SAMPLE, ARBITRATE and WAIT (R351 to R354) -/

/-- Settles O42: the one effect of the phase. -/
theorem sampleTakesTheTime : Obligations.SampleTakesTheTime := by
  unfold Obligations.SampleTakesTheTime
  exact fun s hp => inPhase_of_eq hp _

theorem SenderWindow.mem_deadlines {w : SenderWindow} {d : Time} :
    d ∈ w.deadlines ↔ ∃ i : Fin 8, w.armed i = true ∧ w.expiry[i] = d := by
  simp [SenderWindow.deadlines]

/-- R352: the deadlines are the expiries of the armed slots of all windows. -/
theorem State.mem_deadlines {s : State} {d : Time} :
    d ∈ s.deadlines ↔ ∃ w ∈ s.snd, ∃ i : Fin 8, w.armed i = true ∧ w.expiry[i] = d := by
  simp only [State.deadlines, List.mem_flatMap, SenderWindow.mem_deadlines]

/-- ARBITRATE where it is enabled and there is a next deadline. -/
theorem exec_arbitrate {s : State} {d : Time} (hp : s.phase = .arbitrate) (hd : s.nextDeadline = some d) :
    exec .arbitrate s = .next { s with deadline := d, phase := .wait } := by
  rw [exec, execArbitrate, inPhase_of_eq hp, arbitrate, hd]
  rfl

/-- Settles O43: `earliest` of the deadlines is a member not above any, and there is none exactly where no slot is
armed. -/
theorem arbitrateTakesEarliestDeadline : Obligations.ArbitrateTakesEarliestDeadline := by
  unfold Obligations.ArbitrateTakesEarliestDeadline
  intro s hp
  refine ⟨fun ⟨w, hw, i, harmed⟩ => ?_, fun hnone hlt => ?_⟩
  · have hmem : w.expiry[i] ∈ s.deadlines := State.mem_deadlines.mpr ⟨w, hw, i, harmed, rfl⟩
    have hsome : earliest s.deadlines ≠ none := fun h => List.ne_nil_of_mem hmem (earliest_eq_none.mp h)
    obtain ⟨d, hd⟩ := Option.ne_none_iff_exists'.mp hsome
    obtain ⟨hdmem, hdle⟩ := earliest_spec hd
    refine ⟨d, exec_arbitrate hp (by rw [State.nextDeadline, hd]), State.mem_deadlines.mp hdmem, ?_⟩
    intro v hv j hj
    exact BitVec.le_def.mp (hdle _ (State.mem_deadlines.mpr ⟨v, hv, j, hj, rfl⟩))
  · have hempty : s.deadlines = [] := List.eq_nil_iff_forall_not_mem.mpr fun d hd => by
      obtain ⟨w, hw, i, harmed, _⟩ := State.mem_deadlines.mp hd
      exact Bool.false_ne_true ((hnone w hw i).symm.trans harmed)
    refine exec_arbitrate hp ?_
    rw [State.nextDeadline, earliest_eq_none.mpr hempty, addTime, if_pos hlt]

/-- R354: the exit test of WAIT. -/
theorem State.mayLeaveWait_iff {s : State} :
    s.mayLeaveWait = true ↔ s.rxq ≠ [] ∨ s.cmdq ≠ [] ∨ s.deadline.toNat ≤ s.nowIn.toNat := by
  simp [State.mayLeaveWait, BitVec.le_def, or_assoc]

/-- Settles O44: by the exit test. -/
theorem waitLeavesOrHolds : Obligations.WaitLeavesOrHolds := by
  unfold Obligations.WaitLeavesOrHolds
  intro s hp
  rw [exec, execWait, inPhase_of_eq hp]
  refine ⟨fun hleave => ?_, fun hrxq hcmdq hlt => ?_⟩
  · rw [if_pos (State.mayLeaveWait_iff.mpr hleave)]
    rfl
  · have hhold : ¬ s.mayLeaveWait = true := by
      rw [State.mayLeaveWait_iff]
      simp [hrxq, hcmdq, hlt]
    rw [if_neg hhold]

/-! ## TRANSMIT (R361, R362) -/

section transmit
variable {s : State}

/-- R362: with an empty batch the loop repeats. -/
theorem transmit_of_empty (hb : s.batch = []) : transmit s = s.goto .sample := by rw [transmit, hb]

/-- R361: the head of the batch is accepted, or the worker holds. -/
theorem transmit_of_cons {f : Frame} {rest : List Frame} (hb : s.batch = f :: rest) :
    transmit s = if s.txReady then { s with batch := rest, txlog := s.txlog ++ [f] } else s := by
  rw [transmit, hb]

/-- R134: in `TRANSMIT` the head of the batch is offered. -/
theorem txOffer_of_cons {f : Frame} {rest : List Frame} (hp : s.phase = .transmit) (hb : s.batch = f :: rest) :
    s.txOffer = some f := by
  rw [State.txOffer, if_pos hp, hb, List.head?_cons]

end transmit

/-- Settles O48: by the head of the batch and the channel's readiness. -/
theorem transmitSendsHoldsOrRepeats : Obligations.TransmitSendsHoldsOrRepeats := by
  unfold Obligations.TransmitSendsHoldsOrRepeats
  intro s hp
  rw [exec, execTransmit, inPhase_of_eq hp]
  refine ⟨fun hb => by rw [transmit_of_empty hb]; rfl, fun f rest hb => ⟨txOffer_of_cons hp hb, ?_, ?_⟩⟩
  · intro hready
    rw [transmit_of_cons hb, if_pos hready]
  · intro hbusy
    rw [transmit_of_cons hb, if_neg (Bool.eq_false_iff.mp hbusy)]

/-! ## FATAL (R368) -/

/-- R368: every operation but RESET is gated by a phase other than `FATAL`, or by `FATAL` itself. -/
theorem exec_of_fatal {i : Instr} {s : State} (hi : i ≠ .reset) (hs : s.phase = .fatal) : exec i s = .next s := by
  have hgate (ph : Phase) (hph : ph ≠ .fatal) (k : Host.Outcome State Fault Refusal) : inPhase ph s k = .next s :=
    inPhase_of_ne (hs ▸ hph.symm) k
  cases i with
  | reset => exact absurd rfl hi
  | rxPush _ | cmdPush _ | segment _ _ | computeFcs _ | isCorrupted _ | slotIndex _ _ =>
    exact unlessFatal_of_fatal hs _
  | sample => exact hgate .sample (by decide) _
  | arbitrate => exact hgate .arbitrate (by decide) _
  | wait => exact hgate .wait (by decide) _
  | checkTimeouts _ => exact hgate .timeouts (by decide) _
  | transmit => exact hgate .transmit (by decide) _
  | dataMiddle _ | dataHead _ | dataTail _ | dataUnseg _ | ack _ | drain | routeFrame _ | processCmd _ | enqueue _ _
  | admitFrames _ | onAck _ _ | slideTx _ | place _ _ | genAck _ _ | deliveryScan _ | reassemble _ _ =>
    exact hgate .drain (by decide) _

/-- Settles O52: no operation but RESET passes its gate, the worker has no step, and nothing is offered. -/
theorem fatalIsLeftOnlyByReset : Obligations.FatalIsLeftOnlyByReset := by
  unfold Obligations.FatalIsLeftOnlyByReset
  intro s hs
  obtain ⟨_, _, _, _, _, _, hworker⟩ := workerStep_eq_exec (s := s)
  have hoffer : s.txOffer = none := if_neg (by rw [hs]; decide)
  exact ⟨fun i hi => exec_of_fatal hi hs, hworker hs, hoffer, s.afterReset, rfl, rfl, rfl⟩

end Sys2Proof.Machine
end

section
/-! PROOFS. The TIMEOUTS loop step (R360): CHECK_TIMEOUTS for each peer in order, as one write of all windows. -/

namespace Sys2Proof.Machine
open Sys2Proof

/-- `s` once the windows of the peers below `n` are checked: their expired slots sent again, with the expiry `e`. -/
def State.checkedBelow (s : State) (e : Time) (n : Nat) : State :=
  { s with
    snd := (s.snd.take n).map (·.rearmed s.tNow e) ++ s.snd.drop n
    batch := s.batch ++ (s.snd.take n).flatMap (·.expired s.tNow) }

theorem State.checkedBelow_zero (s : State) (e : Time) : s.checkedBelow e 0 = s := by
  simp [State.checkedBelow]

/-- Once every window is checked. -/
theorem State.checkedBelow_length (s : State) (e : Time) : s.checkedBelow e s.snd.length =
    { s with snd := s.snd.map (·.rearmed s.tNow e), batch := s.batch ++ s.snd.flatMap (·.expired s.tNow) } := by
  simp [State.checkedBelow]

/-- R270: CHECK_TIMEOUTS for the next peer, whose window is not written yet. -/
theorem checkTimeouts_checkedBelow {s : State} {e : Time} {n : Nat} (he : addTime s.tNow s.cfg.rto = some e)
    (hn : n < s.snd.length) (h256 : n < 256) :
    checkTimeouts (BitVec.ofNat 8 n) (s.checkedBelow e n) = .ok (s.checkedBelow e (n + 1)) := by
  have hidx : (BitVec.ofNat 8 n).toNat = n := by rw [BitVec.toNat_ofNat, Nat.mod_eq_of_lt h256]
  have hlen : ((s.snd.take n).map (·.rearmed s.tNow e)).length = n := by
    rw [List.length_map, List.length_take_of_le hn.le]
  have hread : (s.checkedBelow e n).sender (BitVec.ofNat 8 n) = s.snd[n] := by
    rw [State.sender, hidx, List.getD_eq_getElem?_getD, State.checkedBelow,
      List.getElem?_append_right hlen.le, hlen]
    simp [hn]
  have hnow : addTime (s.checkedBelow e n).tNow (s.checkedBelow e n).cfg.rto = some e := he
  rw [checkTimeouts_of_addTime hnow, hread]
  have hrest : s.snd.drop n = s.snd[n] :: s.snd.drop (n + 1) := List.drop_eq_getElem_cons hn
  have hdone : s.snd.take (n + 1) = s.snd.take n ++ [s.snd[n]] := List.take_succ_eq_append_getElem hn
  simp only [State.setSender, State.append, State.checkedBelow, hidx, List.set_append_right _ _ hlen.le, hlen,
    Nat.sub_self, hrest, List.set_cons_zero, hdone, List.map_append, List.flatMap_append, List.map_singleton,
    List.flatMap_singleton, List.append_assoc, List.singleton_append]

/-- R360: the loop over the peers below `n`. -/
theorem forEach_checkTimeouts {s : State} {e : Time} (he : addTime s.tNow s.cfg.rto = some e) {n : Nat}
    (hn : n ≤ s.snd.length) (h256 : n ≤ 256) :
    forEach checkTimeouts ((List.range n).map (BitVec.ofNat 8)) s = .ok (s.checkedBelow e n) := by
  induction n with
  | zero => rw [State.checkedBelow_zero]; rfl
  | succ n ih =>
    rw [List.range_succ, List.map_append, forEach_append, ih (by omega) (by omega), andThen_ok, List.map_singleton,
      forEach_cons, checkTimeouts_checkedBelow he (by omega) (by omega), andThen_ok, forEach_nil]

/-- R270: a slot is due where it is armed and its expiry has passed. -/
theorem SenderWindow.fires_eq_armed (w : SenderWindow) (t : Time) (i : Fin 8) :
    w.fires t i = decide (w.armed i = true ∧ w.expiry[i].toNat ≤ t.toNat) := by
  simp [SenderWindow.fires, BitVec.le_def]

/-- With an empty agenda the worker moves. -/
theorem step_of_agenda_nil {s : State} (h : s.agenda = []) : step s = workerStep s := by rw [step, h]

/-- Settles O47: the loop step is the check of every window, and its due slots are those that fire. -/
theorem timeoutsStepChecksEveryPeer : Obligations.TimeoutsStepChecksEveryPeer := by
  unfold Obligations.TimeoutsStepChecksEveryPeer
  intro e s ha hp ⟨_, hpeers, _⟩ ⟨hsnd, _, _⟩ hval
  obtain ⟨e', he, hval'⟩ := exists_addTime_eq_some (t := s.tNow) (d := s.cfg.rto) (hval ▸ e.isLt)
  obtain rfl : e' = e := BitVec.eq_of_toNat_eq (hval'.trans hval.symm)
  have hloop : forEach checkTimeouts (peersOf s.cfg) s = .ok (s.checkedBelow e' s.snd.length) := by
    rw [hsnd]
    exact forEach_checkTimeouts he hsnd.ge hpeers
  obtain ⟨_, _, _, _, hworker, _, _⟩ := workerStep_eq_exec (s := s)
  simp only [← SenderWindow.fires_eq_armed, cond_eq_ite]
  rw [step_of_agenda_nil ha, hworker hp, timeoutsStep, inPhase_of_eq hp, timeouts, hloop, State.checkedBelow_length,
    andThen_ok, commit_ok]
  rfl

end Sys2Proof.Machine
end

section
/-! PROOFS. The `DRAIN` step (R355, R359): its three loops are the operations it is made of, executed in order, and
where there is room for everything that is queued none of them raises. -/

namespace Sys2Proof.Machine
open Sys2Proof

/-! ## The loops of a `DRAIN` step -/

/-- R355: the frames `fs` routed, then the commands `cs` processed, then the admissions for the peers `ps`. -/
def drainLoops (fs : List Frame) (cs : List Command) (ps : List Byte) (s : State) : Run :=
  (forEach routeFrame fs s).andThen fun a => (forEach processCmd cs a).andThen (forEach admitPending ps)

section drainLoops
variable (fs : List Frame) (cs : List Command) (ps : List Byte) (s : State)

theorem inner_drainLoops : Inner s (drainLoops fs cs ps s).state :=
  inner_andThen (inner_forEach (fun f _ => inner_routeFrame f) s) fun a =>
  inner_andThen (inner_forEach (fun c _ => inner_processCmd c) a) fun b =>
  inner_forEach (fun p _ => inner_admit p) b

/-- The loops neither read nor write the queues. -/
theorem drainLoops_withQueues (q : List Frame) (c : List Command) :
    drainLoops fs cs ps (s.withQueues q c) = (drainLoops fs cs ps s).map (·.withQueues q c) := by
  have hadmit := forEach_map (g := (·.withQueues q c)) (admitPending_withQueues q c) ps
  have hproc := forEach_map (g := (·.withQueues q c)) (processCmd_withQueues q c) cs
  rw [drainLoops, forEach_map (g := (·.withQueues q c)) (routeFrame_withQueues q c)]
  exact andThen_map (fun a => by rw [hproc, andThen_map hadmit]) _

end drainLoops

/-- A `DRAIN` step ends as its loops from the state with both queues empty do, but for the move to `TIMEOUTS` and,
at a raise, for the queues. -/
theorem drain_cases (s : State) :
    (∃ u, drainLoops s.rxq s.cmdq (peersOf s.cfg) (s.withQueues [] []) = .ok u ∧
      drain s = .ok (u.goto .timeouts)) ∨
    ∃ c u, drainLoops s.rxq s.cmdq (peersOf s.cfg) (s.withQueues [] []) = .fatal c (u.withQueues [] []) ∧
      drain s = .fatal c u := by
  obtain ⟨hok, hfatal⟩ := drain_parts s
  cases hd : drain s with
  | ok t =>
    obtain ⟨a, b, u, ha, hb, hu, rfl⟩ := hok t hd
    exact .inl ⟨u, by rw [drainLoops, ha, andThen_ok, hb, andThen_ok, hu], rfl⟩
  | fatal c u => exact .inr ⟨c, u, hfatal c u hd, rfl⟩

/-! ## The operations executed in order -/

/-- Two groups of operations that end as two parts of a step do end, one after the other, as the parts in sequence:
after a raise in the first the second does nothing (R368). -/
theorem execAll_append_commit {is js : List Instr} {s : State} {r : Run} {k : State → Run}
    (hjs : ∀ j ∈ js, j ≠ .reset) (his : execAll is s = r.commit)
    (hk : ∀ u, r = .ok u → execAll js u = (k u).commit) : execAll (is ++ js) s = (r.andThen k).commit := by
  rw [execAll_append, his]
  cases r with
  | ok u => exact hk u rfl
  | fatal c u => exact execAll_fatal hjs rfl

/-- `execAll_forEach` as one equation. -/
theorem execAll_map {α : Type} {op : α → Instr} {body : α → State → Run} {xs : List α} {cfg : Config}
    (hop : ∀ x ∈ xs, op x ≠ .reset)
    (hexec : ∀ x ∈ xs, ∀ s, s.phase = .drain → s.cfg = cfg → exec (op x) s = (body x s).commit)
    (hin : ∀ x ∈ xs, ∀ s, Inner s (body x s).state) {s : State} (hp : s.phase = .drain) (hc : s.cfg = cfg) :
    execAll (xs.map op) s = (forEach body xs s).commit := by
  obtain ⟨hok, hfatal⟩ := execAll_forEach hop hexec hin hp hc
  cases hr : forEach body xs s with
  | ok t => exact hok t hr
  | fatal c t => exact hfatal c t hr

theorem inner_of_forEach_eq_ok {α : Type} {body : α → State → Run} {xs : List α} {s t : State}
    (hin : ∀ x ∈ xs, ∀ s, Inner s (body x s).state) (h : forEach body xs s = .ok t) : Inner s t := by
  have hinner := inner_forEach hin s
  rwa [h] at hinner

/-- R355: ROUTE_FRAME, PROCESS_CMD and ADMIT executed in order end as the loops of `DRAIN`. -/
theorem execAll_drainOps (fs : List Frame) (cs : List Command) {s : State} (hp : s.phase = .drain) :
    execAll (fs.map .routeFrame ++ cs.map .processCmd ++ (peersOf s.cfg).map .admitFrames) s =
      (drainLoops fs cs (peersOf s.cfg) s).commit := by
  have hcmdOps : ∀ j ∈ cs.map Instr.processCmd, j ≠ .reset := List.forall_mem_map.mpr fun _ _ => nofun
  have hadmitOps : ∀ j ∈ (peersOf s.cfg).map Instr.admitFrames, j ≠ .reset :=
    List.forall_mem_map.mpr fun _ _ => nofun
  rw [List.append_assoc, drainLoops]
  refine execAll_append_commit (List.forall_mem_append.mpr ⟨hcmdOps, hadmitOps⟩) ?_ fun a ha =>
    execAll_append_commit hadmitOps ?_ fun b hb => ?_
  · exact execAll_map (op := .routeFrame) (fun _ _ => nofun) (fun _ _ _ hd _ => exec_routeFrame hd)
      (fun f _ => inner_routeFrame f) hp rfl
  all_goals have hsa := inner_of_forEach_eq_ok (fun f _ => inner_routeFrame f) ha
  · exact execAll_map (op := .processCmd) (fun _ _ => nofun) (fun _ _ _ hd _ => exec_processCmd hd)
      (fun c _ => inner_processCmd c) (hsa.phase.trans hp) rfl
  · have hsb := hsa.trans (inner_of_forEach_eq_ok (fun c _ => inner_processCmd c) hb)
    exact execAll_map (op := .admitFrames) (fun _ _ => nofun)
      (fun _ hmem _ hd hc => exec_admitFrames hd (hc ▸ mem_peersOf.mp hmem)) (fun p _ => inner_admit p)
      (hsb.phase.trans hp) hsb.cfg

/-! ## Room for everything that is queued -/

/-- The run goes on, and in a state with `P`. -/
def Run.EndsIn (P : State → Prop) (r : Run) : Prop := ∃ t, r = .ok t ∧ P t

theorem endsIn_ok {P : State → Prop} {s : State} (h : P s) : (Run.ok s).EndsIn P := ⟨s, rfl, h⟩

theorem endsIn_andThen {P Q : State → Prop} {r : Run} {k : State → Run} (hr : r.EndsIn P)
    (hk : ∀ t, P t → (k t).EndsIn Q) : (r.andThen k).EndsIn Q := by
  obtain ⟨t, rfl, ht⟩ := hr
  exact hk t ht

/-- A loop each round of which goes on and takes `cost x` of the room goes on where there is room for all rounds. -/
theorem endsIn_forEach {α : Type} {P : Nat → State → Prop} {cost : α → Nat} {body : α → State → Run}
    {xs : List α} (h : ∀ x ∈ xs, ∀ n s, P (n + cost x) s → (body x s).EndsIn (P n)) {n : Nat} {s : State}
    (hs : P (n + (xs.map cost).sum) s) : (forEach body xs s).EndsIn (P n) := by
  induction xs generalizing s with
  | nil => exact endsIn_ok hs
  | cons x xs ih =>
    rw [List.map_cons, List.sum_cons, Nat.add_comm (cost x), ← Nat.add_assoc] at hs
    exact endsIn_andThen (h x (by simp) _ s hs) fun t => ih (fun y hy => h y (by simp [hy]))

/-- Every message in progress has room for `n` more payloads, every `pending` has room for `m` more frames, and
`t_now + RTO` is no overflow: the conditions under which no part of a `DRAIN` step raises (R421). -/
structure State.HasRoom (cfg : Config) (n m : Nat) (s : State) : Prop where
  config : s.cfg = cfg
  time : s.tNow.toNat + cfg.rto < 2 ^ 64
  snd : s.snd.length = cfg.peerCount
  asm : s.asm.length = cfg.peerCount
  payloads : ∀ p : Byte, p.toNat < cfg.peerCount → (s.reasm p).acc.length + 57 * n ≤ cfg.maxMsgLen
  frames : ∀ p : Byte, p.toNat < cfg.peerCount → (s.sender p).pending.length + m ≤ cfg.pendingDepth

section HasRoom
variable {cfg : Config} {n m : Nat} {p : Byte} {s t : State}

theorem State.HasRoom.mono (h : s.HasRoom cfg n m) {n' m' : Nat} (hn : n' ≤ n) (hm : m' ≤ m) :
    s.HasRoom cfg n' m' :=
  { h with
    payloads := fun p hp => le_trans (by omega) (h.payloads p hp)
    frames := fun p hp => le_trans (by omega) (h.frames p hp) }

/-- What writes neither the sender windows nor the reassemblers keeps the room. -/
theorem State.HasRoom.of_stores (h : s.HasRoom cfg n m) (hcfg : t.cfg = s.cfg) (hnow : t.tNow = s.tNow)
    (hsnd : t.snd = s.snd) (hasm : t.asm = s.asm) : t.HasRoom cfg n m where
  config := hcfg.trans h.config
  time := hnow ▸ h.time
  snd := hsnd ▸ h.snd
  asm := hasm ▸ h.asm
  payloads q hq := State.reasm_congr hasm q ▸ h.payloads q hq
  frames q hq := State.sender_congr hsnd q ▸ h.frames q hq

theorem State.HasRoom.drop (h : s.HasRoom cfg n m) (c : DropCode) (p k : Byte) : (s.drop c p k).HasRoom cfg n m :=
  h.of_stores rfl rfl rfl rfl

/-- A sender window written with `k` more frames pending takes the room of `k` frames. -/
theorem State.HasRoom.setSender {k : Nat} (h : s.HasRoom cfg n (m + k)) (hp : p.toNat < cfg.peerCount)
    {w : SenderWindow} (hw : w.pending.length ≤ (s.sender p).pending.length + k) :
    (s.setSender p w).HasRoom cfg n m where
  config := h.config
  time := h.time
  snd := List.length_set.trans h.snd
  asm := h.asm
  payloads := h.payloads
  frames q hq := by
    have hroom := h.frames q hq
    by_cases hqp : q = p
    · subst hqp
      rw [State.sender_setSender_self (h.snd ▸ hp)]
      omega
    · rw [State.sender_setSender_other hqp]
      omega

/-- R228, R229: one frame takes the room of one payload. -/
theorem reassemble_endsIn (f : Frame) (hp : p.toNat < cfg.peerCount) (h : s.HasRoom cfg (n + 1) m) :
    (reassemble p f s).EndsIn (·.HasRoom cfg n m) := by
  have hroom := h.payloads p hp
  obtain ⟨t, ht, hgrown⟩ := reassemble_of_room f (h.asm ▸ hp) (by rw [h.config]; omega)
  have hinner := inner_reassemble p f s
  have hkeeps := reassemble_keeps p f s
  simp only [ht, Run.state] at hinner hkeeps
  obtain ⟨hsnd, _, _, _, _, hother⟩ := hkeeps
  refine ⟨t, ht, hinner.cfg.trans h.config, hinner.tNow ▸ h.time, hsnd ▸ h.snd, hinner.asm.trans h.asm,
    fun q hq => ?_, fun q hq => State.sender_congr hsnd q ▸ h.frames q hq⟩
  by_cases hqp : q = p
  · subst hqp
    omega
  · rw [hother q hqp]
    exact le_trans (by omega) (h.payloads q hq)

/-- R315: a scan releases at most 8 frames. -/
theorem deliveryScan_endsIn (hp : p.toNat < cfg.peerCount) (h : s.HasRoom cfg (n + 8) m) :
    (deliveryScan p s).EndsIn (·.HasRoom cfg n m) := by
  have hlen : (s.receiver p).deliverable.length ≤ 8 := List.length_take_le' .. |>.trans_eq Vector.length_toList
  rw [deliveryScan_eq]
  refine endsIn_andThen (endsIn_forEach (P := fun n s => s.HasRoom cfg n m) (cost := fun _ => 1)
    (fun f _ _ _ => reassemble_endsIn f hp) (h.mono ?_ le_rfl)) fun t ht => endsIn_ok (ht.of_stores rfl rfl rfl rfl)
  simpa using hlen

theorem place_endsIn (f : Frame) (hp : p.toNat < cfg.peerCount) (h : s.HasRoom cfg (n + 8) m) :
    (place p f s).EndsIn (·.HasRoom cfg n m) := by
  have hack : State.HasRoom cfg (n + 8) m
      (if ackDue f.seq (s.receiver p).left then s.append [mkAck s.cfg p f.seq] else s) := by
    split
    · exact h.of_stores rfl rfl rfl rfl
    · exact h
  rcases place_cases p f s with ⟨_, e⟩ | ⟨i, _, ⟨_, e⟩ | ⟨_, e⟩⟩ <;> rw [e]
  · exact endsIn_ok ((hack.mono (by omega) le_rfl).drop _ _ _)
  · exact endsIn_ok ((hack.mono (by omega) le_rfl).drop _ _ _)
  · exact deliveryScan_endsIn hp (hack.of_stores rfl rfl rfl rfl)

theorem onAck_endsIn (a : Byte) (hp : p.toNat < cfg.peerCount) (h : s.HasRoom cfg n m) :
    (onAck p a s).EndsIn (·.HasRoom cfg n m) := by
  rcases onAck_cases p a s with ⟨_, e⟩ | ⟨i, _, e⟩ <;> rw [e]
  · exact endsIn_ok (h.drop _ _ _)
  · exact endsIn_ok (State.HasRoom.setSender (k := 0) h hp (by rw [SenderWindow.slide_eq]; exact Nat.le_refl _))

/-- R356: a frame that is dropped takes no room, an ack none either, a data frame that of a scan. -/
theorem routeFrame_endsIn (f : Frame) (h : s.HasRoom cfg (n + 8) m) :
    (routeFrame f s).EndsIn (·.HasRoom cfg n m) := by
  have hless : s.HasRoom cfg n m := h.mono (by omega) le_rfl
  cases hc : isCorrupted s.cfg.crcInit f
  case true => exact routeFrame_corrupted hc ▸ endsIn_ok (hless.drop _ _ _)
  cases ha : addressFault s.cfg f
  case some c => exact routeFrame_of_addressFault hc ha ▸ endsIn_ok (hless.drop _ _ _)
  obtain ⟨_, hpeer, _⟩ := addressFault_eq_none.mp ha
  rw [routeFrame_of_addressed hc ha]
  split
  · exact onAck_endsIn _ (h.config ▸ hpeer) hless
  · exact place_endsIn f (h.config ▸ hpeer) h

theorem enqueue_endsIn (f : Frame) (hp : p.toNat < cfg.peerCount) (h : s.HasRoom cfg n (m + 1)) :
    (enqueue p f s).EndsIn (·.HasRoom cfg n m) := by
  have hroom := h.frames p hp
  rcases enqueue_cases p f s with ⟨_, e⟩ | ⟨hfull, _⟩
  · rw [e]
    exact endsIn_ok (h.setSender hp List.length_append.le)
  · rw [h.config] at hfull
    omega

theorem length_segment (cfg : Config) (dst : Byte) (text : List Byte) :
    (segment cfg dst text).length = frameCount (text.length + 1) := by simp [segment, messageOf]

/-- R357: a command takes the room of its frames. -/
theorem processCmd_endsIn (c : Command) (h : s.HasRoom cfg n (m + frameCount (c.text.length + 1))) :
    (processCmd c s).EndsIn (·.HasRoom cfg n m) := by
  unfold processCmd
  split
  next => exact endsIn_ok ((h.mono le_rfl (by omega)).drop _ _ _)
  next hdst =>
    obtain ⟨hpeer, _⟩ := badDst_eq_false.mp (Bool.eq_false_iff.mpr hdst)
    refine endsIn_forEach (P := fun m s => s.HasRoom cfg n m) (cost := fun _ => 1)
      (fun f _ _ _ => enqueue_endsIn f (h.config ▸ hpeer)) ?_
    simpa [length_segment] using h

/-- R263: admission takes no room: it leaves the reassemblers, and what is pending it only takes from. -/
theorem admitPending_endsIn (hp : p.toNat < cfg.peerCount) (h : s.HasRoom cfg n m) :
    (admitPending p s).EndsIn (·.HasRoom cfg n m) := by
  obtain ⟨e, he, _⟩ := exists_addTime_eq_some (t := s.tNow) (d := s.cfg.rto) (by rw [h.config]; exact h.time)
  rw [admitPending_of_addTime he]
  refine endsIn_ok ((State.HasRoom.setSender (k := 0) h hp ?_).of_stores rfl rfl rfl rfl)
  rw [admitLoop_pending rfl, List.length_drop]
  omega

/-- R355: the first loop goes on where there is room for 8 payloads per frame. -/
theorem routeFrames_endsIn {fs : List Frame} (h : s.HasRoom cfg (8 * fs.length) m) :
    (forEach routeFrame fs s).EndsIn (·.HasRoom cfg 0 m) := by
  refine endsIn_forEach (P := fun n s => s.HasRoom cfg n m) (cost := fun _ => 8)
    (fun f _ _ _ => routeFrame_endsIn f) ?_
  simpa [Nat.mul_comm] using h

/-- R355: the second loop goes on where there is room for the frames of all commands. -/
theorem processCmds_endsIn {cs : List Command}
    (h : s.HasRoom cfg n (cs.map fun c => frameCount (c.text.length + 1)).sum) :
    (forEach processCmd cs s).EndsIn (·.HasRoom cfg n 0) := by
  refine endsIn_forEach (P := fun m s => s.HasRoom cfg n m) (fun c _ _ _ => processCmd_endsIn c) ?_
  rwa [Nat.zero_add]

/-- R355: the third loop goes on. -/
theorem admitPeers_endsIn (h : s.HasRoom cfg n m) :
    (forEach admitPending (peersOf cfg) s).EndsIn (·.HasRoom cfg n m) :=
  endsIn_forEach (P := fun _ s => s.HasRoom cfg n m) (cost := fun _ => 0) (n := 0)
    (fun _ hp _ _ => admitPending_endsIn (mem_peersOf.mp hp)) h

theorem drainLoops_endsIn {fs : List Frame} {cs : List Command}
    (h : s.HasRoom cfg (8 * fs.length) (cs.map fun c => frameCount (c.text.length + 1)).sum) :
    (drainLoops fs cs (peersOf cfg) s).EndsIn (·.HasRoom cfg 0 0) :=
  endsIn_andThen (routeFrames_endsIn h) fun _ ha =>
  endsIn_andThen (processCmds_endsIn ha) fun _ hb => admitPeers_endsIn hb

/-- The bounds of `DrainProcessesBothQueues`, for `k` queued frames. -/
theorem State.hasRoom_of_bounds {k : Nat} (hsized : s.Sized) (htime : s.tNow.toNat + s.cfg.rto < 2 ^ 64)
    (hframes : ∀ w ∈ s.snd, w.pending.length + m ≤ s.cfg.pendingDepth)
    (hpayloads : ∀ a ∈ s.asm, a.acc.length + 8 * 57 * k ≤ s.cfg.maxMsgLen) : s.HasRoom s.cfg (8 * k) m := by
  obtain ⟨hsnd, _, hasm⟩ := hsized
  refine ⟨rfl, htime, hsnd, hasm, fun p hp => ?_, fun p hp => hframes _ (State.sender_mem (hsnd ▸ hp))⟩
  have hacc := hpayloads _ (State.reasm_mem (hasm ▸ hp))
  omega

end HasRoom

/-! ## The whole step -/

/-- Settles O45: the step and the operations both end as the loops do; the loops write no queue, and go on where
there is room. -/
theorem drainProcessesBothQueues : Obligations.DrainProcessesBothQueues := by
  unfold Obligations.DrainProcessesBothQueues
  intro s hp
  have hops := execAll_drainOps s.rxq s.cmdq (s := s.withQueues [] []) hp
  have hinner := inner_drainLoops s.rxq s.cmdq (peersOf s.cfg) (s.withQueues [] [])
  have hqueues := queues_of_withQueues (fun q c t => drainLoops_withQueues s.rxq s.cmdq (peersOf s.cfg) t q c)
    (s.withQueues [] [])
  rw [exec, execDrain, inPhase_of_eq hp]
  rcases drain_cases s with ⟨u, hu, hdrain⟩ | ⟨c, u, hu, hdrain⟩ <;> rw [hdrain]
  · rw [hu] at hinner hqueues
    obtain ⟨hrxq, hcmdq⟩ := hqueues
    have hlive : u.Live := fun hfatal => by cases hfatal.symm.trans (hinner.phase.trans hp)
    exact ⟨u.goto .timeouts, u, rfl, hops.trans (congrArg Run.commit hu),
      fun _ => ⟨rfl, hrxq, hcmdq, hinner.tNow, hinner.deadline, hinner.txlog, hinner.fatalCode, hinner.dlog,
        hinner.trlog, hinner.batch⟩,
      fun hfatal => absurd hfatal hlive, fun _ _ _ _ => hlive⟩
  · refine ⟨raiseFatal c u, raiseFatal c (u.withQueues [] []), rfl, hops.trans (congrArg Run.commit hu),
      fun hlive => absurd rfl hlive, fun _ => ⟨rfl, rfl, rfl, rfl, rfl⟩, fun hsized htime hframes hpayloads => ?_⟩
    have hroom := State.hasRoom_of_bounds hsized htime hframes hpayloads
    obtain ⟨t, ht, _⟩ := drainLoops_endsIn (hroom.of_stores (t := s.withQueues [] []) rfl rfl rfl rfl)
    cases hu.symm.trans ht

end Sys2Proof.Machine
end

section
/-! PROOFS. RESET (R450): what each slot of a reset window holds, and from it every element of the state. -/

namespace Sys2Proof.Machine
open Sys2Proof

/-- The zero frame, byte for byte. -/
theorem toList_frameZero : Frame.zero.toList = List.replicate 64 0 :=
  Vector.toList_replicate

/-- R48 to R50: every slot of a reset sender window is empty. -/
theorem SenderWindow.reset_slot (i : Fin 8) :
    SenderWindow.reset.buffer[i] = Frame.zero ∧ SenderWindow.reset.acked[i] = false ∧
      SenderWindow.reset.expiry[i] = 0 :=
  ⟨Vector.getElem_replicate i.isLt, Vector.getElem_replicate i.isLt, Vector.getElem_replicate i.isLt⟩

/-- R54, R55: every slot of a reset receiver window is empty. -/
theorem ReceiverWindow.reset_slot (i : Fin 8) :
    ReceiverWindow.reset.buffer[i] = Frame.zero ∧ ReceiverWindow.reset.present[i] = false :=
  ⟨Vector.getElem_replicate i.isLt, Vector.getElem_replicate i.isLt⟩

/-- Settles O49: RESET ends in `afterReset`, whose windows and reassemblers are copies of the reset ones. -/
theorem resetRestoresEveryElement : Obligations.ResetRestoresEveryElement := by
  unfold Obligations.ResetRestoresEveryElement
  intro s
  refine ⟨s.afterReset, rfl, rfl, rfl, rfl, rfl, rfl, List.length_replicate, List.length_replicate,
    List.length_replicate, fun w hw => ?sender, fun w hw => ?receiver, fun a ha => ?reassembler,
    rfl, rfl, rfl, rfl, rfl, rfl⟩
  case sender =>
    obtain rfl := List.eq_of_mem_replicate hw
    refine ⟨rfl, rfl, rfl, fun i => ?_⟩
    obtain ⟨hbuffer, hacked, hexpiry⟩ := SenderWindow.reset_slot i
    exact ⟨hbuffer ▸ toList_frameZero, hacked, hexpiry⟩
  case receiver =>
    obtain rfl := List.eq_of_mem_replicate hw
    refine ⟨rfl, fun i => ?_⟩
    obtain ⟨hbuffer, hpresent⟩ := ReceiverWindow.reset_slot i
    exact ⟨hbuffer ▸ toList_frameZero, hpresent⟩
  case reassembler =>
    obtain rfl := List.eq_of_mem_replicate ha
    exact ⟨rfl, rfl⟩

end Sys2Proof.Machine
end

section
/-! PROOFS. The encoding (R128, R140): each operand form read back from its bytes and inverted, and from these the
two directions of the round trip; and the frame decoder by the bits of the flag byte. -/

namespace Sys2Proof
open Sys2Proof.Machine

/-! ## Operand forms -/

section operands
variable {c : Byte} {bs rest : List Byte} {i : Instr}

theorem operandFrame_toList (c : Byte) (k : Frame → Instr) (f : Frame) (rest : List Byte) :
    operandFrame c k (f.toList ++ rest) = .instr (k f) rest := by rw [operandFrame, take?_toList_append]

theorem operandText_textBytes (c : Byte) (k : Byte → List Byte → Instr) (d : Byte) (text rest : List Byte) :
    operandText c k (d :: (textBytes text ++ rest)) = .instr (k d text) rest := by
  rw [operandText, takeText_textBytes]

theorem operandCommand_textBytes (c : Byte) (k : Command → Instr) (d : Command) (rest : List Byte) :
    operandCommand c k (d.src :: d.dst :: (textBytes d.text ++ rest)) = .instr (k d) rest :=
  operandText_textBytes c (fun b text => k ⟨d.src, b, text⟩) d.dst d.text rest

theorem operand1_eq_instr {k : Byte → Instr} (h : operand1 c k bs = .instr i rest) :
    ∃ p, i = k p ∧ bs = p :: rest := by
  cases bs <;> cases h
  exact ⟨_, rfl, rfl⟩

theorem operand2_eq_instr {k : Byte → Byte → Instr} (h : operand2 c k bs = .instr i rest) :
    ∃ p q, i = k p q ∧ bs = p :: q :: rest := by
  unfold operand2 at h
  split at h <;> cases h
  exact ⟨_, _, rfl, rfl⟩

theorem operandFrame_eq_instr {k : Frame → Instr} (h : operandFrame c k bs = .instr i rest) :
    ∃ f : Frame, i = k f ∧ bs = f.toList ++ rest := by
  unfold operandFrame at h
  split at h <;> cases h
  next hf => exact ⟨_, rfl, take?_eq_some hf⟩

theorem operandPeerFrame_eq_instr {k : Byte → Frame → Instr} (h : operandPeerFrame c k bs = .instr i rest) :
    ∃ (p : Byte) (f : Frame), i = k p f ∧ bs = p :: (f.toList ++ rest) := by
  cases bs with
  | nil => cases h
  | cons p bs =>
    obtain ⟨f, hi, hbs⟩ := operandFrame_eq_instr h
    exact ⟨p, f, hi, hbs ▸ rfl⟩

theorem operandText_eq_instr {k : Byte → List Byte → Instr} (h : operandText c k bs = .instr i rest) :
    ∃ d text, i = k d text ∧ bs = d :: (textBytes text ++ rest) := by
  cases bs with
  | nil => cases h
  | cons d bs =>
    simp only [operandText] at h
    split at h <;> cases h
    next ht => exact ⟨d, _, rfl, takeText_eq_some ht ▸ rfl⟩

theorem operandCommand_eq_instr {k : Command → Instr} (h : operandCommand c k bs = .instr i rest) :
    ∃ d : Command, i = k d ∧ bs = d.src :: d.dst :: (textBytes d.text ++ rest) := by
  cases bs with
  | nil => cases h
  | cons a bs =>
    obtain ⟨d, text, hi, hbs⟩ := operandText_eq_instr h
    exact ⟨⟨a, d, text⟩, hi, hbs ▸ rfl⟩

end operands

/-! ## The frame decoder -/

theorem Frame.isData_iff {init : BitVec 16} {r : Role} {f : Frame} :
    f.isData init r = true ↔ isCorrupted init f = false ∧ f.kind = false ∧ f.role = r := by
  simp [Frame.isData, and_assoc]

theorem Frame.isAck_iff {init : BitVec 16} {f : Frame} :
    f.isAck init = true ↔ isCorrupted init f = false ∧ f.kind = true := by simp [Frame.isAck]

/-- R128: the frame kind of each data role. -/
def dataInstr : Role → Frame → Instr
  | .middle => .dataMiddle
  | .head => .dataHead
  | .tail => .dataTail
  | .unsegmented => .dataUnseg

theorem decodeFrame_of_isData {init : BitVec 16} {r : Role} {f : Frame} (rest : List Byte)
    (h : f.isData init r = true) : decodeFrame init f rest = .instr (dataInstr r f) rest := by
  obtain ⟨hvalid, hkind, hrole⟩ := Frame.isData_iff.mp h
  cases r <;> simp [decodeFrame, hvalid, hkind, hrole, dataInstr]

theorem decodeFrame_of_isAck {init : BitVec 16} {f : Frame} (rest : List Byte) (h : f.isAck init = true) :
    decodeFrame init f rest = .instr (.ack f) rest := by
  obtain ⟨hvalid, hkind⟩ := Frame.isAck_iff.mp h
  simp [decodeFrame, hvalid, hkind]

/-- R128: what a frame decodes to is the frame itself as an ack or as data of its role, and nothing of the rest is
taken. -/
theorem decodeFrame_eq_instr {init : BitVec 16} {f : Frame} {rest more : List Byte} {i : Instr}
    (h : decodeFrame init f rest = .instr i more) :
    more = rest ∧ (i = .ack f ∧ f.isAck init = true ∨ ∃ r, i = dataInstr r f ∧ f.isData init r = true) := by
  cases hvalid : isCorrupted init f
  case true => simp [decodeFrame, hvalid] at h
  cases hkind : f.kind
  case true =>
    have hack : f.isAck init = true := Frame.isAck_iff.mpr ⟨hvalid, hkind⟩
    rw [decodeFrame_of_isAck rest hack] at h
    cases h
    exact ⟨rfl, .inl ⟨rfl, hack⟩⟩
  have hdata : f.isData init f.role = true := Frame.isData_iff.mpr ⟨hvalid, hkind, rfl⟩
  rw [decodeFrame_of_isData rest hdata] at h
  cases h
  exact ⟨rfl, .inr ⟨f.role, rfl, hdata⟩⟩

theorem decode_frame_toList (init : BitVec 16) (f : Frame) (rest : List Byte) :
    decode init .frame (f.toList ++ rest) = decodeFrame init f rest := by
  rw [decode, take?_toList_append]

/-! ## The round trips -/

/-- Settles O2: a frame kind's frame decodes by its flag, and each operand form is read back from its bytes. -/
theorem encodeThenDecode : Obligations.EncodeThenDecode := by
  unfold Obligations.EncodeThenDecode
  intro init i rest hwf
  cases i with
  | dataMiddle f | dataHead f | dataTail f | dataUnseg f =>
    exact (decode_frame_toList init f rest).trans (decodeFrame_of_isData rest hwf)
  | ack f => exact (decode_frame_toList init f rest).trans (decodeFrame_of_isAck rest hwf)
  | rxPush f | routeFrame f | computeFcs f | isCorrupted f => exact operandFrame_toList _ _ f rest
  | enqueue p f | place p f | reassemble p f => exact operandFrame_toList _ _ f rest
  | cmdPush d | processCmd d => exact operandCommand_textBytes _ _ d rest
  | segment d text => exact operandText_textBytes _ _ d text rest
  | sample | arbitrate | wait | drain | transmit | reset => rfl
  | admitFrames p | slideTx p | checkTimeouts p | deliveryScan p => rfl
  | onAck p q | genAck p q | slotIndex p q => rfl

/-- What an operation code and its operands decode to is encoded by them, and by nothing else. -/
theorem decodeOp_eq_instr (init : BitVec 16) {bs rest : List Byte} {i : Instr} (h : decodeOp bs = .instr i rest) :
    i.wellFormed init = true ∧ i.format = .op ∧ bs = encode i ++ rest := by
  cases bs with
  | nil => cases h
  | cons c bs =>
    have hcode {n : Nat} (hn : c.toNat = n) : c = BitVec.ofNat 8 n := by simp [← hn]
    unfold decodeOp at h
    dsimp only at h
    split at h
    -- the codes in their order, taken together by the form of their operands
    case h_1 hn | h_7 hn | h_19 hn | h_20 hn =>
      obtain ⟨f, rfl, rfl⟩ := operandFrame_eq_instr h
      exact ⟨rfl, rfl, hcode hn ▸ rfl⟩
    case h_2 hn | h_8 hn =>
      obtain ⟨d, rfl, rfl⟩ := operandCommand_eq_instr h
      exact ⟨rfl, rfl, hcode hn ▸ rfl⟩
    case h_9 hn =>
      obtain ⟨d, text, rfl, rfl⟩ := operandText_eq_instr h
      exact ⟨rfl, rfl, hcode hn ▸ rfl⟩
    case h_10 hn | h_15 hn | h_18 hn =>
      obtain ⟨p, f, rfl, rfl⟩ := operandPeerFrame_eq_instr h
      exact ⟨rfl, rfl, hcode hn ▸ rfl⟩
    case h_11 hn | h_13 hn | h_14 hn | h_17 hn =>
      obtain ⟨p, rfl, rfl⟩ := operand1_eq_instr h
      exact ⟨rfl, rfl, hcode hn ▸ rfl⟩
    case h_12 hn | h_16 hn | h_23 hn =>
      obtain ⟨p, q, rfl, rfl⟩ := operand2_eq_instr h
      exact ⟨rfl, rfl, hcode hn ▸ rfl⟩
    case h_3 hn | h_4 hn | h_5 hn | h_6 hn | h_21 hn | h_22 hn =>
      cases h
      exact ⟨rfl, rfl, hcode hn ▸ rfl⟩
    case h_24 => cases h

/-- The same of either format. -/
theorem decode_eq_instr {init : BitVec 16} {fmt : Format} {bs rest : List Byte} {i : Instr}
    (h : decode init fmt bs = .instr i rest) :
    i.wellFormed init = true ∧ i.format = fmt ∧ bs = encode i ++ rest := by
  cases fmt with
  | op => exact decodeOp_eq_instr init h
  | frame =>
    unfold decode at h
    dsimp only at h
    split at h
    case h_2 => cases h
    next f tail hf =>
      obtain ⟨rfl, ⟨rfl, hack⟩ | ⟨r, rfl, hdata⟩⟩ := decodeFrame_eq_instr h
      · exact ⟨hack, rfl, take?_eq_some hf⟩
      · cases r <;> exact ⟨hdata, rfl, take?_eq_some hf⟩

/-- Settles O3: every decoder inverted. -/
theorem decodeThenEncode : Obligations.DecodeThenEncode := by
  unfold Obligations.DecodeThenEncode
  exact fun _ _ _ _ _ => decode_eq_instr

/-! ## The flag byte -/

/-- R124: `flag[2:0]` alone gives the kind and the role of a data frame. -/
theorem kind_role_of_flag_and {f : Frame} {r : Role} (h : f[4] &&& 7#8 = r.flag) :
    f.kind = false ∧ f.role = r := by
  have hkind : f.kind = (f[4] &&& 7#8).getLsbD 2 := by
    rw [BitVec.getLsbD_and, show (7#8).getLsbD 2 = true from rfl, Bool.and_true]; rfl
  have hrole : f.role = Role.ofBits ((f[4] &&& 7#8).extractLsb' 0 2) := by
    rw [BitVec.extractLsb'_and, show (7#8).extractLsb' 0 2 = BitVec.allOnes 2 from rfl, BitVec.and_allOnes]; rfl
  rw [hkind, hrole, h]
  cases r <;> exact ⟨rfl, rfl⟩

/-- R123: `flag[2]` alone makes an ack frame. -/
theorem kind_of_flag_and {f : Frame} (h : f[4] &&& 4#8 = 4) : f.kind = true := by
  have hkind : f.kind = (f[4] &&& 4#8).getLsbD 2 := by
    rw [BitVec.getLsbD_and, show (4#8).getLsbD 2 = true from rfl, Bool.and_true]; rfl
  rw [hkind, h]
  rfl

theorem isCorrupted_eq_false_iff {init : BitVec 16} {f : Frame} :
    isCorrupted init f = false ↔ crc16 init f.toList = 0 := by simp [isCorrupted]

/-- Settles O4: the CRC test first, then the kind and the role that `flag[2:0]` gives. -/
theorem frameKindByFlagBits : Obligations.FrameKindByFlagBits := by
  unfold Obligations.FrameKindByFlagBits
  intro init f rest
  refine ⟨fun hcrc => ?_, fun hcrc => ?_⟩
  · have hbad : isCorrupted init f = true := bne_iff_ne.mpr hcrc
    rw [decodeFrame, if_pos hbad]
  · have hvalid := isCorrupted_eq_false_iff.mpr hcrc
    have hdata (r : Role) (h : f[4] &&& 7#8 = r.flag) : decodeFrame init f rest = .instr (dataInstr r f) rest :=
      decodeFrame_of_isData rest (Frame.isData_iff.mpr ⟨hvalid, kind_role_of_flag_and h⟩)
    exact ⟨hdata .middle, hdata .head, hdata .tail, hdata .unsegmented, fun h =>
      decodeFrame_of_isAck rest (Frame.isAck_iff.mpr ⟨hvalid, kind_of_flag_and h⟩)⟩

/-- Settles O1: fixed byte strings, by evaluation; FCS-1 and FCS-2 are the stamped frames of their fields. -/
theorem specWordsDecode : Obligations.SpecWordsDecode := by
  unfold Obligations.SpecWordsDecode
  exact ⟨rfl, rfl, rfl, rfl, rfl, rfl,
    ⟨stampFCS 0xFFFF (marshal 0 1 0 0 3 [0x68, 0x69]), by decide +kernel, by decide +kernel⟩,
    ⟨stampFCS 0xFFFF (marshal 1 0 0 0 4 []), by decide +kernel, by decide +kernel⟩⟩

end Sys2Proof
end

section
/-! PROOFS. Single-bit errors (R186): a difference that enters the CRC register in one byte is linear in what
follows, and no shift of the register takes a difference to 0. -/

namespace Sys2Proof.Machine
open Sys2Proof

/-! ## A difference in the register never dies out -/

/-- R180: the polynomial has the bit that a shift leaves empty, so a shift loses no bit. -/
theorem crcBit_eq_zero {q : BitVec 16} (h : crcBit q = 0) : q = 0 := by
  unfold crcBit at h
  split at h
  next htop =>
    have hlow : ((q <<< 1) ^^^ 0x1021#16).getLsbD 0 = true := by simp
    rw [h] at hlow
    cases hlow
  next htop =>
    ext i hi
    by_cases h15 : i = 15
    · subst h15; simpa [BitVec.getLsbD_eq_getElem hi] using htop
    · have hbit := congrArg (·.getLsbD (i + 1)) h
      have hlt : i + 1 < 16 := by omega
      simpa [hlt] using hbit

theorem crcByte_eq_zero {q : BitVec 16} {b : Byte} (h : crcByte q b = 0) :
    q ^^^ b.zeroExtend 16 <<< 8 = 0 := by
  unfold crcByte at h
  iterate 8 replace h := crcBit_eq_zero h
  exact h

theorem crcByte_zero_ne_zero {q : BitVec 16} (hq : q ≠ 0) : crcByte q 0 ≠ 0 := by
  intro h
  exact hq (by simpa using crcByte_eq_zero h)

theorem crcByte_of_ne_zero {e : Byte} (he : e ≠ 0) : crcByte 0 e ≠ 0 := by
  intro h
  have hshift : e.zeroExtend 16 <<< 8 = 0 := by simpa using crcByte_eq_zero h
  apply he
  ext i hi
  have hbit := congrArg (·.getLsbD (i + 8)) hshift
  have hlt : i + 8 < 16 := by omega
  simpa [hlt, hi] using hbit

/-- R186: registers that differ still differ after the same bytes. -/
theorem crc16_xor_ne {r q : BitVec 16} (hq : q ≠ 0) (bs : List Byte) : crc16 (r ^^^ q) bs ≠ crc16 r bs := by
  induction bs generalizing r q with
  | nil => exact fun h => hq (by simpa using congrArg (r ^^^ ·) h)
  | cons b bs ih =>
    have hstep : crcByte (r ^^^ q) b = crcByte r b ^^^ crcByte q 0 := by
      rw [← crcByte_xor, show b ^^^ 0 = b from BitVec.xor_zero]
    simp only [crc16, List.foldl_cons, hstep]
    exact ih (crcByte_zero_ne_zero hq)

/-- R186: strings that differ in one byte have different CRCs. -/
theorem crc16_byte_xor_ne (init : BitVec 16) (a bs : List Byte) (b : Byte) {e : Byte} (he : e ≠ 0) :
    crc16 init (a ++ (b ^^^ e) :: bs) ≠ crc16 init (a ++ b :: bs) := by
  have hstep (r : BitVec 16) : crcByte r (b ^^^ e) = crcByte r b ^^^ crcByte 0 e := by
    rw [← crcByte_xor, show r ^^^ 0 = r from BitVec.xor_zero]
  rw [crc16_append, crc16_append]
  simp only [crc16, List.foldl_cons, hstep]
  exact crc16_xor_ne (crcByte_of_ne_zero he) bs

theorem one_shiftLeft_ne_zero (j : Fin 8) : 1#8 <<< j.val ≠ 0 := by
  revert j
  decide

/-- Settles O6: the flipped frame's bytes are the stamped frame's, whose CRC is 0, with one byte changed. -/
theorem singleBitErrorsAreDetected : Obligations.SingleBitErrorsAreDetected := by
  unfold Obligations.SingleBitErrorsAreDetected
  intro init f k j g
  have hk : k.val < g.toList.length := by simp
  have hvalid : crc16 init g.toList = 0 := isCorrupted_eq_false_iff.mp (isCorrupted_stampFCS init f)
  have hbytes : g.toList = g.toList.take k.val ++ g[k] :: g.toList.drop (k.val + 1) := by
    have hdrop : g.toList.drop k.val = g[k] :: g.toList.drop (k.val + 1) := by
      simpa using List.drop_eq_getElem_cons hk
    rw [← hdrop, List.take_append_drop]
  have hflip : (g.set k.val (g[k] ^^^ (1#8 <<< j.val))).toList =
      g.toList.take k.val ++ (g[k] ^^^ (1#8 <<< j.val)) :: g.toList.drop (k.val + 1) := by
    rw [Vector.toList_set, List.set_eq_take_append_cons_drop, if_pos hk]
  rw [isCorrupted, bne_iff_ne, hflip, ← hvalid]
  conv_rhs => rw [hbytes]
  exact crc16_byte_xor_ne init _ _ _ (one_shiftLeft_ne_zero j)

end Sys2Proof.Machine
end

section
/-! PROOFS. The operations that only answer (R160, R182, R184, R221) and the refused push (R364): what each gate
lets through; and the frames that SEGMENT answers, one by one. -/

namespace Sys2Proof.Machine
open Sys2Proof

/-- Settles O10: COMPUTE_FCS and IS_CORRUPTED pass the gate of `FATAL` and record the value. -/
theorem codecOperationsAnswer : Obligations.CodecOperationsAnswer := by
  unfold Obligations.CodecOperationsAnswer
  intro f s hlive
  refine ⟨unlessFatal_of_live hlive _, (unlessFatal_of_live hlive _).trans ?_⟩
  have htest : isCorrupted s.cfg.crcInit f = decide (crc16 s.cfg.crcInit f.toList ≠ 0) := by
    rw [isCorrupted, Bool.eq_iff_iff, bne_iff_ne, decide_eq_true_iff]
  rw [htest]
  rfl

/-- Settles O11: SLOT_INDEX passes the gate of `FATAL` and records the index, which is R160's. -/
theorem slotIndexAnswers : Obligations.SlotIndexAnswers := by
  unfold Obligations.SlotIndexAnswers
  exact fun n base s hlive => ⟨slotIndex n base, slotIndex_toNat_eq n base, unlessFatal_of_live hlive _⟩

/-- Settles O41: past the gate of `FATAL` the test of the text comes first. -/
theorem cmdPushOfLongTextIsRefused : Obligations.CmdPushOfLongTextIsRefused := by
  unfold Obligations.CmdPushOfLongTextIsRefused
  intro c s hlive hlong
  rw [exec, execCmdPush, unlessFatal_of_live hlive, if_pos hlong]

/-! ## The frames of a segmented text -/

/-- R123, R124: a data flag has kind 0 and reserved bits 0. -/
theorem kind_rsv_of_flag {f : Frame} {r : Role} (h : f.flag = r.flag) : f.kind = false ∧ f.rsv = 0 := by
  rw [Frame.kind, Frame.rsv, h]
  cases r <;> exact ⟨rfl, rfl⟩

/-- Settles O13: each frame is `messageFrame` of its index, and the count is the number of chunks. -/
theorem segmentAnswersFrames : Obligations.SegmentAnswersFrames := by
  unfold Obligations.SegmentAnswersFrames
  intro dst text s hlive
  obtain ⟨i, hk, hlo, hhi⟩ := exists_frameCount_messageOf text
  refine ⟨segment s.cfg dst text, unlessFatal_of_live hlive _, ?_⟩
  rw [segment_eq_map_messageFrame s.cfg dst text hk]
  simp only [List.length_map, List.length_range, List.getElem_map, List.getElem_range]
  refine ⟨by omega, by omega, by omega, fun j hj => ?_⟩
  have hflag : (messageFrame s.cfg dst (messageOf text) (i + 1) j).flag = (chunkRole (i + 1) j).flag := marshal_flag ..
  obtain ⟨hkind, hrsv⟩ := kind_rsv_of_flag hflag
  have hrole : chunkRole (i + 1) j = if i + 1 = 1 then .unsegmented else if j = 0 then .head
      else if j = i + 1 - 1 then .tail else .middle := by
    simp only [chunkRole, Nat.add_sub_cancel, Nat.add_right_cancel_iff]
  have hchunk : chunk (messageOf text) j = ((text ++ [0]).drop (57 * j)).take 57 := by
    rw [chunk, messageOf, Nat.mul_comm]
  exact ⟨marshal_src .., marshal_dst .., messageFrame_seq, marshal_ack .., marshal_fcs .., hkind, hrsv,
    messageFrame_role.trans hrole, hchunk ▸ messageFrame_payload⟩

end Sys2Proof.Machine
end

section
/-! PROOFS. More of the windows: SLIDE_TX (R267, R268), acks past `firstFree` (R273), ENQUEUE (R261, R262), the
time sums that overflow (R367), GEN_ACK (R313) and one scan of UNSEGMENTED frames (R318). -/

namespace Sys2Proof.Machine
open Sys2Proof

/-! ## Sender window -/

/-- ENQUEUE where it is enabled, for a peer that has a window. -/
theorem exec_enqueue {p : Byte} {f : Frame} {s : State} (hd : s.phase = .drain) (hp : p.toNat < s.cfg.peerCount) :
    exec (.enqueue p f) s = (enqueue p f s).commit := by
  rw [exec, execEnqueue, inPhase_of_eq hd, withPeer_of_lt hp]

/-- Settles O18: by the test of the depth. -/
theorem enqueueAppendsOrOverflows : Obligations.EnqueueAppendsOrOverflows := by
  unfold Obligations.EnqueueAppendsOrOverflows
  intro p f s hd hp
  rw [exec_enqueue hd hp, enqueue]
  refine ⟨fun hroom => ?_, fun hfull => ?_⟩
  · rw [if_neg (Nat.not_le.mpr hroom), commit_ok]
    rfl
  · rw [if_pos hfull.ge]
    exact ⟨raiseFatal .pendingOverflow s, rfl, rfl, rfl, rfl, rfl, rfl⟩

/-- Settles O22: the model's slide is the slide by its ack run. -/
theorem slideTxSlidesByAckRun : Obligations.SlideTxSlidesByAckRun := by
  unfold Obligations.SlideTxSlidesByAckRun
  intro p s hd hp
  let w := s.sender p
  refine ⟨w.ackRun, w.slideBy w.ackRun, ?_, w.isAckRun_ackRun, w.slidBy_slideBy _⟩
  rw [exec, execSlideTx, inPhase_of_eq hd, withPeer_of_lt hp, slideTx, SenderWindow.slide_eq, commit_ok]
  rfl

/-- R273: an ack recorded past the slots in use leaves the base of the window. -/
theorem SenderWindow.record_base {w : SenderWindow} {i : Fin 8} (hi : w.firstFree ≤ i.val)
    (hbase : w.firstFree = 0 ∨ w.acked[0] = false) : (w.record i).firstFree = 0 ∨ (w.record i).acked[0] = false := by
  refine (Nat.eq_zero_or_pos w.firstFree).imp_right fun hpos => ?_
  rw [SenderWindow.getElem_record_acked, if_neg (by omega)]
  exact hbase.resolve_left hpos.ne'

/-- R273, R51: a slot past the slots in use is not armed, acked or not. -/
theorem SenderWindow.record_armed {w : SenderWindow} {i : Fin 8} (hi : w.firstFree ≤ i.val) (j : Fin 8) :
    (w.record i).armed j = w.armed j := by
  rw [Bool.eq_iff_iff, SenderWindow.armed_iff, SenderWindow.armed_iff]
  refine and_congr_right fun hj => ?_
  rw [SenderWindow.record_firstFree] at hj
  rw [Fin.getElem_fin, SenderWindow.getElem_record_acked, if_neg (by omega), Fin.getElem_fin]

/-- Settles O24: the recorded window has nothing to slide by. -/
theorem ackBeyondFirstFreeIsInvisible : Obligations.AckBeyondFirstFreeIsInvisible := by
  unfold Obligations.AckBeyondFirstFreeIsInvisible
  intro p a i s hd hp hidx hi hbase
  rw [← slotIndex_toNat_eq] at hidx
  refine ⟨?_, SenderWindow.record_armed hi⟩
  rw [exec_onAck hd hp, onAck_inside hidx, SenderWindow.slide_of_base (SenderWindow.record_base hi hbase), commit_ok]
  rfl

/-! ## Time sums that overflow -/

/-- R367: with a frame pending, a free slot and no time for its expiry, ADMIT raises. -/
theorem admitPending_overflow {p : Byte} {s : State} (htime : addTime s.tNow s.cfg.rto = none)
    (hfree : (s.sender p).firstFree < 8) (hpending : (s.sender p).pending ≠ []) :
    ∃ w fs, admitPending p s = .fatal .timeOverflow ((s.setSender p w).append fs) := by
  obtain ⟨f, rest, hcons⟩ := List.exists_cons_of_ne_nil hpending
  have hover : (admitLoop s.cfg.crcInit (addTime s.tNow s.cfg.rto) (s.sender p).pending (s.sender p)).overflow =
      true := by simp [hcons, htime, admitLoop, hfree]
  rcases admit_cases p s with ⟨hgoes, _⟩ | ⟨_, e⟩
  · exact absurd hover (Bool.eq_false_iff.mp hgoes)
  · exact ⟨_, _, e⟩

/-- R367: with a slot that fires and no time for its new expiry, CHECK_TIMEOUTS raises. -/
theorem checkTimeouts_overflow {p : Byte} {s : State} (htime : addTime s.tNow s.cfg.rto = none) {i : Fin 8}
    (hfires : (s.sender p).fires s.tNow i = true) :
    ∃ f, checkTimeouts p s = .fatal .timeOverflow (s.append [f]) := by
  have hmem : (s.sender p).buffer[i] ∈ (s.sender p).expired s.tNow :=
    List.mem_map_of_mem (f := fun i => (s.sender p).buffer[i]) (SenderWindow.mem_firing.mpr hfires)
  rcases checkTimeouts_cases p s with ⟨_, hsome, _⟩ | ⟨_, hnil, _⟩ | ⟨f, _, _, _, e⟩
  · cases htime.symm.trans hsome
  · exact absurd hnil (List.ne_nil_of_mem hmem)
  · exact ⟨f, e⟩

/-- R352: no slot armed is no deadline. -/
theorem State.deadlines_eq_nil {s : State} (hnone : ∀ w ∈ s.snd, ∀ i : Fin 8, w.armed i = false) :
    s.deadlines = [] :=
  List.eq_nil_iff_forall_not_mem.mpr fun d hd => by
    obtain ⟨w, hw, i, harmed, _⟩ := State.mem_deadlines.mp hd
    exact Bool.false_ne_true ((hnone w hw i).symm.trans harmed)

/-- R367, R352: with no slot armed and no time for the next poll, ARBITRATE raises. -/
theorem arbitrate_overflow {s : State} (htime : addTime s.tNow s.cfg.pollInterval = none)
    (hnone : ∀ w ∈ s.snd, ∀ i : Fin 8, w.armed i = false) : arbitrate s = .fatal .timeOverflow s := by
  rw [arbitrate, State.nextDeadline, earliest_eq_none.mpr (State.deadlines_eq_nil hnone), htime]

/-- Settles O27: each of the three raises, and none has written a log before it. -/
theorem timeOverflowIsFatal : Obligations.TimeOverflowIsFatal := by
  unfold Obligations.TimeOverflowIsFatal
  intro p s hp
  refine ⟨fun hd htime hfree hpending => ?_, fun hd htime ⟨i, harmed, hdue⟩ => ?_, fun hd htime hnone => ?_⟩
  · obtain ⟨w, fs, e⟩ := admitPending_overflow (addTime_eq_none.mpr htime) hfree hpending
    rw [exec_admitFrames hd hp, e]
    exact ⟨_, commit_fatal _ _, rfl, rfl, rfl, rfl, rfl⟩
  · have hfires : (s.sender p).fires s.tNow i = true := by
      rw [SenderWindow.fires_eq_armed, decide_eq_true_iff]
      exact ⟨harmed, hdue⟩
    obtain ⟨f, e⟩ := checkTimeouts_overflow (addTime_eq_none.mpr htime) hfires
    rw [exec_checkTimeouts hd hp, e]
    exact ⟨_, commit_fatal _ _, rfl, rfl, rfl, rfl, rfl⟩
  · rw [exec, execArbitrate, inPhase_of_eq hd, arbitrate_overflow (addTime_eq_none.mpr htime) hnone]
    exact ⟨_, commit_fatal _ _, rfl, rfl, rfl, rfl, rfl⟩

/-! ## Receiver window -/

/-- Settles O32: the frame is `mkAck`. -/
theorem genAckBuildsAckFrame : Obligations.GenAckBuildsAckFrame := by
  unfold Obligations.GenAckBuildsAckFrame
  intro p n s hd
  refine ⟨mkAck s.cfg p n, inPhase_of_eq hd _, ?_⟩
  exact ⟨(stampFCS_src ..).trans (marshal_src ..), (stampFCS_dst ..).trans (marshal_dst ..),
    (stampFCS_seq ..).trans (marshal_seq ..), (stampFCS_ack ..).trans (marshal_ack ..),
    (stampFCS_flag ..).trans (marshal_flag ..),
    (stampFCS_payload ..).trans (marshal_payload _ _ _ _ _ (Nat.zero_le _)), isCorrupted_stampFCS ..⟩

/-- R226: UNSEGMENTED frames are delivered one by one, whatever was in progress. -/
theorem reassembleAll_unsegmented {p : Byte} {fs : List Frame} (hfs : ∀ f ∈ fs, f.role = .unsegmented) (s : State) :
    ∃ u, forEach (reassemble p) fs s = .ok u ∧
      u.dlog = s.dlog ++ fs.map (fun f => ⟨p, tailPart f.payload⟩) := by
  induction fs generalizing s with
  | nil => exact ⟨s, rfl, (List.append_nil _).symm⟩
  | cons f fs ih =>
    rw [forEach_cons, reassemble_unsegmented (hfs f (by simp)), andThen_ok]
    obtain ⟨u, hu, hlog⟩ := ih (fun g hg => hfs g (by simp [hg])) _
    exact ⟨u, hu, hlog.trans (List.append_assoc ..)⟩

/-- R315, R316: a scan that goes on leaves the window slid by its run. -/
theorem Scanned.receiver {p : Byte} {s t : State} (h : Scanned p s t) (hp : p.toNat < s.rcv.length) :
    t.receiver p = (s.receiver p).slideBy (s.receiver p).run :=
  (State.receiver_congr (s := s.setReceiver p _) h.rcv p).trans (State.receiver_setReceiver_self hp _)

/-- Settles O31: the run's frames are delivered one by one, and its slots hold the numbers from `left` on. -/
theorem deliveredRunIsConsecutive : Obligations.DeliveredRunIsConsecutive := by
  unfold Obligations.DeliveredRunIsConsecutive
  intro p s hd hp ⟨_, hrcv, _⟩ hslots
  have hrun := (s.receiver p).run_le_eight
  have hlen : (s.receiver p).deliverable.length = (s.receiver p).run := by simpa [ReceiverWindow.deliverable] using hrun
  have hslot (j : Nat) (hj : j < (s.receiver p).deliverable.length) :
      (s.receiver p).deliverable[j].seq = (s.receiver p).left + BitVec.ofNat 8 j ∧
      (s.receiver p).deliverable[j].role = .unsegmented := by
    have hpresent := ReceiverWindow.present_of_lt_run (hlen ▸ hj)
    simpa [ReceiverWindow.deliverable] using hslots ⟨j, by omega⟩ hpresent
  have hrole : ∀ f ∈ (s.receiver p).deliverable, f.role = .unsegmented := fun f hf => by
    obtain ⟨j, hj, rfl⟩ := List.mem_iff_getElem.mp hf
    exact (hslot j hj).2
  obtain ⟨u, hu, hlog⟩ := reassembleAll_unsegmented hrole s
  have hscan : deliveryScan p s = .ok (u.setReceiver p ((s.receiver p).slideBy (s.receiver p).run)) := by
    rw [deliveryScan_eq, hu, andThen_ok]
  have hread := (deliveryScan_scanned hscan).receiver (hrcv ▸ hp)
  have hexec := exec_deliveryScan hd hp
  rw [hscan, commit_ok] at hexec
  refine ⟨(s.receiver p).run, _, (s.receiver p).isRun_run, hexec, hlen, fun j hj => (hslot j hj).1, hlog, ?_, ?_⟩
  · rw [hread]
    rfl
  · rw [hread]
    exact (s.receiver p).slideBy_run_base

end Sys2Proof.Machine
end

section
/-! PROOFS. What reaches the windows through the router (R356): the frame kinds run as ROUTE_FRAME, a data frame ahead
of a gap is held and acked, an ack of the oldest frame slides by one; and what a command puts in `pending` (R357). -/

namespace Sys2Proof.Machine
open Sys2Proof

/-! ## The frame kinds and ROUTE_FRAME -/

theorem exec_dataInstr {r : Role} {f : Frame} {s : State} :
    exec (dataInstr r f) s = inPhase .drain s (acceptData f s).commit := by cases r <;> rfl

/-- Settles O34: a frame that decodes passed the CRC test, and decodes by the bit that ROUTE_FRAME tests next. -/
theorem frameKindsRunAsRouted : Obligations.FrameKindsRunAsRouted := by
  unfold Obligations.FrameKindsRunAsRouted
  intro f i rest more s h
  rw [exec, execRouteFrame]
  obtain ⟨_, ⟨rfl, hack⟩ | ⟨r, rfl, hdata⟩⟩ := decodeFrame_eq_instr h
  · obtain ⟨hvalid, hkind⟩ := Frame.isAck_iff.mp hack
    simp only [exec, execAck, routeFrame, hvalid, hkind, if_true, if_false, Bool.false_eq_true]
  · obtain ⟨hvalid, hkind, _⟩ := Frame.isData_iff.mp hdata
    simp only [exec_dataInstr, routeFrame, hvalid, hkind, if_false, Bool.false_eq_true]

section addressed
variable {f : Frame} {s : State} (haddr : addressFault s.cfg f = none)
include haddr

theorem acceptData_of_addressed : acceptData f s = place f.src f s := by rw [acceptData, haddr]

theorem acceptAck_of_addressed : acceptAck f s = onAck f.src f.ack s := by rw [acceptAck, haddr]

/-- R356: the data kinds, PLACE and ROUTE_FRAME do the same with a data frame addressed to the entity. -/
theorem exec_of_addressed_data {i : Instr} (hd : s.phase = .drain)
    (hi : i = .dataMiddle f ∨ i = .dataHead f ∨ i = .dataTail f ∨ i = .dataUnseg f ∨ i = .place f.src f ∨
      i = .routeFrame f ∧ isCorrupted s.cfg.crcInit f = false ∧ f.kind = false) :
    exec i s = (place f.src f s).commit := by
  have hdata (r : Role) : exec (dataInstr r f) s = (place f.src f s).commit := by
    rw [exec_dataInstr, inPhase_of_eq hd, acceptData_of_addressed haddr]
  obtain ⟨_, hpeer, _⟩ := addressFault_eq_none.mp haddr
  rcases hi with rfl | rfl | rfl | rfl | rfl | ⟨rfl, hvalid, hkind⟩
  · exact hdata .middle
  · exact hdata .head
  · exact hdata .tail
  · exact hdata .unsegmented
  · exact exec_place hd hpeer
  · rw [exec_routeFrame hd, routeFrame_of_addressed hvalid haddr, hkind, if_neg Bool.false_ne_true]

/-- R356: ACK and ROUTE_FRAME do the same with an ack frame addressed to the entity. -/
theorem exec_of_addressed_ack {i : Instr} (hd : s.phase = .drain)
    (hi : i = .ack f ∨ i = .routeFrame f ∧ isCorrupted s.cfg.crcInit f = false ∧ f.kind = true) :
    exec i s = (onAck f.src f.ack s).commit := by
  rcases hi with rfl | ⟨rfl, hvalid, hkind⟩
  · rw [exec, execAck, inPhase_of_eq hd, acceptAck_of_addressed haddr]
  · rw [exec_routeFrame hd, routeFrame_of_addressed hvalid haddr, if_pos hkind]

end addressed

/-! ## A data frame ahead of a gap -/

/-- R315: with slot 0 empty there is no run to scan. -/
theorem deliveryScan_of_gap {p : Byte} {s : State} (h : (s.receiver p).present[0] = false) :
    deliveryScan p s = .ok s := by
  have hrun := ReceiverWindow.run_eq_zero_iff _ |>.mpr h
  simp [deliveryScan, ReceiverWindow.deliverable, hrun]

/-- Settles O35: the frame is stored past slot 0, which stays empty, so the scan finds no run. -/
theorem dataFramesAreHeldAndAcked : Obligations.DataFramesAreHeldAndAcked := by
  unfold Obligations.DataFramesAreHeldAndAcked
  intro f i k s hd hdst hpeer hself hi hidx hpos hempty hgap hlen
  rw [← slotIndex_toNat_eq] at hidx
  have hstored := State.receiver_setReceiver_self (s := s.append [mkAck s.cfg f.src f.seq]) hlen
    ((s.receiver f.src).store k f)
  have hscan := deliveryScan_of_gap (p := f.src)
    (s := (s.append [mkAck s.cfg f.src f.seq]).setReceiver f.src ((s.receiver f.src).store k f)) (by
      rw [hstored, ReceiverWindow.getElem_store_present, if_neg hpos.ne', hgap])
  rw [exec_of_addressed_data (addressFault_eq_none.mpr ⟨hdst, hpeer, hself⟩) hd hi, place_new hidx hempty, hscan,
    commit_ok]
  rfl

/-! ## An ack of the oldest frame -/

/-- R267: with slot 0 acked and in use, and slot 1 un-acked, the run is one slot. -/
theorem SenderWindow.ackRun_eq_one {w : SenderWindow} (hfree : 0 < w.firstFree) (h0 : w.acked[0] = true)
    (h1 : w.acked[1] = false) : w.ackRun = 1 := by
  apply Nat.le_antisymm
  · by_contra hlt
    exact absurd (acked_of_lt_ackRun (Nat.not_le.mp hlt)) (Bool.eq_false_iff.mp h1)
  · by_contra hlt
    have hrun : w.ackRun = 0 := by omega
    have hbase := w.not_acked_ackRun (by omega) (by omega)
    simp [hrun, h0] at hbase

/-- Settles O36: the ack is recorded in slot 0, and the run is then that slot alone. -/
theorem ackFramesReachTheSender : Obligations.AckFramesReachTheSender := by
  unfold Obligations.AckFramesReachTheSender
  intro f i s hd hdst hpeer hself hi hack hfree h1
  have hidx : (slotIndex f.ack (s.sender f.src).left).toNat = (0 : Fin 8).val := by rw [hack, slotIndex_self]; rfl
  have hrun : ((s.sender f.src).record 0).ackRun = 1 :=
    SenderWindow.ackRun_eq_one hfree (SenderWindow.getElem_record_acked ..)
      ((SenderWindow.getElem_record_acked ..).trans h1)
  refine ⟨((s.sender f.src).record 0).slideBy 1, ?_, SenderWindow.slidBy_slideBy ((s.sender f.src).record 0) 1⟩
  rw [exec_of_addressed_ack (addressFault_eq_none.mpr ⟨hdst, hpeer, hself⟩) hd hi, onAck_inside hidx,
    SenderWindow.slide_eq, hrun, commit_ok]
  rfl

/-! ## The frames of a command -/

section enqueueAll
variable {p : Byte}

/-- R261: ENQUEUE where there is room. -/
theorem enqueue_of_room {f : Frame} {s : State} (hroom : (s.sender p).pending.length < s.cfg.pendingDepth) :
    enqueue p f s = .ok (s.setSender p { s.sender p with pending := (s.sender p).pending ++ [f] }) := by
  rw [enqueue, if_neg (Nat.not_le.mpr hroom)]

theorem State.setSender_setSender (s : State) (v w : SenderWindow) :
    (s.setSender p v).setSender p w = s.setSender p w := by simp [State.setSender]

/-- R357, R261: frames that fit are appended in order. -/
theorem enqueueAll_of_room {fs : List Frame} {s : State} (hp : p.toNat < s.snd.length)
    (hroom : (s.sender p).pending.length + fs.length ≤ s.cfg.pendingDepth) :
    forEach (enqueue p) fs s =
      .ok (s.setSender p { s.sender p with pending := (s.sender p).pending ++ fs }) := by
  induction fs generalizing s with
  | nil =>
    rw [List.append_nil]
    exact congrArg Run.ok (s.setSender_sender p).symm
  | cons f fs ih =>
    rw [List.length_cons] at hroom
    rw [forEach_cons, enqueue_of_room (by omega), andThen_ok, ih (by simpa using hp)]
    · simp [State.sender_setSender_self hp, State.setSender_setSender]
    · rw [State.sender_setSender_self hp, State.setSender_cfg, List.length_append, List.length_singleton]
      omega

/-- R357, R262: frames that do not fit raise, with only `S[p]` written. -/
theorem enqueueAll_of_full {fs : List Frame} {s : State} (hp : p.toNat < s.snd.length) (hfs : fs ≠ [])
    (hfull : s.cfg.pendingDepth < (s.sender p).pending.length + fs.length) :
    ∃ w, forEach (enqueue p) fs s = .fatal .pendingOverflow (s.setSender p w) := by
  induction fs generalizing s with
  | nil => exact absurd rfl hfs
  | cons f fs ih =>
    rw [List.length_cons] at hfull
    rw [forEach_cons]
    rcases enqueue_cases p f s with ⟨hroom, e⟩ | ⟨_, e⟩ <;> rw [e]
    · have hread := State.sender_setSender_self hp
        { s.sender p with pending := (s.sender p).pending ++ [f] }
      obtain ⟨w, hw⟩ := ih (s := s.setSender p { s.sender p with pending := (s.sender p).pending ++ [f] })
        (by simpa using hp) (by rintro rfl; simp at hfull; omega)
        (by rw [hread, State.setSender_cfg, List.length_append, List.length_singleton]; omega)
      exact ⟨w, by rw [andThen_ok, hw, State.setSender_setSender]⟩
    · exact ⟨s.sender p, by rw [andThen_fatal, State.setSender_sender]⟩

end enqueueAll

/-- R221: every text has a frame. -/
theorem segment_ne_nil (cfg : Config) (dst : Byte) (text : List Byte) : segment cfg dst text ≠ [] := by
  obtain ⟨i, hk, _⟩ := exists_frameCount_messageOf text
  simp [segment_eq_map_messageFrame cfg dst text hk]

/-- Settles O38: past the test of the destination the frames are enqueued in order. -/
theorem processCmdEnqueuesSegments : Obligations.ProcessCmdEnqueuesSegments := by
  unfold Obligations.ProcessCmdEnqueuesSegments
  intro c s hd hpeer hself hlen w fs
  have hgood : ¬ badDst s.cfg c.dst = true := Bool.eq_false_iff.mp (badDst_eq_false.mpr ⟨hpeer, hself⟩)
  rw [exec_processCmd hd, processCmd, if_neg hgood]
  refine ⟨fun hroom => ?_, fun hfull => ?_⟩
  · rw [enqueueAll_of_room hlen hroom]
    rfl
  · obtain ⟨v, hv⟩ := enqueueAll_of_full hlen (segment_ne_nil s.cfg c.dst c.text) hfull
    rw [hv]
    exact ⟨_, commit_fatal _ _, rfl, rfl, rfl, rfl, rfl⟩

end Sys2Proof.Machine
end

section
/-! PROOFS. The order of the batch after a `DRAIN` step (R365): each of its three loops appends what its rounds do. -/

namespace Sys2Proof.Machine
open Sys2Proof

theorem inner_of_eq_ok {s t : State} {r : Run} (hr : Inner s r.state) (h : r = .ok t) : Inner s t := by
  rwa [h] at hr

/-- R365 (1): the frames routed append the acks due for them. -/
theorem routeFrames_batch {fs : List Frame} {s t : State} (hd : s.phase = .drain)
    (ht : forEach routeFrame fs s = .ok t) : t.batch = s.batch ++ acksDue fs s := by
  induction fs generalizing s with
  | nil => cases ht; exact (List.append_nil _).symm
  | cons f fs ih =>
    rw [forEach_cons, andThen_eq_ok] at ht
    obtain ⟨u, hu, ht⟩ := ht
    have hinner := inner_of_eq_ok (inner_routeFrame f s) hu
    have hexec : exec (.routeFrame f) s = .next u := by rw [exec_routeFrame hd, hu, commit_ok]
    rw [ih (hinner.phase.trans hd) ht, routeFrame_batch hu, List.append_assoc]
    simp only [acksDue, hexec]
    split <;> rfl

/-- R365 (2): ADMIT for each of some distinct peers appends what it takes from the window as it stood before. -/
theorem admitPeers_batch {ps : List Byte} (hps : ps.Nodup) {s t : State}
    (ht : forEach admitPending ps s = .ok t) :
    t.batch = s.batch ++ ps.flatMap fun p => (s.sender p).admitted s.cfg.crcInit := by
  induction ps generalizing s with
  | nil => cases ht; exact (List.append_nil _).symm
  | cons p ps ih =>
    rw [forEach_cons, andThen_eq_ok] at ht
    obtain ⟨u, hu, ht⟩ := ht
    obtain ⟨hp, hps⟩ := List.nodup_cons.mp hps
    obtain ⟨hbatch, hother⟩ := admitPending_batch hu
    have hinner := inner_of_eq_ok (inner_admit p s) hu
    have hrest : (ps.flatMap fun q => (u.sender q).admitted u.cfg.crcInit) =
        ps.flatMap fun q => (s.sender q).admitted s.cfg.crcInit := by
      refine List.flatMap_congr fun q hq => ?_
      rw [hother q (ne_of_mem_of_not_mem hq hp), hinner.cfg]
    rw [ih hps ht, hbatch, hrest, List.flatMap_cons, List.append_assoc]

theorem nodup_peersOf {cfg : Config} (h : cfg.peerCount ≤ 256) : (peersOf cfg).Nodup := by
  refine List.nodup_range.map_on fun i hi j hj hij => ?_
  have hval := congrArg BitVec.toNat hij
  rw [List.mem_range] at hi hj
  rwa [BitVec.toNat_ofNat, BitVec.toNat_ofNat, Nat.mod_eq_of_lt (hi.trans_le h), Nat.mod_eq_of_lt (hj.trans_le h)]
    at hval

/-- R355: ROUTE_FRAME and PROCESS_CMD executed in order end as the first two loops of `DRAIN`. -/
theorem execAll_routeThenProcess (fs : List Frame) (cs : List Command) {s : State} (hd : s.phase = .drain) :
    execAll (fs.map .routeFrame ++ cs.map .processCmd) s =
      ((forEach routeFrame fs s).andThen (forEach processCmd cs)).commit := by
  refine execAll_append_commit (List.forall_mem_map.mpr fun _ _ => nofun) ?_ fun a ha => ?_
  · exact execAll_map (op := .routeFrame) (fun _ _ => nofun) (fun _ _ _ h _ => exec_routeFrame h)
      (fun f _ => inner_routeFrame f) hd rfl
  · have hsa := inner_of_forEach_eq_ok (fun f _ => inner_routeFrame f) ha
    exact execAll_map (op := .processCmd) (fun _ _ => nofun) (fun _ _ _ h _ => exec_processCmd h)
      (fun c _ => inner_processCmd c) (hsa.phase.trans hd) rfl

/-- Settles O46: the frames append their acks, the commands nothing, and the peers what is admitted. -/
theorem drainBatchOrder : Obligations.DrainBatchOrder := by
  unfold Obligations.DrainBatchOrder
  intro s t ⟨_, hpeers, _⟩ hd ht hlive
  rw [exec, execDrain, inPhase_of_eq hd] at ht
  rcases commit_cases ht with hok | ⟨c, u, _, rfl⟩
  case inr => exact absurd rfl hlive
  obtain ⟨a, b, c, ha, hb, hc, rfl⟩ := (drain_parts s).1 t hok
  have hsa := inner_of_forEach_eq_ok (fun f _ => inner_routeFrame f) ha
  have hsb := hsa.trans (inner_of_forEach_eq_ok (fun d _ => inner_processCmd d) hb)
  refine ⟨b, ?_, ?_⟩
  · have hops := execAll_routeThenProcess s.rxq s.cmdq (s := s.withQueues [] []) hd
    rw [ha, andThen_ok, hb, commit_ok] at hops
    exact hops
  · have hcfg : b.cfg = s.cfg := hsb.cfg
    have hacks : a.batch = s.batch ++ acksDue s.rxq (s.withQueues [] []) :=
      routeFrames_batch (s := s.withQueues [] []) hd ha
    rw [State.goto_batch, admitPeers_batch (nodup_peersOf hpeers) hc, processCmds_batch hb, hacks, hcfg]
    rfl

end Sys2Proof.Machine
end

section
/-! PROOFS. What every operation does to the phase, the logs, the configuration and the inputs (R350, R421, R60, R62),
and the step around it (R350, R134, R136). -/

namespace Sys2Proof.Machine
open Sys2Proof

/-! ## The step around an operation -/

/-- Settles O50: by the head of the agenda and the decoder's answer. -/
theorem stepRunsDecodedInstruction : Obligations.StepRunsDecodedInstruction := by
  unfold Obligations.StepRunsDecodedInstruction
  intro s fmt bytes more rest i ha hdec
  simp only [step, ha, hdec]

/-- Settles O51: by the head of the agenda, and the worker's step by the phase. -/
theorem stepMovesAgents : Obligations.StepMovesAgents := by
  unfold Obligations.StepMovesAgents
  intro s rest
  refine ⟨fun ha => ?_, fun ha => ?_, fun t ha => ?_, fun b ha => ?_⟩
  · obtain ⟨hsample, harbitrate, hwait, hdrain, _, htransmit, hfatal⟩ := workerStep_eq_exec (s := s)
    rw [step_of_agenda_nil ha]
    exact ⟨hsample, harbitrate, hwait, hdrain, htransmit, hfatal⟩
  · rw [step, ha]
  · rw [step, ha]
    refine ⟨fun hle => ?_, fun hlt => ?_⟩
    · exact if_neg (by simpa [BitVec.lt_def] using hle)
    · exact if_pos hlt
  · rw [step, ha]
    rfl

/-- Settles O58: every window after reset is a reset window. -/
theorem invariantAtReset : Obligations.InvariantAtReset := by
  unfold Obligations.InvariantAtReset
  intro cfg hvalid
  refine State.inv_iff_sound.mpr ⟨hvalid, ?_, iff_of_true rfl nofun, fun _ => ?_⟩
  · exact ⟨List.length_replicate, List.length_replicate, List.length_replicate⟩
  · exact State.reset_sound (s := State.resetFor cfg) hvalid

/-! ## The fatal conditions -/

/-- R421: an operation that enters `FATAL` raised one of its codes. -/
theorem exec_fatalCode {i : Instr} {s t : State} (hlive : s.Live) (h : exec i s = .next t) (ht : t.phase = .fatal) :
    t.fatalCode ∈ fatalCodesOf i := by
  rcases exec_next h with rfl | ⟨_, rfl⟩ | ⟨_, _, hrun⟩
  · exact absurd ht hlive
  · cases ht
  · rcases commit_cases hrun with hok | ⟨c, u, hfatal, rfl⟩
    · have hsteady := steady_opRun i s
      rw [hok] at hsteady
      exact absurd ht (hsteady.live hlive)
    · exact opRun_raises i s c u hfatal

/-- Settles O53: by the codes each operation can raise. -/
theorem fatalCauses : Obligations.FatalCauses := by
  unfold Obligations.FatalCauses
  intro i s t hlive h ht
  have hcode := exec_fatalCode hlive h ht
  cases i with
  | rxPush f => exact .inl ⟨List.mem_singleton.mp hcode, f, rfl⟩
  | cmdPush c => exact .inr (.inl ⟨List.mem_singleton.mp hcode, c, rfl⟩)
  | processCmd _ | enqueue _ _ => exact .inr (.inr (.inl ⟨List.mem_singleton.mp hcode, by simp⟩))
  | dataMiddle _ | dataHead _ | dataTail _ | dataUnseg _ | routeFrame _ | place _ _ | deliveryScan _
  | reassemble _ _ => exact .inr (.inr (.inr (.inl ⟨List.mem_singleton.mp hcode, by simp⟩)))
  | arbitrate | admitFrames _ | checkTimeouts _ =>
    exact .inr (.inr (.inr (.inr ⟨List.mem_singleton.mp hcode, by simp⟩)))
  | drain =>
    simp only [fatalCodesOf, List.mem_cons, List.not_mem_nil, or_false] at hcode
    rcases hcode with hcode | hcode | hcode <;> simp [hcode]
  | ack _ | onAck _ _ | slideTx _ | genAck _ _ | sample | wait | transmit | reset | segment _ _ | computeFcs _
  | isCorrupted _ | slotIndex _ _ => cases hcode

/-! ## The logs, the configuration and the inputs -/

/-- `t` has the configuration, the agenda and the inputs of `s`. -/
structure SameInputs (s t : State) : Prop extends SameSetup s t where
  nowIn : t.nowIn = s.nowIn
  txReady : t.txReady = s.txReady

theorem SameInputs.trans {a b c : State} (h : SameInputs a b) (k : SameInputs b c) : SameInputs a c :=
  ⟨h.toSameSetup.trans k.toSameSetup, k.nowIn.trans h.nowIn, k.txReady.trans h.txReady⟩

/-- The logs of `t` extend those of `s`, `txlog` by nothing (R60). -/
structure LogsExtend (s t : State) : Prop where
  txlog : t.txlog = s.txlog
  dlog : s.dlog <+: t.dlog
  trlog : s.trlog <+: t.trlog

theorem LogsExtend.of_eq {s t : State} (htx : t.txlog = s.txlog) (hd : t.dlog = s.dlog) (htr : t.trlog = s.trlog) :
    LogsExtend s t := ⟨htx, hd ▸ List.prefix_refl _, htr ▸ List.prefix_refl _⟩

theorem LogsExtend.trans {a b c : State} (h : LogsExtend a b) (k : LogsExtend b c) : LogsExtend a c :=
  ⟨k.txlog.trans h.txlog, h.dlog.trans k.dlog, h.trlog.trans k.trlog⟩

/-- What every operation but TRANSMIT and RESET keeps of what is outside the block. -/
structure Outer (s t : State) : Prop extends SameInputs s t, LogsExtend s t

theorem Outer.trans {a b c : State} (h : Outer a b) (k : Outer b c) : Outer a c :=
  ⟨h.toSameInputs.trans k.toSameInputs, h.toLogsExtend.trans k.toLogsExtend⟩

theorem Inner.outer {s t : State} (h : Inner s t) : Outer s t :=
  ⟨⟨h.sameSetup, h.nowIn, h.txReady⟩, ⟨h.txlog, h.dlog, h.trlog⟩⟩

theorem outer_goto (s : State) (ph : Phase) : Outer s (s.goto ph) := ⟨⟨⟨rfl, rfl⟩, rfl, rfl⟩, .of_eq rfl rfl rfl⟩

theorem outer_drain (s : State) : Outer s (drain s).state :=
  andThen_rel (R := Outer) Outer.trans (inner_drainFrames _ s).outer fun a =>
  andThen_rel (R := Outer) Outer.trans (inner_drainCmds _ a).outer fun b =>
  andThen_rel (R := Outer) Outer.trans (inner_forEach (fun p _ => inner_admit p) b).outer fun c => outer_goto c _

/-- What an operation inside a `DRAIN` or `TIMEOUTS` step keeps. -/
theorem inner_opRun {i : Instr} (hi : isInternal i = true) (s : State) : Inner s (opRun i s).state := by
  cases i with
  | dataMiddle f | dataHead f | dataTail f | dataUnseg f => exact inner_acceptData f s
  | ack f => exact inner_acceptAck f s
  | routeFrame f => exact inner_routeFrame f s
  | processCmd c => exact inner_processCmd c s
  | enqueue p f => exact inner_enqueue p f s
  | admitFrames p => exact inner_admit p s
  | onAck p a => exact inner_onAck p a s
  | slideTx p => exact inner_slideTx p s
  | checkTimeouts p => exact inner_checkTimeouts p s
  | place p f => exact inner_place p f s
  | genAck p n => exact inner_append s _
  | deliveryScan p => exact inner_deliveryScan p s
  | reassemble p f => exact inner_reassemble p f s
  | _ => cases hi

theorem outer_opRun {i : Instr} (htx : i ≠ .transmit) (hreset : i ≠ .reset) (s : State) :
    Outer s (opRun i s).state := by
  cases hint : isInternal i
  case true => exact (inner_opRun hint s).outer
  cases i with
  | transmit => exact absurd rfl htx
  | reset => exact absurd rfl hreset
  | drain => exact outer_drain s
  | rxPush f => simp only [opRun, rxPush]; split <;> exact ⟨⟨⟨rfl, rfl⟩, rfl, rfl⟩, .of_eq rfl rfl rfl⟩
  | cmdPush c => simp only [opRun, cmdPush]; split <;> exact ⟨⟨⟨rfl, rfl⟩, rfl, rfl⟩, .of_eq rfl rfl rfl⟩
  | arbitrate => simp only [opRun, arbitrate]; split <;> exact ⟨⟨⟨rfl, rfl⟩, rfl, rfl⟩, .of_eq rfl rfl rfl⟩
  | wait => simp only [opRun]; split <;> exact ⟨⟨⟨rfl, rfl⟩, rfl, rfl⟩, .of_eq rfl rfl rfl⟩
  | sample | segment _ _ | computeFcs _ | isCorrupted _ | slotIndex _ _ =>
    exact ⟨⟨⟨rfl, rfl⟩, rfl, rfl⟩, .of_eq rfl rfl rfl⟩
  | _ => cases hint

/-- R420: a raise keeps what the part of a step before it kept. -/
theorem outer_commit {s t : State} {r : Run} (hr : Outer s r.state) (h : r.commit = .next t) : Outer s t := by
  rcases commit_cases h with rfl | ⟨c, u, rfl, rfl⟩
  · exact hr
  · exact ⟨⟨⟨hr.cfg, hr.agenda⟩, hr.nowIn, hr.txReady⟩, ⟨hr.txlog, hr.dlog, hr.trlog⟩⟩

/-- Every operation but TRANSMIT and RESET keeps `Outer`. -/
theorem exec_outer {i : Instr} {s t : State} (htx : i ≠ .transmit) (hreset : i ≠ .reset)
    (h : exec i s = .next t) : Outer s t := by
  rcases exec_next h with rfl | ⟨hi, _⟩ | ⟨_, _, hrun⟩
  · exact (Inner.refl t).outer
  · exact absurd hi hreset
  · exact outer_commit (outer_opRun htx hreset s) hrun

/-- R361: TRANSMIT moves the loop on, or sends the head of the batch, or does nothing. -/
theorem exec_transmit_next {s t : State} (h : exec .transmit s = .next t) : t = s ∨ s.phase = .transmit ∧
    (t = s.goto .sample ∨ ∃ f rest, t = { s with batch := rest, txlog := s.txlog ++ [f] }) := by
  rcases inPhase_next h with ⟨hp, hk⟩ | ⟨_, rfl⟩
  case inr => exact .inl rfl
  cases hk
  cases hb : s.batch with
  | nil => exact .inr ⟨hp, .inl (transmit_of_empty hb)⟩
  | cons f rest =>
    rw [transmit_of_cons hb]
    split
    · exact .inr ⟨hp, .inr ⟨f, rest, rfl⟩⟩
    · exact .inl rfl

/-- Settles O54: all but TRANSMIT keep `Outer`, and TRANSMIT writes no other log than `txlog`. -/
theorem logsOnlyGrow : Obligations.LogsOnlyGrow := by
  unfold Obligations.LogsOnlyGrow
  intro i s t hreset h
  by_cases htx : i = .transmit
  · subst htx
    rcases exec_transmit_next h with rfl | ⟨_, rfl | ⟨f, rest, rfl⟩⟩
    · exact ⟨List.prefix_refl _, List.prefix_refl _, List.prefix_refl _, fun _ => rfl⟩
    · exact ⟨List.prefix_refl _, List.prefix_refl _, List.prefix_refl _, fun _ => rfl⟩
    · exact ⟨List.prefix_append _ _, List.prefix_refl _, List.prefix_refl _, fun hne => absurd rfl hne⟩
  · obtain ⟨_, hlogs⟩ := exec_outer htx hreset h
    exact ⟨hlogs.txlog ▸ List.prefix_refl _, hlogs.dlog, hlogs.trlog, fun _ => hlogs.txlog⟩

theorem exec_sameInputs {i : Instr} {s t : State} (h : exec i s = .next t) : SameInputs s t := by
  by_cases htx : i = .transmit
  · subst htx
    rcases exec_transmit_next h with rfl | ⟨_, rfl | ⟨_, _, rfl⟩⟩ <;> exact ⟨⟨rfl, rfl⟩, rfl, rfl⟩
  by_cases hreset : i = .reset
  · subst hreset
    cases h
    exact ⟨⟨rfl, rfl⟩, rfl, rfl⟩
  exact (exec_outer htx hreset h).toSameInputs

/-- Settles O55: all but TRANSMIT and RESET keep `Outer`, and these two write no input either. -/
theorem noOperationWritesConfigOrInputs : Obligations.NoOperationWritesConfigOrInputs := by
  unfold Obligations.NoOperationWritesConfigOrInputs
  intro i s t h
  obtain ⟨⟨hcfg, hagenda⟩, hnow, hready⟩ := exec_sameInputs h
  exact ⟨hcfg, hnow, hready, hagenda⟩

/-! ## The phase -/

/-- R350: the moves of the loop. -/
def loopMoves : List (Phase × Phase) :=
  [(.sample, .arbitrate), (.arbitrate, .wait), (.wait, .drain), (.drain, .timeouts), (.timeouts, .transmit),
    (.transmit, .sample)]

/-- A step in phase `ph` that is no reset: it stays, or moves on round the loop, or raises a condition of R421. -/
inductive PhaseMove (ph : Phase) (t : State) : Prop
  | stay (h : t.phase = ph)
  | next (h : (ph, t.phase) ∈ loopMoves)
  | raise (hlive : ph ≠ .fatal) (hfatal : t.phase = .fatal) (hcode : t.fatalCode ≠ .none)
      (hsync : t.fatalCode ≠ .syncFailure)

/-- R421: the codes that are raised at all; code 0 and SYNC_FAILURE are not. -/
def raisedCodes : List FatalCode := [.rxqOverflow, .cmdqOverflow, .pendingOverflow, .reasmOverflow, .timeOverflow]

theorem fatalCodesOf_subset (i : Instr) : fatalCodesOf i ⊆ raisedCodes := by
  cases i <;> simp [fatalCodesOf, raisedCodes]

theorem opRun_raises_code (i : Instr) (s : State) : (opRun i s).Raises raisedCodes :=
  (opRun_raises i s).mono (fatalCodesOf_subset i)

section
variable {s t : State} {i : Instr}

/-- An atomic step of a live state that raises the codes of R421 only. -/
theorem phaseMove_commit {r : Run} (hlive : s.Live) (hraises : r.Raises raisedCodes)
    (hok : ∀ u, r = .ok u → PhaseMove s.phase u) (h : r.commit = .next t) : PhaseMove s.phase t := by
  rcases commit_cases h with hr | ⟨c, u, hr, rfl⟩
  · exact hok t hr
  · have hc := hraises c u hr
    refine .raise hlive rfl ?_ ?_
    · exact ne_of_mem_of_not_mem hc (by decide)
    · exact ne_of_mem_of_not_mem hc (by decide)

/-- An operation that leaves the phase where it goes on. -/
theorem exec_phaseMove_of_stay (hreset : i ≠ .reset) (hok : ∀ u, opRun i s = .ok u → u.phase = s.phase)
    (h : exec i s = .next t) : PhaseMove s.phase t := by
  rcases exec_next h with rfl | ⟨hi, _⟩ | ⟨hlive, _, hrun⟩
  · exact .stay rfl
  · exact absurd hi hreset
  · exact phaseMove_commit hlive (opRun_raises_code i s) (fun u hu => .stay (hok u hu)) hrun

/-- A step of the loop, enabled in the phase `ph` alone: where it goes on it holds or moves on. -/
theorem inPhase_phaseMove {r : Run} {ph next : Phase} (hmove : (ph, next) ∈ loopMoves) (hph : ph ≠ .fatal)
    (hraises : r.Raises raisedCodes) (hok : ∀ u, r = .ok u → u.phase = s.phase ∨ u.phase = next)
    (h : inPhase ph s r.commit = .next t) : PhaseMove s.phase t := by
  rcases inPhase_next h with ⟨rfl, hrun⟩ | ⟨_, rfl⟩
  · refine phaseMove_commit hph hraises (fun u hu => ?_) hrun
    rcases hok u hu with hstay | hnext
    · exact .stay hstay
    · exact .next (hnext ▸ hmove)
  · exact .stay rfl

theorem exec_phaseMove (hreset : i ≠ .reset) (h : exec i s = .next t) : PhaseMove s.phase t := by
  cases hint : isInternal i
  case true =>
    exact exec_phaseMove_of_stay hreset (fun u hu => (inner_of_eq_ok (inner_opRun hint s) hu).phase) h
  cases i with
  | reset => exact absurd rfl hreset
  | sample =>
    refine inPhase_phaseMove (ph := .sample) (next := .arbitrate) (by decide) (by decide) (opRun_raises_code .sample s)
      (fun u hu => ?_) h
    cases hu
    exact .inr rfl
  | arbitrate =>
    refine inPhase_phaseMove (ph := .arbitrate) (next := .wait) (by decide) (by decide) (opRun_raises_code .arbitrate s)
      (fun u hu => ?_) h
    simp only [opRun, arbitrate] at hu
    split at hu <;> cases hu
    exact .inr rfl
  | wait =>
    refine inPhase_phaseMove (ph := .wait) (next := .drain) (by decide) (by decide) (opRun_raises_code .wait s)
      (fun u hu => ?_) h
    cases hu
    split
    · exact .inr rfl
    · exact .inl rfl
  | drain =>
    exact inPhase_phaseMove (ph := .drain) (next := .timeouts) (by decide) (by decide) (opRun_raises_code .drain s)
      (fun u hu => .inr (drain_bounds hu).1) h
  | transmit =>
    rcases exec_transmit_next h with rfl | ⟨hp, rfl | ⟨_, _, rfl⟩⟩
    · exact .stay rfl
    · refine .next ?_
      rw [hp, State.goto_phase]
      decide
    · exact .stay rfl
  | rxPush f =>
    refine exec_phaseMove_of_stay hreset (fun u hu => ?_) h
    simp only [opRun, rxPush] at hu
    split at hu <;> cases hu
    rfl
  | cmdPush c =>
    refine exec_phaseMove_of_stay hreset (fun u hu => ?_) h
    simp only [opRun, cmdPush] at hu
    split at hu <;> cases hu
    rfl
  | segment _ _ | computeFcs _ | isCorrupted _ | slotIndex _ _ =>
    exact exec_phaseMove_of_stay hreset (fun u hu => by cases hu; rfl) h
  | _ => cases hint

theorem timeoutsStep_phaseMove (h : timeoutsStep s = .next t) : PhaseMove s.phase t :=
  inPhase_phaseMove (next := .transmit) (by decide) (by decide) ((timeouts_raises s).mono (by simp [raisedCodes]))
    (fun _ hu => .inr (timeouts_bounds hu).1) h

theorem workerStep_phaseMove (h : workerStep s = .next t) : PhaseMove s.phase t := by
  obtain ⟨hsample, harbitrate, hwait, hdrain, htimeouts, htransmit, hfatal⟩ := workerStep_eq_exec (s := s)
  cases hp : s.phase <;> rw [← hp]
  case sample => exact exec_phaseMove (i := .sample) nofun (hsample hp ▸ h)
  case arbitrate => exact exec_phaseMove (i := .arbitrate) nofun (harbitrate hp ▸ h)
  case wait => exact exec_phaseMove (i := .wait) nofun (hwait hp ▸ h)
  case drain => exact exec_phaseMove (i := .drain) nofun (hdrain hp ▸ h)
  case timeouts => exact timeoutsStep_phaseMove (htimeouts hp ▸ h)
  case transmit => exact exec_phaseMove (i := .transmit) nofun (htransmit hp ▸ h)
  case fatal => rw [hfatal hp] at h; cases h; exact .stay rfl

theorem rejectFetch_phase {r : Reject} (h : rejectFetch r s = .next t) : t.phase = s.phase := by
  unfold rejectFetch at h
  split at h
  · rcases inPhase_next h with ⟨_, hk⟩ | ⟨_, rfl⟩
    · cases hk; rfl
    · rfl
  · cases h

/-- R350: a step moves the phase so, or ran a fetched RESET. -/
theorem step_phaseMove (h : step s = .next t) : PhaseMove s.phase t ∨
    ∃ rest bytes more, s.agenda = .fetch .op bytes :: rest ∧
      decode s.cfg.crcInit .op bytes = .instr .reset more ∧ t.phase = .sample := by
  rcases step_cases s with ⟨_, hs⟩ | ⟨e, rest, ha, hcases⟩
  · exact .inl (workerStep_phaseMove (hs ▸ h))
  rcases hcases with ⟨_, hs⟩ | ⟨u, _, hs⟩ | ⟨b, _, hs⟩ | ⟨fmt, bytes, i, more, rfl, hdec, hs⟩ |
    ⟨fmt, bytes, r, _, _, hs⟩ <;> rw [hs] at h
  · exact .inl (workerStep_phaseMove (s := { s with agenda := rest }) h)
  · unfold driveNow at h
    split at h <;> cases h
    exact .inl (.stay rfl)
  · cases h
    exact .inl (.stay rfl)
  · by_cases hreset : i = .reset
    · subst hreset
      obtain ⟨_, rfl, _⟩ := decode_eq_instr hdec
      cases h
      exact .inr ⟨rest, bytes, more, ha, hdec, rfl⟩
    · exact .inl (exec_phaseMove (s := { s with agenda := rest }) hreset h)
  · exact .inl (.stay (rejectFetch_phase (s := { s with agenda := rest }) h))

end

/-- Settles O56: by the phase move of the operation, the worker or the agent. -/
theorem phaseCycle : Obligations.PhaseCycle := by
  unfold Obligations.PhaseCycle
  intro s t h
  rcases step_phaseMove h with hmove | hreset
  · cases hmove with
    | stay h => exact .inl h
    | next h => exact .inr (.inl h)
    | raise hlive hfatal hcode hsync => exact .inr (.inr (.inl ⟨hlive, hfatal, hcode, hsync⟩))
  · exact .inr (.inr (.inr hreset))

end Sys2Proof.Machine
end
